-- ==== Sys2Proof/Word.lean ====
section
/-! DEFINITION. The bit-vector types of the LP cipher block (spec/00_scope.md R9). -/

namespace Sys2Proof

/-- A byte, bit 7 most significant (R9). -/
abbrev Byte := BitVec 8

/-- A word: 32 bits, bit 31 most significant (R9). -/
abbrev Word := BitVec 32

/-- A 16-byte block as the 128-bit number `Int(b)` of R10: byte 0 is the most significant. -/
abbrev Block := BitVec 128

/-- A 64-bit length counter (10_state.md R43). -/
abbrev Count := BitVec 64

end Sys2Proof
end

