-- ==== Sys2Proof/Config.lean ====
section
/-! DEFINITION. The open parameters of spec/00_scope.md R8 and the free values of
spec/70_reset_and_hazards.md R235. None has a body that Lean can evaluate: a claim about the model holds
whatever their values are. -/

namespace Sys2Proof

/-- `ID_VALUE`, the constant the ID register reads (R8, 10_state.md R24; notes/assumptions/3.md). -/
opaque Config.idValue : Word

/-- The register window's base address divided by 256 (R8; notes/assumptions/4.md). -/
opaque Config.baseIndex : Nat

/-- `BASE_ADDR`: "It must be 256-byte aligned" (R8), and is so by construction. -/
def Config.baseAddr : Nat := 256 * Config.baseIndex

/-- The value of the n-th free draw: "In the model, each unspecified read is a free draw: any value, and
two reads may differ" (R235; notes/assumptions/2.md). -/
opaque Config.freeRead : Nat → Word

end Sys2Proof
end

