-- ==== Sys2Proof/Syntax.lean ====
section
/-! DEFINITION. The command set, version 1: one constructor per row of spec/opcode_table.json
(spec/30_encoding.md R72). Every command carries its LEN field, because a word selects its command whatever
LEN it holds (R76) and LEN is judged when the command is executed (R73, R74). -/

namespace Sys2Proof

/-- A command: its operation and its 5-bit LEN field (R70, R73). All other operands are implicit registers. -/
inductive Instr where
  /-- KEXP_E, 0x01: derive the encrypt-order schedule (R110). -/
  | kexpE (len : BitVec 5)
  /-- KEXP_D, 0x02: derive the decrypt-order schedule (R111). -/
  | kexpD (len : BitVec 5)
  /-- CRYPT, 0x03: transform one block with the current schedule (R112). -/
  | crypt (len : BitVec 5)
  /-- ROUND, 0x04: one round of the round function (R113). -/
  | round (len : BitVec 5)
  /-- GMUL, 0x05: one multiplication in GF(2^128) (R137). -/
  | gmul (len : BitVec 5)
  /-- GINIT, 0x10: start a GCM session (R142). -/
  | ginit (len : BitVec 5)
  /-- GNONCE, 0x11: absorb up to 16 nonce bytes (R143). -/
  | gnonce (len : BitVec 5)
  /-- GNONCE_END, 0x12: compute J0 (R144). -/
  | gnonceEnd (len : BitVec 5)
  /-- GAAD, 0x13: absorb up to 16 AAD bytes (R147). -/
  | gaad (len : BitVec 5)
  /-- GENC, 0x14: encrypt up to 16 bytes (R149). -/
  | genc (len : BitVec 5)
  /-- GDEC, 0x15: decrypt up to 16 bytes (R150). -/
  | gdec (len : BitVec 5)
  /-- GFINISH, 0x16: produce the tag (R153). -/
  | gfinish (len : BitVec 5)
  /-- GVERIFY, 0x17: finish and compare against an expected tag (R157). -/
  | gverify (len : BitVec 5)
  deriving DecidableEq, Repr

/-- The LEN field of a command (R73). -/
def Instr.len : Instr → BitVec 5
  | .kexpE n => n
  | .kexpD n => n
  | .crypt n => n
  | .round n => n
  | .gmul n => n
  | .ginit n => n
  | .gnonce n => n
  | .gnonceEnd n => n
  | .gaad n => n
  | .genc n => n
  | .gdec n => n
  | .gfinish n => n
  | .gverify n => n

end Sys2Proof
end

