-- ==== Sys2Proof/Machine/State.lean ====
section
/-! DEFINITION. The state of the LP cipher block (spec/10_state.md R22 to R48), as plain data, with its reset
values (spec/70_reset_and_hazards.md R230). `Device` is the complete state vector of R48; `State` adds the
environment's part: which turns are still to come, and what the host has read. -/

namespace Sys2Proof.Machine

/-- GPHASE, the GCM session phase (R36). The value 7 is never produced, and has no constructor. -/
inductive Phase where
  | idle | nonce | init | aad | dataEnc | dataDec | finished
  deriving DecidableEq, Repr

/-- The error codes of STATUS.ERRCODE (60_exceptions.md R202). The values 6 to 15 are never produced. -/
inductive ErrCode where
  /-- 0, success. -/
  | none
  /-- 1: RSV is not 0, or OP is undefined (R205). -/
  | illegalCmd
  /-- 2: LEN is outside the command's legal set (R206). -/
  | invalidLength
  /-- 3: GPHASE does not allow the command (R207). -/
  | sequence
  /-- 4: CRYPT before any key expansion (R208). -/
  | noKey
  /-- 5: the tags differ (R209). -/
  | authFail
  deriving DecidableEq, Repr

/-- A group of four 32-bit registers at increasing offsets: KEY, DIN, AUX or DOUT (R34, R35). -/
structure Quad where
  w0 : Word
  w1 : Word
  w2 : Word
  w3 : Word
  deriving DecidableEq, Repr

/-- A round-key store: 32 words (R38, R39). -/
abbrev RoundKeys := Vector Word 32

/-- The one GCM session the block holds (R36, R39 to R43, 42_gcm.md R140). -/
structure Session where
  /-- GPHASE (R36). -/
  phase : Phase
  /-- GRK, the session's private round keys, in encrypt order (R39). -/
  grk   : RoundKeys
  /-- H, the GHASH subkey (R40). -/
  h     : Block
  /-- J0, the base counter block (R40). -/
  j0    : Block
  /-- CTR, the current counter block (R41). -/
  ctr   : Block
  /-- KS, the current keystream block (R41). -/
  ks    : Block
  /-- ACC, the GHASH accumulator (R42). -/
  acc   : Block
  /-- PBUF, the partial-block carry (R42). -/
  pbuf  : Block
  /-- PLEN, how many bytes of PBUF are valid (R42). -/
  plen  : Fin 16
  /-- ALEN, the AAD length in bits (R43). -/
  alen  : Count
  /-- CLEN, the text length in bits (R43). -/
  clen  : Count
  /-- NLEN, the nonce length in bits (R43). -/
  nlen  : Count
  deriving DecidableEq, Repr

/-- The block's state vector (R48), less the constant ID and the parameters, which are in Config. -/
structure Device where
  /-- CTRL.IRQ_EN (R25). -/
  irqEn    : Bool
  /-- STATUS.BUSY (R27). -/
  busy     : Bool
  /-- STATUS.DONE (R28). -/
  done     : Bool
  /-- STATUS.ERR (R29). -/
  err      : Bool
  /-- STATUS.ERRCODE (R29). -/
  errCode  : ErrCode
  /-- STATUS.AUTH_OK (R30). -/
  authOk   : Bool
  /-- STATUS.KEY_VALID (R31). -/
  keyValid : Bool
  /-- STATUS.KEY_DIR: false for encrypt order, true for decrypt order (R31). -/
  keyDir   : Bool
  /-- STATUS.OVERRUN (R32). -/
  overrun  : Bool
  /-- KEY0..KEY3 (R34). -/
  key      : Quad
  /-- DIN0..DIN3 (R35). -/
  din      : Quad
  /-- AUX0..AUX3 (R35). -/
  aux      : Quad
  /-- DOUT0..DOUT3 (R35). -/
  dout     : Quad
  /-- BRK, the block commands' round keys (R38). -/
  brk      : RoundKeys
  /-- PCMD, the latched command word (R44). -/
  pcmd     : Word
  /-- The GCM session. -/
  gcm      : Session
  deriving DecidableEq, Repr

/-- The width of a bus access (20_memory.md R53). -/
inductive Width where
  | bits8 | bits16 | bits32 | bits64
  deriving DecidableEq, Repr

/-- What a bus access does. The value is that of the only defined width, 32 bits (R54). -/
inductive BusOp where
  | read
  | write (v : Word)
  deriving DecidableEq, Repr

/-- One bus access of the host, at a host address (R50, R53). -/
structure Access where
  addr  : Nat
  width : Width
  op    : BusOp
  deriving DecidableEq, Repr

/-- One turn of an agent (00_scope.md R12): each host access happens wholly before or wholly after a
completion step (20_memory.md R60). -/
inductive Turn where
  /-- The host makes one bus access. -/
  | host (a : Access)
  /-- The engine takes its step if it is enabled, that is if BUSY = 1 (60_exceptions.md R201). -/
  | engine
  /-- The platform asserts the block's reset input (70_reset_and_hazards.md R231). -/
  | reset
  deriving DecidableEq, Repr

/-- What one read of the host returned. -/
structure ReadRecord where
  off   : Nat
  value : Word
  deriving DecidableEq, Repr

/-- The machine: the block and its environment. -/
structure State where
  /-- The block's state vector (R48). -/
  dev       : Device
  /-- The turns to come, oldest first (the model's own field, notes/assumptions/1.md). -/
  schedule  : List Turn
  /-- What the host has read, newest first (R238; the model's own field, notes/assumptions/6.md). -/
  reads     : List ReadRecord
  /-- How many free draws have been made (R235; the model's own field, notes/assumptions/2.md). -/
  freeCount : Nat
  deriving DecidableEq, Repr

/-- No behaviour of the block is a fault: "No behaviour of the block is `fault` or `stuck`"
(spec/93_implementation_defined.md part 1), so no constructor exists and nothing raises one
(notes/assumptions/9.md). -/
inductive Fault where
  deriving DecidableEq, Repr

/-- Why the model gives an action no meaning. -/
inductive Refusal where
  /-- Raised by a refused arm of `exec`, for a command that has no meaning yet. No arm of this model is
  refused. Safe. -/
  | notModelled (mnemonic : String)
  /-- Raised by a host access whose width is not 32 bits (R53: "A model gives a refused access no
  meaning"). Safe. -/
  | accessWidth (w : Width)
  /-- Raised by a 32-bit host access at an offset that is not a multiple of 4 (R53). Safe. -/
  | accessMisaligned (off : Nat)
  /-- Raised by a host access outside the block's window: "The platform decides `BASE_ADDR` and what lies
  outside the window" (R50). Safe. -/
  | outsideWindow (addr : Nat)
  deriving DecidableEq, Repr

/-- Four words of 0. -/
def Quad.zero : Quad := ⟨0, 0, 0, 0⟩

/-- A round-key store of 32 zero words. -/
def RoundKeys.zero : RoundKeys := Vector.replicate 32 0

/-- The GCM session after reset (R230): IDLE and all zero. -/
def Session.reset : Session where
  phase := .idle
  grk := RoundKeys.zero
  h := 0
  j0 := 0
  ctr := 0
  ks := 0
  acc := 0
  pbuf := 0
  plen := 0
  alen := 0
  clen := 0
  nlen := 0

/-- The block after reset (R230): every field 0. -/
def Device.reset : Device where
  irqEn := false
  busy := false
  done := false
  err := false
  errCode := .none
  authOk := false
  keyValid := false
  keyDir := false
  overrun := false
  key := Quad.zero
  din := Quad.zero
  aux := Quad.zero
  dout := Quad.zero
  brk := RoundKeys.zero
  pcmd := 0
  gcm := Session.reset

/-- The machine right after reset: the block as R230 says, with no turn to come, nothing read and no free
value drawn. -/
def State.reset : State where
  dev := Device.reset
  schedule := []
  reads := []
  freeCount := 0

end Sys2Proof.Machine
end

