-- ==== Sys2Proof/Machine/Flags.lean ====
section
/-! DEFINITION. STATUS and the interrupt output (spec/10_state.md R25 to R32, R36, R45;
spec/70_reset_and_hazards.md R235). The block has no arithmetic condition codes (R46). -/

namespace Sys2Proof.Machine

/-- The 4-bit value of ERRCODE (60_exceptions.md R202). -/
def ErrCode.bits : ErrCode → BitVec 4
  | .none => 0
  | .illegalCmd => 1
  | .invalidLength => 2
  | .sequence => 3
  | .noKey => 4
  | .authFail => 5

/-- The 3-bit value of GPHASE (R36). -/
def Phase.bits : Phase → BitVec 3
  | .idle => 0
  | .nonce => 1
  | .init => 2
  | .aad => 3
  | .dataEnc => 4
  | .dataDec => 5
  | .finished => 6

/-- The value a read of STATUS returns while BUSY = 0, laid out as R26 says; reserved bits read 0 (R23). -/
def statusWord (d : Device) : Word :=
  (0 : BitVec 13) ++ d.gcm.phase.bits ++ (0 : BitVec 4) ++ d.errCode.bits ++ (0 : BitVec 1)
    ++ BitVec.ofBool d.overrun ++ BitVec.ofBool d.keyDir ++ BitVec.ofBool d.keyValid
    ++ BitVec.ofBool d.authOk ++ BitVec.ofBool d.err ++ BitVec.ofBool d.done ++ BitVec.ofBool d.busy

/-- The STATUS bits that read unspecified values while BUSY = 1: ERR, AUTH_OK, KEY_VALID, KEY_DIR, ERRCODE
and GPHASE (R235). -/
def busyFreeMask : Word := 0x00070F3C

/-- The value a read of STATUS returns while BUSY = 1: "BUSY reads 1, DONE reads 0 and OVERRUN reads its true
value", the fields of `busyFreeMask` come from the free draw, reserved bits read 0 (R235, R23). -/
def busyStatusWord (overrun : Bool) (free : Word) : Word :=
  (free &&& busyFreeMask) ||| ((BitVec.ofBool overrun).setWidth 32 <<< 6) ||| 1

/-- A write to STATUS: "clears DONE if bit 1 of the written value is 1, and clears OVERRUN if bit 6 is 1. It
changes nothing else" (R26). -/
def writeStatus (v : Word) (d : Device) : Device :=
  { d with done := d.done && !v.getLsbD 1, overrun := d.overrun && !v.getLsbD 6 }

/-- The value a read of CTRL returns (R25). -/
def ctrlWord (d : Device) : Word := (BitVec.ofBool d.irqEn).setWidth 32

/-- A write to CTRL: bit 0 is IRQ_EN, the other bits are ignored (R25). -/
def writeCtrl (v : Word) (d : Device) : Device := { d with irqEn := v.getLsbD 0 }

/-- A host write dropped because BUSY = 1 sets OVERRUN (R32). -/
def setOverrun (d : Device) : Device := { d with overrun := true }

/-- The interrupt output: `IRQ = CTRL.IRQ_EN ∧ STATUS.DONE` at every instant (R45, 60_exceptions.md R211). -/
def Device.irq (d : Device) : Bool := d.irqEn && d.done

end Sys2Proof.Machine
end

