-- ==== Sys2Proof/Machine/Operands.lean ====
section
/-! DEFINITION. Operand forms: byte and word views of blocks and register groups (spec/00_scope.md R9, R10,
spec/20_memory.md R55, R57), and the LEN operand with the byte strings it selects (spec/30_encoding.md R73). -/

namespace Sys2Proof.Machine

/-- Byte `j` of a block, `b[0]` being the most significant (R10). -/
def byteAt (b : Block) (j : Nat) : Byte := b.extractLsb' (8 * (15 - j)) 8

/-- The block `b` with its byte `j` replaced by `v`. -/
def setByte (b : Block) (j : Nat) (v : Byte) : Block :=
  (b &&& ~~~((0xff : Block) <<< (8 * (15 - j)))) ||| (v.setWidth 128 <<< (8 * (15 - j)))

/-- `BE32(b, k)`: word `k` of a block, byte `4k` in bits 31:24 (R10). -/
def be32 (b : Block) (k : Nat) : Word := b.extractLsb' (32 * (3 - k)) 32

/-- The 16-byte string a register group holds: `Xb[4k + j] = Xk[31 - 8j : 24 - 8j]` (R55). -/
def Quad.toBlock (q : Quad) : Block := q.w0 ++ q.w1 ++ q.w2 ++ q.w3

/-- The register words of a 16-byte string: `Xk = BE32(Xb, k)` (R55). -/
def Quad.ofBlock (b : Block) : Quad := ⟨be32 b 0, be32 b 1, be32 b 2, be32 b 3⟩

/-- Word `k` of a register group, the last one for every `k` above 2. -/
def Quad.get (q : Quad) : Nat → Word
  | 0 => q.w0
  | 1 => q.w1
  | 2 => q.w2
  | _ => q.w3

/-- A register group with its word `k` replaced. -/
def Quad.set (q : Quad) (k : Nat) (v : Word) : Quad :=
  match k with
  | 0 => { q with w0 := v }
  | 1 => { q with w1 := v }
  | 2 => { q with w2 := v }
  | _ => { q with w3 := v }

/-- The byte string `b[0..n-1]` (R9). -/
def takeBytes (n : Nat) (b : Block) : List Byte := (List.range n).map (byteAt b)

/-- The block whose bytes from `j` on are those of the list, and whose other bytes are 0. -/
def packFrom : Nat → List Byte → Block
  | _, [] => 0
  | j, v :: vs => setByte (packFrom (j + 1) vs) j v

/-- A byte string of at most 16 bytes followed by zero bytes. -/
def packBytes (bs : List Byte) : Block := packFrom 0 bs

/-- `BE64(a) ‖ BE64(b)`: two 64-bit values, most significant byte first (R10, R57). -/
def be64Pair (a b : Count) : Block := a ++ b

/-- LEN as a byte count, zero-extended and not scaled (R73). -/
def byteCount (n : BitVec 5) : Nat := n.toNat

/-- `8·LEN`: what a command of LEN bytes adds to a bit counter (10_state.md R43). -/
def bitCount (n : BitVec 5) : Count := BitVec.ofNat 64 (8 * byteCount n)

/-- The operand bytes `DINb[0..LEN-1]` (R73). -/
def dinBytes (n : BitVec 5) (d : Device) : List Byte := takeBytes (byteCount n) d.din.toBlock

/-- "Its legal values per command" (R73): the engine's LEN check of R74. -/
def legalLen : Instr → Bool
  | .kexpE n => byteCount n == 0
  | .kexpD n => byteCount n == 0
  | .crypt n => byteCount n == 0
  | .round n => byteCount n == 0
  | .gmul n => byteCount n == 0
  | .ginit n => byteCount n == 0 || byteCount n == 12
  | .gnonce n => byteCount n ≤ 16
  | .gnonceEnd n => byteCount n == 0
  | .gaad n => byteCount n ≤ 16
  | .genc n => byteCount n ≤ 16
  | .gdec n => byteCount n ≤ 16
  | .gfinish n => 1 ≤ byteCount n && byteCount n ≤ 16
  | .gverify n => 1 ≤ byteCount n && byteCount n ≤ 16

end Sys2Proof.Machine
end

