-- ==== Sys2Proof/Machine/Ops.lean ====
section
/-! DEFINITION. The shared operations of command execution: acceptance, the checks made before a command runs,
raising a command error, and completion (spec/60_exceptions.md R200 to R209, spec/30_encoding.md R74,
spec/42_gcm.md R141). The block has no traps: raising `CmdError(code)` is the block's whole exception
mechanism, and it has no return (R213, R214); what clears the error is the next acceptance. -/

namespace Sys2Proof.Machine

/-- Acceptance of a command word (R200): PCMD is latched, BUSY set, and DONE, ERR, ERRCODE and AUTH_OK
cleared. OVERRUN is not changed. -/
def accept (v : Word) (d : Device) : Device :=
  { d with pcmd := v, busy := true, done := false, err := false, errCode := .none, authOk := false }

/-- Completion of a command that succeeded (R201, R29): BUSY <- 0, DONE <- 1, ERR <- 0, ERRCODE <- 0. -/
def completeOk (d : Device) : Device :=
  { d with busy := false, done := true, err := false, errCode := .none }

/-- `raise CmdError(code)`: the command ends with ERR = 1 and ERRCODE = code, and has no other effect than
completion (R201, R203). -/
def raiseCmdError (code : ErrCode) (d : Device) : Device :=
  { d with busy := false, done := true, err := true, errCode := code }

/-- Phase admission (R141). The block commands and GINIT are allowed in every phase. -/
def phaseAllows : Instr → Phase → Bool
  | .kexpE _, _ => true
  | .kexpD _, _ => true
  | .crypt _, _ => true
  | .round _, _ => true
  | .gmul _, _ => true
  | .ginit _, _ => true
  | .gnonce _, p => p == .nonce
  | .gnonceEnd _, p => p == .nonce
  | .gaad _, p => p == .init || p == .aad
  | .genc _, p => p == .init || p == .aad || p == .dataEnc
  | .gdec _, p => p == .init || p == .aad || p == .dataDec
  | .gfinish _, p => p == .init || p == .aad || p == .dataEnc || p == .dataDec
  | .gverify _, p => p == .init || p == .aad || p == .dataEnc || p == .dataDec

/-- Only CRYPT needs a key to have been expanded (R208). -/
def needsKey : Instr → Bool
  | .crypt _ => true
  | .kexpE _ => false
  | .kexpD _ => false
  | .round _ => false
  | .gmul _ => false
  | .ginit _ => false
  | .gnonce _ => false
  | .gnonceEnd _ => false
  | .gaad _ => false
  | .genc _ => false
  | .gdec _ => false
  | .gfinish _ => false
  | .gverify _ => false

/-- The checks of R74 on a word that has selected a command, in the order that is the error priority of R204:
INVALID_LENGTH, SEQUENCE, NO_KEY. `none` where the command executes. -/
def admissionError (i : Instr) (d : Device) : Option ErrCode :=
  if !legalLen i then some .invalidLength
  else if !phaseAllows i d.gcm.phase then some .sequence
  else if needsKey i && !d.keyValid then some .noKey
  else none

/-- One command as one atomic step (R201): a check that fails raises its error before any state is written
(R203); otherwise `body` gives the command's own writes and, where it raises an error after them (R209), that
error. -/
def runCommand (i : Instr) (body : Device → Device × Option ErrCode) (s : State) :
    Host.Outcome State Fault Refusal :=
  match admissionError i s.dev with
  | some code => .next { s with dev := raiseCmdError code s.dev }
  | none =>
    match body s.dev with
    | (d, none) => .next { s with dev := completeOk d }
    | (d, some code) => .next { s with dev := raiseCmdError code d }

/-- A command that writes no error of its own. -/
def runPlain (i : Instr) (body : Device → Device) (s : State) : Host.Outcome State Fault Refusal :=
  runCommand i (fun d => (body d, none)) s

end Sys2Proof.Machine
end

