-- ==== Sys2Proof/Machine/Bus.lean ====
section
/-! DEFINITION. The register window: the register map, host reads and writes, and the reset input
(spec/10_state.md R22 to R37, spec/20_memory.md R50 to R60, spec/70_reset_and_hazards.md R230 to R235). -/

namespace Sys2Proof.Machine

/-- The bus-visible registers of R22; the argument is a word's place in its group of four. -/
inductive Reg where
  | id | ctrl | status | cmd
  | key (k : Nat) | din (k : Nat) | aux (k : Nat) | dout (k : Nat)
  | alenLo | alenHi | clenLo | clenHi
  /-- A reserved offset, 0x060 to 0x0FC (R23). -/
  | reserved
  deriving DecidableEq, Repr

/-- The register map (R22): the register at word index `w`, that is at offset `4·w`. -/
def regAtWord (w : Nat) : Reg :=
  match w with
  | 0x00 => .id
  | 0x01 => .ctrl
  | 0x02 => .status
  | 0x03 => .cmd
  | 0x04 => .key 0
  | 0x05 => .key 1
  | 0x06 => .key 2
  | 0x07 => .key 3
  | 0x08 => .din 0
  | 0x09 => .din 1
  | 0x0A => .din 2
  | 0x0B => .din 3
  | 0x0C => .aux 0
  | 0x0D => .aux 1
  | 0x0E => .aux 2
  | 0x0F => .aux 3
  | 0x10 => .dout 0
  | 0x11 => .dout 1
  | 0x12 => .dout 2
  | 0x13 => .dout 3
  | 0x14 => .alenLo
  | 0x15 => .alenHi
  | 0x16 => .clenLo
  | 0x17 => .clenHi
  | _ => .reserved

/-- The register at a word-aligned offset of the window (R22). -/
def regAt (off : Nat) : Reg := regAtWord (off / 4)

/-- The byte offset of a host address in the block's window, `none` outside it (R50). -/
def windowOffset (addr : Nat) : Option Nat :=
  if Config.baseAddr ≤ addr ∧ addr < Config.baseAddr + 256 then some (addr - Config.baseAddr) else none

/-- Whether a read of the register returns an unspecified value while BUSY = 1 (R235). STATUS is not one of
these: only some of its fields are unspecified then. -/
def unspecifiedWhenBusy : Reg → Bool
  | .dout _ => true
  | .alenLo => true
  | .alenHi => true
  | .clenLo => true
  | .clenHi => true
  | .id => false
  | .ctrl => false
  | .status => false
  | .cmd => false
  | .key _ => false
  | .din _ => false
  | .aux _ => false
  | .reserved => false

/-- The value a register holds for a read while BUSY = 0 (R22 to R37): write-only registers and reserved
offsets read 0. -/
def trueValue (r : Reg) (d : Device) : Word :=
  match r with
  | .id => Config.idValue
  | .ctrl => ctrlWord d
  | .status => statusWord d
  | .cmd => 0
  | .key _ => 0
  | .din k => d.din.get k
  | .aux k => d.aux.get k
  | .dout k => d.dout.get k
  | .alenLo => d.gcm.alen.extractLsb' 0 32
  | .alenHi => d.gcm.alen.extractLsb' 32 32
  | .clenLo => d.gcm.clen.extractLsb' 0 32
  | .clenHi => d.gcm.clen.extractLsb' 32 32
  | .reserved => 0

/-- Whether a read draws a free value: some or all of its bits are unspecified (R235). -/
def drawsFree (r : Reg) (d : Device) : Bool := d.busy && (unspecifiedWhenBusy r || r == .status)

/-- The value `RegRead` returns (20_memory.md R54, R235), `free` being the free draw. -/
def readValue (r : Reg) (free : Word) (d : Device) : Word :=
  if d.busy then
    if unspecifiedWhenBusy r then free
    else if r = .status then busyStatusWord d.overrun free
    else trueValue r d
  else trueValue r d

/-- `RegRead(off)`: the value goes to the host; the block's state does not change (R58). -/
def regRead (off : Nat) (s : State) : State :=
  { s with
    reads := ⟨off, readValue (regAt off) (Config.freeRead s.freeCount) s.dev⟩ :: s.reads
    freeCount := if drawsFree (regAt off) s.dev then s.freeCount + 1 else s.freeCount }

/-- A host write to CMD, KEY, DIN or AUX: made if BUSY = 0, dropped with OVERRUN set if BUSY = 1 (R234). -/
def whenIdle (d : Device) (written : Device) : Device := if d.busy then setOverrun d else written

/-- The effect of `RegWrite(off, v)` on the block (R59 and the register's rule). -/
def writeReg (r : Reg) (v : Word) (d : Device) : Device :=
  match r with
  | .id => d
  | .ctrl => writeCtrl v d
  | .status => writeStatus v d
  | .cmd => whenIdle d (accept v d)
  | .key k => whenIdle d { d with key := d.key.set k v }
  | .din k => whenIdle d { d with din := d.din.set k v }
  | .aux k => whenIdle d { d with aux := d.aux.set k v }
  | .dout _ => d
  | .alenLo => d
  | .alenHi => d
  | .clenLo => d
  | .clenHi => d
  | .reserved => d

/-- `RegWrite(off, v)` (R54). -/
def regWrite (off : Nat) (v : Word) (s : State) : State := { s with dev := writeReg (regAt off) v s.dev }

/-- One bus access of the host (R50, R53): only a 32-bit access at a multiple of 4 inside the window has a
meaning. -/
def busAccess (a : Access) (s : State) : Host.Outcome State Fault Refusal :=
  match windowOffset a.addr with
  | none => .refused (.outsideWindow a.addr)
  | some off =>
    if a.width ≠ .bits32 then .refused (.accessWidth a.width)
    else if off % 4 ≠ 0 then .refused (.accessMisaligned off)
    else
      match a.op with
      | .read => .next (regRead off s)
      | .write v => .next (regWrite off v s)

/-- The reset input (R230, R231): every field of the block takes its reset value, and a command in progress
is abandoned. What is still to come, and what the host has read, is not the block's. -/
def platformReset (s : State) : State := { s with dev := Device.reset }

end Sys2Proof.Machine
end

