-- ==== Sys2Proof/WellFormed.lean ====
section
/-! DEFINITION. Which commands are well formed: those whose LEN lies in the command's legal set
(spec/30_encoding.md R73). An ill-formed command still has an encoding and a meaning: it completes with
INVALID_LENGTH (spec/60_exceptions.md R206). -/

namespace Sys2Proof

/-- R73, column "LEN use" of R72. -/
def Instr.wf : Instr → Bool
  | .kexpE n => n == 0
  | .kexpD n => n == 0
  | .crypt n => n == 0
  | .round n => n == 0
  | .gmul n => n == 0
  | .ginit n => n == 0 || n == 12
  | .gnonce n => n ≤ 16
  | .gnonceEnd n => n == 0
  | .gaad n => n ≤ 16
  | .genc n => n ≤ 16
  | .gdec n => n ≤ 16
  | .gfinish n => 1 ≤ n && n ≤ 16
  | .gverify n => 1 ≤ n && n ≤ 16

end Sys2Proof
end

