-- ==== Sys2Proof/Decode.lean ====
section
/-! DEFINITION. The command word's decoder and encoder (spec/30_encoding.md R70 to R76). Decoding is total:
every 32-bit word selects one command or is rejected by name, and a rejected word completes with
ILLEGAL_CMD (R75). -/

namespace Sys2Proof

/-- Why a word selects no command (R75). Both reasons report ILLEGAL_CMD. -/
inductive DecodeReject where
  /-- Bits 31:13 (RSV) are not 0. -/
  | reservedBits
  /-- OP is 0x00, 0x06..0x0F or 0x18..0xFF. -/
  | undefinedOp
  deriving DecidableEq, Repr

/-- OP, bits 7:0 (R70). -/
def opField (w : Word) : Byte := w.extractLsb' 0 8

/-- LEN, bits 12:8 (R70). -/
def lenField (w : Word) : BitVec 5 := w.extractLsb' 8 5

/-- RSV, bits 31:13 (R70). -/
def rsvField (w : Word) : BitVec 19 := w.extractLsb' 13 19

/-- The opcode map of R72: the command an OP value selects. -/
def commandOf (op : Byte) (n : BitVec 5) : Option Instr :=
  match op.toNat with
  | 0x01 => some (.kexpE n)
  | 0x02 => some (.kexpD n)
  | 0x03 => some (.crypt n)
  | 0x04 => some (.round n)
  | 0x05 => some (.gmul n)
  | 0x10 => some (.ginit n)
  | 0x11 => some (.gnonce n)
  | 0x12 => some (.gnonceEnd n)
  | 0x13 => some (.gaad n)
  | 0x14 => some (.genc n)
  | 0x15 => some (.gdec n)
  | 0x16 => some (.gfinish n)
  | 0x17 => some (.gverify n)
  | _ => none

/-- The part of R74's decode that depends on the word alone: RSV first, then OP. -/
def decode (w : Word) : Except DecodeReject Instr :=
  if rsvField w = 0 then
    match commandOf (opField w) (lenField w) with
    | some i => .ok i
    | none => .error .undefinedOp
  else .error .reservedBits

/-- The OP value of a command (R72). -/
def opcode : Instr → Byte
  | .kexpE _ => 0x01
  | .kexpD _ => 0x02
  | .crypt _ => 0x03
  | .round _ => 0x04
  | .gmul _ => 0x05
  | .ginit _ => 0x10
  | .gnonce _ => 0x11
  | .gnonceEnd _ => 0x12
  | .gaad _ => 0x13
  | .genc _ => 0x14
  | .gdec _ => 0x15
  | .gfinish _ => 0x16
  | .gverify _ => 0x17

/-- The command word: RSV = 0, then LEN, then OP (R70). -/
def encode (i : Instr) : Word := (0 : BitVec 19) ++ i.len ++ opcode i

/-- The 32-bit word that an opcode-table row's bits stand for (R71: every command is one word); bits at and
above `nbits` are 0. -/
def tableWord (nbits w : Nat) : Word := BitVec.ofNat 32 (w % 2 ^ nbits)

/-- What the decoder reads from the bits `w` of an opcode-table row; none where the decoder rejects them or
they do not fit the one word a command has. -/
def decodeTableWord (nbits w : Nat) : Option Instr :=
  if w % 2 ^ nbits < 2 ^ 32 then (decode (tableWord nbits w)).toOption else none

end Sys2Proof
end

