-- ==== Sys2Proof/Machine/CipherCore.lean ====
section
/-! DEFINITION. The cipher core and its four block commands KEXP_E, KEXP_D, CRYPT and ROUND
(spec/40_cipher_core.md R100 to R113). -/

namespace Sys2Proof.Machine

/-- Row `x` of the S-box table of R100, its 16 entries from column 0 on. -/
def sboxRow (x : Nat) : Block :=
  match x with
  | 0x0 => 0xd690e9fecce13db716b614c228fb2c05
  | 0x1 => 0x2b679a762abe04c3aa44132649860699
  | 0x2 => 0x9c4250f491ef987a33540b43edcfac62
  | 0x3 => 0xe4b31ca9c908e89580df94fa758f3fa6
  | 0x4 => 0x4707a7fcf37317ba83593c19e6854fa8
  | 0x5 => 0x686b81b27164da8bf8eb0f4b70569d35
  | 0x6 => 0x1e240e5e6358d1a225227c3b01217887
  | 0x7 => 0xd40046579fd327524c3602e7a0c4c89e
  | 0x8 => 0xeabf8ad240c738b5a3f7f2cef96115a1
  | 0x9 => 0xe0ae5da49b341a55ad933230f58cb1e3
  | 0xA => 0x1df6e22e8266ca60c02923ab0d534e6f
  | 0xB => 0xd5db3745defd8e2f03ff6a726d6c5b51
  | 0xC => 0x8d1baf92bbddbc7f11d95c411f105ad8
  | 0xD => 0x0ac13188a5cd7bbd2d74d012b8e5b4b0
  | 0xE => 0x8969974a0c96777e65b9f109c56ec684
  | _   => 0x18f07dec3adc4d2079ee5f3ed7cb3948

/-- The S-box (R100): row is the high half of the byte, column the low half. -/
def sbox (x : Byte) : Byte := byteAt (sboxRow (x.toNat / 16)) (x.toNat % 16)

/-- `rotl32` (R9). -/
def rotl32 (w : Word) (n : Nat) : Word := (w <<< n) ||| (w >>> (32 - n))

/-- `tau`: the S-box on each byte of a word (R101). -/
def tau (a : Word) : Word :=
  sbox (a.extractLsb' 24 8) ++ sbox (a.extractLsb' 16 8) ++ sbox (a.extractLsb' 8 8) ++ sbox (a.extractLsb' 0 8)

/-- `L`, the round linear transform (R102). -/
def linL (b : Word) : Word := b ^^^ rotl32 b 2 ^^^ rotl32 b 10 ^^^ rotl32 b 18 ^^^ rotl32 b 24

/-- `L'`, the key-schedule linear transform (R103). -/
def linK (b : Word) : Word := b ^^^ rotl32 b 13 ^^^ rotl32 b 23

/-- `T(x) = L(tau(x))` (R104). -/
def roundT (x : Word) : Word := linL (tau x)

/-- `T'(x) = L'(tau(x))` (R105). -/
def keyT (x : Word) : Word := linK (tau x)

/-- The system constants FK[0..3] (R106). -/
def sysFK : Quad := ⟨0xA3B1BAC6, 0x56AA3350, 0x677D9197, 0xB27022DC⟩

/-- Byte `j` of the round constant CK[i] is `7·(4i + j) mod 256` (R107). -/
def ckByte (i j : Nat) : Byte := BitVec.ofNat 8 (7 * (4 * i + j))

/-- The round constant CK[i] (R107). -/
def roundCK (i : Nat) : Word := ckByte i 0 ++ ckByte i 1 ++ ckByte i 2 ++ ckByte i 3

/-- One step of the key recurrence of R108 on the window K[i..i+3]: the window K[i+1..i+4]. -/
def keyStep (k : Quad) (i : Nat) : Quad := ⟨k.w1, k.w2, k.w3, k.w0 ^^^ keyT (k.w1 ^^^ k.w2 ^^^ k.w3 ^^^ roundCK i)⟩

/-- The round keys of the next `n` rounds from round `i` on, the window being K[i..i+3] (R108). -/
def keyWords : Nat → Nat → Quad → List Word
  | 0, _, _ => []
  | n + 1, i, k => (keyStep k i).w3 :: keyWords n (i + 1) (keyStep k i)

/-- The key's four words, masked by FK: K[0..3] (R108). -/
def keyWindow (mk : Block) : Quad :=
  ⟨be32 mk 0 ^^^ sysFK.w0, be32 mk 1 ^^^ sysFK.w1, be32 mk 2 ^^^ sysFK.w2, be32 mk 3 ^^^ sysFK.w3⟩

theorem length_keyWords (n i : Nat) (k : Quad) : (keyWords n i k).length = n := by
  induction n generalizing i k with
  | zero => rfl
  | succ n ih => simp [keyWords, ih]

/-- `KeyExpand` (R108): rk[i] = K[i+4] for i in 0..31. -/
def keyExpand (mk : Block) : RoundKeys :=
  ⟨(keyWords 32 0 (keyWindow mk)).toArray, by simp [length_keyWords]⟩

/-- The schedule in reverse order, index i ↔ 31 - i (R111). -/
def reverseKeys (rk : RoundKeys) : RoundKeys := rk.reverse

/-- One round on the 4-word state (R109 in LP's form: XOR into X0, then rotate the state left by one slot). -/
def roundStep (x : Quad) (rk : Word) : Quad := ⟨x.w1, x.w2, x.w3, x.w0 ^^^ roundT (x.w1 ^^^ x.w2 ^^^ x.w3 ^^^ rk)⟩

/-- "after 32 rounds emit the final 4 words in reverse order" (R109). -/
def Quad.swap (x : Quad) : Quad := ⟨x.w3, x.w2, x.w1, x.w0⟩

/-- `Cipher(RK, B)` (R109). -/
def cipher (rk : RoundKeys) (b : Block) : Block :=
  (rk.toList.foldl roundStep (Quad.ofBlock b)).swap.toBlock

/-- KEXP_E (R110). -/
def execKexpE (n : BitVec 5) (s : State) : Host.Outcome State Fault Refusal :=
  runPlain (.kexpE n) (fun d => { d with brk := keyExpand d.key.toBlock, keyValid := true, keyDir := false }) s

/-- KEXP_D (R111). -/
def execKexpD (n : BitVec 5) (s : State) : Host.Outcome State Fault Refusal :=
  runPlain (.kexpD n)
    (fun d => { d with brk := reverseKeys (keyExpand d.key.toBlock), keyValid := true, keyDir := true }) s

/-- CRYPT (R112). NO_KEY is raised by the admission check. -/
def execCrypt (n : BitVec 5) (s : State) : Host.Outcome State Fault Refusal :=
  runPlain (.crypt n) (fun d => { d with dout := Quad.ofBlock (cipher d.brk d.din.toBlock) }) s

/-- ROUND (R113): one round on DIN with the round key AUX0. -/
def execRound (n : BitVec 5) (s : State) : Host.Outcome State Fault Refusal :=
  runPlain (.round n) (fun d => { d with dout := roundStep d.din d.aux.w0 }) s

end Sys2Proof.Machine
end

