-- ==== Sys2Proof/Machine/Ghash.lean ====
section
/-! DEFINITION. The GF(2^128) multiplier, the GHASH steps and GMUL (spec/41_ghash.md R130 to R137). A block is
the 128-bit number `Int(X)`, so the coefficient x_i of R130 is its bit 127 - i. -/

namespace Sys2Proof.Machine

/-- `R = 0xE1 ‖ 0^120`, the reduction constant (R131). -/
def gfR : Block := 0xE1000000000000000000000000000000

/-- Multiply by x and reduce: the step on V in R131. -/
def gfMulX (v : Block) : Block := if v.getLsbD 0 then (v >>> 1) ^^^ gfR else v >>> 1

/-- The loop of R131 with `n` rounds to go: the next bit of Int(X) is bit `n - 1`. -/
def gfLoop (x : Block) : Nat → Block → Block → Block
  | 0, _, z => z
  | n + 1, v, z => gfLoop x n (gfMulX v) (if x.getLsbD n then z ^^^ v else z)

/-- `GFMul(X, Y)`, written `X • Y` (R131). -/
def gfMul (x y : Block) : Block := gfLoop x 128 y 0

/-- `Fold(X)`: ACC <- GFMul(ACC ⊕ X, H) (R133). -/
def fold (g : Session) (x : Block) : Session := { g with acc := gfMul (g.acc ^^^ x) g.h }

/-- `Absorb(b)` (R134). -/
def absorb (g : Session) (b : Byte) : Session :=
  if g.plen = 15 then { fold g (setByte g.pbuf g.plen b) with pbuf := 0, plen := 0 }
  else { g with pbuf := setByte g.pbuf g.plen b, plen := g.plen + 1 }

/-- `Absorb(M[0]); ...; Absorb(M[m-1])`. -/
def absorbAll (g : Session) (bs : List Byte) : Session := bs.foldl absorb g

/-- `Flush()` (R135). -/
def flush (g : Session) : Session :=
  if g.plen = 0 then g else { fold g g.pbuf with pbuf := 0, plen := 0 }

/-- `GHASH_H(M)`: the ACC reached from ACC = 0 by absorbing M and flushing (R136). -/
def ghash (h : Block) (m : List Byte) : Block :=
  (flush (absorbAll { Session.reset with h := h } m)).acc

/-- GMUL (R137). -/
def execGmul (n : BitVec 5) (s : State) : Host.Outcome State Fault Refusal :=
  runPlain (.gmul n) (fun d => { d with dout := Quad.ofBlock (gfMul d.din.toBlock d.aux.toBlock) }) s

end Sys2Proof.Machine
end

