-- ==== Sys2Proof/Machine/Gcm.lean ====
section
/-! DEFINITION. The GCM session, the counter-mode generator and tag finalization, with the eight GCM commands
(spec/42_gcm.md R140 to R157). Phase admission is `phaseAllows` (R141). -/

namespace Sys2Proof.Machine

/-- `inc32` (R145): bytes 12..15 are incremented as a big-endian number modulo 2^32. -/
def inc32 (c : Block) : Block := c.extractLsb' 32 96 ++ (be32 c 3 + 1)

/-- The keystream step before a text byte (R146). -/
def keystreamStep (g : Session) : Session :=
  if g.plen = 0 then { g with ctr := inc32 g.ctr, ks := cipher g.grk (inc32 g.ctr) } else g

/-- The session that GINIT sets up before any nonce byte (R142). -/
def sessionStart (key : Block) : Session where
  phase := .nonce
  grk := keyExpand key
  h := cipher (keyExpand key) 0
  j0 := 0
  ctr := 0
  ks := 0
  acc := 0
  pbuf := 0
  plen := 0
  alen := 0
  clen := 0
  nlen := 0

/-- The body of GNONCE (R143). -/
def nonceBytes (n : BitVec 5) (bs : List Byte) (g : Session) : Session :=
  let g' := absorbAll g bs
  { g' with nlen := g'.nlen + bitCount n }

/-- J0 by the length-96 fast path: `PBUF[0..11] ‖ 00 00 00 01` (R144). -/
def fastJ0 (pbuf : Block) : Block := pbuf.extractLsb' 32 96 ++ (1 : Word)

/-- J0 of a nonce whose length is not 96 bits: the tail flushed, then the nonce length block folded (R144). -/
def hashJ0 (g : Session) : Block := (fold (flush g) (be64Pair 0 g.nlen)).acc

/-- The J0 that GNONCE_END computes (R144). -/
def nonceJ0 (g : Session) : Block := if g.nlen = 96 then fastJ0 g.pbuf else hashJ0 g

/-- The body of GNONCE_END (R144). -/
def nonceEnd (g : Session) : Session :=
  { g with j0 := nonceJ0 g, acc := 0, pbuf := 0, plen := 0, ctr := nonceJ0 g, ks := 0, phase := .init }

/-- The body of GINIT (R142): with LEN = 12, the GNONCE and GNONCE_END bodies follow. -/
def sessionInit (n : BitVec 5) (key din : Block) : Session :=
  if byteCount n = 12 then nonceEnd (nonceBytes n (takeBytes 12 din) (sessionStart key)) else sessionStart key

/-- The body of GAAD (R147). -/
def aadBytes (n : BitVec 5) (bs : List Byte) (g : Session) : Session :=
  let g' := absorbAll g bs
  { g' with alen := g'.alen + bitCount n, phase := .aad }

/-- One text byte of GENC: the ciphertext byte is hashed and output (R149). -/
def encByte (g : Session) (p : Byte) : Session × Byte :=
  let k := keystreamStep g
  let c := p ^^^ byteAt k.ks k.plen
  (absorb k c, c)

/-- One text byte of GDEC: the received ciphertext byte is hashed (R150). -/
def decByte (g : Session) (c : Byte) : Session × Byte :=
  let k := keystreamStep g
  (absorb k c, c ^^^ byteAt k.ks k.plen)

/-- A command's text bytes in order, with the output bytes. -/
def mapBytes (f : Session → Byte → Session × Byte) : Session → List Byte → Session × List Byte
  | g, [] => (g, [])
  | g, b :: bs =>
    let r := f g b
    let t := mapBytes f r.1 bs
    (t.1, r.2 :: t.2)

/-- The AAD tail flush when a data command leaves INIT or AAD (R149, R150, R151). -/
def leaveAad (g : Session) : Session :=
  if g.phase = .init ∨ g.phase = .aad then flush g else g

/-- The body shared by GENC and GDEC, for the phase and the byte operation of each (R149, R150). -/
def dataBody (p : Phase) (f : Session → Byte → Session × Byte) (n : BitVec 5) (d : Device) : Device :=
  let r := mapBytes f { leaveAad d.gcm with phase := p } (dinBytes n d)
  { d with gcm := { r.1 with clen := r.1.clen + bitCount n }, dout := Quad.ofBlock (packBytes r.2) }

/-- The session after the final length block is folded (R153, R155), in phase FINISHED. -/
def finalSession (g : Session) : Session :=
  { fold (flush g) (be64Pair g.alen g.clen) with phase := .finished }

/-- The 16-byte TAG (R153). -/
def fullTag (g : Session) : Block := cipher g.grk g.j0 ^^^ (finalSession g).acc

/-- Whether the first `n` bytes of two tags agree, all of them compared (R157). -/
def tagsAgree (n : Nat) (a b : Block) : Bool := takeBytes n a == takeBytes n b

/-- The body of GVERIFY (R157): DOUT is cleared and the session finished whether or not the tags agree. -/
def verifyBody (n : BitVec 5) (d : Device) : Device × Option ErrCode :=
  let t := { d with gcm := finalSession d.gcm, dout := Quad.zero }
  if tagsAgree (byteCount n) (fullTag d.gcm) d.aux.toBlock then ({ t with authOk := true }, none)
  else (t, some .authFail)

/-- GINIT (R142). -/
def execGinit (n : BitVec 5) (s : State) : Host.Outcome State Fault Refusal :=
  runPlain (.ginit n) (fun d => { d with gcm := sessionInit n d.key.toBlock d.din.toBlock }) s

/-- GNONCE (R143). -/
def execGnonce (n : BitVec 5) (s : State) : Host.Outcome State Fault Refusal :=
  runPlain (.gnonce n) (fun d => { d with gcm := nonceBytes n (dinBytes n d) d.gcm }) s

/-- GNONCE_END (R144). -/
def execGnonceEnd (n : BitVec 5) (s : State) : Host.Outcome State Fault Refusal :=
  runPlain (.gnonceEnd n) (fun d => { d with gcm := nonceEnd d.gcm }) s

/-- GAAD (R147). -/
def execGaad (n : BitVec 5) (s : State) : Host.Outcome State Fault Refusal :=
  runPlain (.gaad n) (fun d => { d with gcm := aadBytes n (dinBytes n d) d.gcm }) s

/-- GENC (R149). -/
def execGenc (n : BitVec 5) (s : State) : Host.Outcome State Fault Refusal :=
  runPlain (.genc n) (dataBody .dataEnc encByte n) s

/-- GDEC (R150). -/
def execGdec (n : BitVec 5) (s : State) : Host.Outcome State Fault Refusal :=
  runPlain (.gdec n) (dataBody .dataDec decByte n) s

/-- GFINISH (R153): DOUT gets the leading LEN bytes of the tag (R154). -/
def execGfinish (n : BitVec 5) (s : State) : Host.Outcome State Fault Refusal :=
  runPlain (.gfinish n)
    (fun d => { d with
      gcm := finalSession d.gcm
      dout := Quad.ofBlock (packBytes (takeBytes (byteCount n) (fullTag d.gcm))) }) s

/-- GVERIFY (R157). -/
def execGverify (n : BitVec 5) (s : State) : Host.Outcome State Fault Refusal :=
  runCommand (.gverify n) (verifyBody n) s

end Sys2Proof.Machine
end

