-- ==== Sys2Proof/Machine/Dispatch.lean ====
section
/-! DEFINITION. Each command to its meaning (spec/30_encoding.md R72, R74). -/

namespace Sys2Proof.Machine

def exec (i : Instr) (s : State) : Host.Outcome State Fault Refusal :=
  match i with
  | .kexpE n => Sys2Proof.Machine.execKexpE n s
  | .kexpD n => Sys2Proof.Machine.execKexpD n s
  | .crypt n => Sys2Proof.Machine.execCrypt n s
  | .round n => Sys2Proof.Machine.execRound n s
  | .gmul n => Sys2Proof.Machine.execGmul n s
  | .ginit n => Sys2Proof.Machine.execGinit n s
  | .gnonce n => Sys2Proof.Machine.execGnonce n s
  | .gnonceEnd n => Sys2Proof.Machine.execGnonceEnd n s
  | .gaad n => Sys2Proof.Machine.execGaad n s
  | .genc n => Sys2Proof.Machine.execGenc n s
  | .gdec n => Sys2Proof.Machine.execGdec n s
  | .gfinish n => Sys2Proof.Machine.execGfinish n s
  | .gverify n => Sys2Proof.Machine.execGverify n s

end Sys2Proof.Machine
end

