-- ==== Sys2Proof/Machine/Engine.lean ====
section
/-! DEFINITION. The engine's step (spec/60_exceptions.md R201, spec/30_encoding.md R74, R75). -/

namespace Sys2Proof.Machine

/-- Completion of the accepted command: decode the latched word and execute it, as one atomic step. A word
that selects no command completes with ILLEGAL_CMD. -/
def engineStep (s : State) : Host.Outcome State Fault Refusal :=
  match decode s.dev.pcmd with
  | .ok i => exec i s
  | .error _ => .next { s with dev := raiseCmdError .illegalCmd s.dev }

/-- The engine's turn: its step "is enabled exactly when BUSY = 1" (R201). -/
def engineTurn (s : State) : Host.Outcome State Fault Refusal :=
  if s.dev.busy then engineStep s else .next s

/-- The state in which `v` is the accepted command and the next turn is the engine's (R200). -/
def acceptNext (v : Word) (s : State) : State := { s with dev := accept v s.dev, schedule := .engine :: s.schedule }

end Sys2Proof.Machine
end

