-- ==== Sys2Proof/Machine/Step.lean ====
section
/-! DEFINITION. One step of the machine: the next turn of the schedule is taken. When no turn is scheduled the
engine completes the command it owes (spec/60_exceptions.md R201, weak fairness; spec/70_reset_and_hazards.md
R238), and an idle block stays as it is (R225). -/

namespace Sys2Proof.Machine

/-- One step: one agent's turn. -/
def step (s : State) : Host.Outcome State Fault Refusal :=
  match s.schedule with
  | [] => engineTurn s
  | .host a :: rest => busAccess a { s with schedule := rest }
  | .engine :: rest => engineTurn { s with schedule := rest }
  | .reset :: rest => .next (platformReset { s with schedule := rest })

/-- The state in which the table row's word is the accepted command and the engine's turn is next
(notes/assumptions/8.md). -/
def State.withFetchWord (s : State) (nbits w : Nat) : State := acceptNext (tableWord nbits w) s

end Sys2Proof.Machine
end

