-- ==== Sys2Proof/Machine/HostSyntax.lean ====
section
/-! DEFINITION. How host programs are written: the assembler's words (spec/30_encoding.md R77), the
pseudo-commands (R78), and register accesses as turns of the host. -/

namespace Sys2Proof.Machine

/-- The mnemonics with the OP value of each (R72); `GNONCE_END` may also be written `GNONCEEND` (R77). -/
def mnemonicTable : List (String × Byte) :=
  [("KEXP_E", 0x01), ("KEXP_D", 0x02), ("CRYPT", 0x03), ("ROUND", 0x04), ("GMUL", 0x05), ("GINIT", 0x10),
   ("GNONCE", 0x11), ("GNONCE_END", 0x12), ("GNONCEEND", 0x12), ("GAAD", 0x13), ("GENC", 0x14), ("GDEC", 0x15),
   ("GFINISH", 0x16), ("GVERIFY", 0x17)]

/-- The OP value a mnemonic names, in any mixture of cases (R77). -/
def mnemonicOp (name : String) : Option Byte :=
  (mnemonicTable.find? fun r => r.1.toList == name.toList.map Char.toUpper).map (·.2)

/-- The assembled word `OP | (LEN << 8)`; an omitted LEN means 0 (R77). -/
def assemble (name : String) (len : Option (BitVec 5)) : Option Word :=
  (mnemonicOp name).map fun op => (0 : BitVec 19) ++ len.getD 0 ++ op

/-- The host address of a register offset (20_memory.md R50). -/
def regAddr (off : Nat) : Nat := Config.baseAddr + off

/-- `R off`: the host's 32-bit read of a register (R77). -/
def readTurn (off : Nat) : Turn := .host ⟨regAddr off, .bits32, .read⟩

/-- `W off, v`: the host's 32-bit write of a register (R77). -/
def writeTurn (off : Nat) (v : Word) : Turn := .host ⟨regAddr off, .bits32, .write v⟩

/-- Offsets of the register groups and of the command and status registers (10_state.md R22). -/
def offStatus : Nat := 0x008
@[inherit_doc offStatus] def offCmd : Nat := 0x00C
@[inherit_doc offStatus] def offKey : Nat := 0x010
@[inherit_doc offStatus] def offDin : Nat := 0x020
@[inherit_doc offStatus] def offAux : Nat := 0x030
@[inherit_doc offStatus] def offDout : Nat := 0x040

/-- `W X, b`: a block written to a group of four registers, `BE32(b, k)` to word `k` (20_memory.md R56). -/
def writeBlockTurns (off : Nat) (b : Block) : List Turn :=
  [writeTurn off (be32 b 0), writeTurn (off + 4) (be32 b 1), writeTurn (off + 8) (be32 b 2),
   writeTurn (off + 12) (be32 b 3)]

/-- `R X`: a group of four registers read at increasing offsets. -/
def readBlockTurns (off : Nat) : List Turn :=
  [readTurn off, readTurn (off + 4), readTurn (off + 8), readTurn (off + 12)]

/-- `SUBMIT c` (R78). -/
def submitTurns (c : Word) : List Turn := [writeTurn offCmd c]

/-- `WAIT` (R78): STATUS is read until BUSY = 0, `polls` reads falling before the engine's completion. -/
def waitTurns (polls : Nat) : List Turn := List.replicate polls (readTurn offStatus) ++ [.engine, readTurn offStatus]

/-- `WAIT` served by waiting for IRQ (R78): no access is made until the engine has completed. -/
def waitIrqTurns : List Turn := [.engine]

/-- `DO c` expands to `SUBMIT c; WAIT` (R78, 43_host_compositions.md R180). -/
def doTurns (polls : Nat) (c : Word) : List Turn := submitTurns c ++ waitTurns polls

/-- `ENCBLK` expands to `CRYPT` (R78). -/
def encblk : List Instr := [.crypt 0]

/-- `DECBLK` expands to `CRYPT` (R78). -/
def decblk : List Instr := [.crypt 0]

/-- `GINIT12` expands to `GINIT 12` (R78). -/
def ginit12 : List Instr := [.ginit 12]

/-- The byte counts of a string of `n` bytes sent 16 at a time, the last piece shorter; `fuel` bounds the
number of pieces. -/
def pieceLengths : Nat → Nat → List Nat
  | 0, _ => []
  | fuel + 1, n => if n = 0 then [] else min n 16 :: pieceLengths fuel (n - 16)

/-- `GNONCE_ALL n` (R78): `GINIT 0`, then ceil(n/16) GNONCE commands, then `GNONCE_END`. -/
def gnonceAll (n : Nat) : List Instr :=
  .ginit 0 :: (pieceLengths n n).map (fun k => .gnonce (BitVec.ofNat 5 k)) ++ [.gnonceEnd 0]

end Sys2Proof.Machine
end

