-- ==== Sys2Proof/Machine/HostProcedures.lean ====
section
/-! DEFINITION. The host procedures over the block's commands: ECB, CBC, sealAndTag and openAndVerify
(spec/43_host_compositions.md R180 to R187). They are host software, each a sequence of register accesses that
`step` runs; they add no behaviour to the block. `polls` is how many status reads fall before each completion. -/

namespace Sys2Proof.Machine

/-- LP's errors as a host procedure reports them (60_exceptions.md R210). The last stands for the codes LP does
not have: ILLEGAL_CMD, SEQUENCE and NO_KEY. -/
inductive LpError where
  | invalidLength
  | authenticationFailed
  | hardware (code : BitVec 4)
  deriving DecidableEq, Repr

/-- How a host procedure ends: with a result, with an error, or because an access was refused (20_memory.md R53). -/
inductive HostResult (α : Type) where
  | done (a : α) (s : State)
  | failed (e : LpError) (s : State)
  | stopped
  deriving DecidableEq, Repr

/-- Go on with the result of a finished procedure. -/
def HostResult.andThen {α β : Type} (r : HostResult α) (k : α → State → HostResult β) : HostResult β :=
  match r with
  | .done a s => k a s
  | .failed e s => .failed e s
  | .stopped => .stopped

/-- Take the given turns, one step each; `none` where an access is refused. -/
def perform : List Turn → State → Option State
  | [], s => some s
  | t :: ts, s =>
    match step { s with schedule := t :: s.schedule } with
    | .next s' => perform ts s'
    | .fault _ => none
    | .refused _ => none

/-- Accesses made for their effect on the block. -/
def performAll (ts : List Turn) (s : State) : HostResult Unit :=
  match perform ts s with
  | some t => .done () t
  | none => .stopped

/-- The value of the newest read, 0 where nothing has been read. -/
def lastRead (s : State) : Word :=
  match s.reads with
  | r :: _ => r.value
  | [] => 0

/-- The block held by the four newest reads, made at increasing offsets. -/
def lastBlock (s : State) : Block :=
  match s.reads with
  | d :: c :: b :: a :: _ => Quad.toBlock ⟨a.value, b.value, c.value, d.value⟩
  | _ => 0

/-- The LP error of a STATUS word with ERR = 1 (R210). -/
def lpErrorOf (status : Word) : LpError :=
  match (status.extractLsb' 8 4).toNat with
  | 2 => .invalidLength
  | 5 => .authenticationFailed
  | _ => .hardware (status.extractLsb' 8 4)

/-- `DO c`, after which "the host must check STATUS.ERR" (R180). -/
def hostDo (polls : Nat) (i : Instr) (s : State) : HostResult Unit :=
  (performAll (doTurns polls (encode i)) s).andThen fun _ t =>
    if (lastRead t).getLsbD 2 then .failed (lpErrorOf (lastRead t)) t else .done () t

/-- Write DIN and do one command. -/
def hostSend (polls : Nat) (i : Instr) (b : Block) (s : State) : HostResult Unit :=
  (performAll (writeBlockTurns offDin b) s).andThen fun _ t => hostDo polls i t

/-- Write DIN, do one command, and read DOUT. -/
def hostExchange (polls : Nat) (i : Instr) (b : Block) (s : State) : HostResult Block :=
  (hostSend polls i b s).andThen fun _ t =>
    (performAll (readBlockTurns offDout) t).andThen fun _ u => .done (lastBlock u) u

/-- The pieces of a byte string, 16 bytes each and the last one shorter; `fuel` bounds their number. DESIGN CHOICE
for the chunks of sealAndTag and openAndVerify, whose sizes R184 leaves free (notes/assumptions/19.md). -/
def pieces : Nat → List Byte → List (List Byte)
  | 0, _ => []
  | fuel + 1, bs => if bs.isEmpty then [] else bs.take 16 :: pieces fuel (bs.drop 16)

/-- The blocks of a byte string whose length is a multiple of 16. -/
def blocksOf (bs : List Byte) : List Block := (pieces bs.length bs).map packBytes

/-- The bytes of a list of blocks. -/
def bytesOf (bs : List Block) : List Byte := bs.flatMap (takeBytes 16)

/-- The blocks of ECB, each transformed on its own (R181). -/
def ecbBlocks (polls : Nat) : List Block → State → HostResult (List Block)
  | [], s => .done [] s
  | p :: ps, s =>
    (hostExchange polls (.crypt 0) p s).andThen fun c t =>
      (ecbBlocks polls ps t).andThen fun cs u => .done (c :: cs) u

/-- `ecb(data)` (R181); BRK already holds the wanted direction. -/
def ecb (polls : Nat) (data : List Byte) (s : State) : HostResult (List Byte) :=
  if data.length % 16 ≠ 0 then .failed .invalidLength s
  else (ecbBlocks polls (blocksOf data) s).andThen fun cs t => .done (bytesOf cs) t

/-- The blocks of CBC encryption from chaining value `v`, with the last chaining value (R182). -/
def cbcEncryptBlocks (polls : Nat) : Block → List Block → State → HostResult (List Block × Block)
  | v, [], s => .done ([], v) s
  | v, p :: ps, s =>
    (hostExchange polls (.crypt 0) (p ^^^ v) s).andThen fun c t =>
      (cbcEncryptBlocks polls c ps t).andThen fun r u => .done (c :: r.1, r.2) u

/-- `cbcEncrypt(data, iv)`: the output and the updated iv (R182). -/
def cbcEncrypt (polls : Nat) (data : List Byte) (iv : Block) (s : State) : HostResult (List Byte × Block) :=
  if data.length % 16 ≠ 0 then .failed .invalidLength s
  else (cbcEncryptBlocks polls iv (blocksOf data) s).andThen fun r t => .done (bytesOf r.1, r.2) t

/-- The blocks of CBC decryption from chaining value `v`, with the last chaining value (R183). -/
def cbcDecryptBlocks (polls : Nat) : Block → List Block → State → HostResult (List Block × Block)
  | v, [], s => .done ([], v) s
  | v, c :: cs, s =>
    (hostExchange polls (.crypt 0) c s).andThen fun p t =>
      (cbcDecryptBlocks polls c cs t).andThen fun r u => .done ((p ^^^ v) :: r.1, r.2) u

/-- `cbcDecrypt(data, iv)`: the output and the updated iv (R183). -/
def cbcDecrypt (polls : Nat) (data : List Byte) (iv : Block) (s : State) : HostResult (List Byte × Block) :=
  if data.length % 16 ≠ 0 then .failed .invalidLength s
  else (cbcDecryptBlocks polls iv (blocksOf data) s).andThen fun r t => .done (bytesOf r.1, r.2) t

/-- Byte pieces sent one command each, `mk` giving the command for a piece's length (R184 steps 3 and 4). DIN's bytes
above the piece, which the command ignores, are written 0 (notes/assumptions/19.md). -/
def sendPieces (polls : Nat) (mk : BitVec 5 → Instr) : List (List Byte) → State → HostResult Unit
  | [], s => .done () s
  | p :: ps, s =>
    (hostSend polls (mk (BitVec.ofNat 5 p.length)) (packBytes p) s).andThen fun _ t => sendPieces polls mk ps t

/-- Byte pieces sent one command each, `DOUTb[0..n-1]` collected after each (R184 step 5). -/
def exchangePieces (polls : Nat) (mk : BitVec 5 → Instr) : List (List Byte) → State → HostResult (List Byte)
  | [], s => .done [] s
  | p :: ps, s =>
    (hostExchange polls (mk (BitVec.ofNat 5 p.length)) (packBytes p) s).andThen fun b t =>
      (exchangePieces polls mk ps t).andThen fun bs u => .done (takeBytes p.length b ++ bs) u

/-- Write KEY and set up the nonce (R184 steps 2 and 3). -/
def hostSetup (polls : Nat) (key : Block) (nonce : List Byte) (s : State) : HostResult Unit :=
  (performAll (writeBlockTurns offKey key) s).andThen fun _ t =>
    if nonce.length = 12 then hostSend polls (.ginit 12) (packBytes nonce) t
    else
      (hostDo polls (.ginit 0) t).andThen fun _ u =>
        (sendPieces polls .gnonce (pieces nonce.length nonce) u).andThen fun _ v => hostDo polls (.gnonceEnd 0) v

/-- `sealAndTag(key, nonce, aad, plain, tagLen)`: the ciphertext and the tag (R184, R186). "Chunk sizes are free": that
they are those of `pieces` is the model's choice (notes/assumptions/19.md). -/
def sealAndTag (polls : Nat) (key : Block) (nonce aad plain : List Byte) (tagLen : Nat) (s : State) :
    HostResult (List Byte × List Byte) :=
  if tagLen < 1 ∨ 16 < tagLen then .failed .invalidLength s
  else
    (hostSetup polls key nonce s).andThen fun _ t =>
    (sendPieces polls .gaad (pieces aad.length aad) t).andThen fun _ u =>
    (exchangePieces polls .genc (pieces plain.length plain) u).andThen fun c v =>
    (hostDo polls (.gfinish (BitVec.ofNat 5 tagLen)) v).andThen fun _ w =>
    (performAll (readBlockTurns offDout) w).andThen fun _ x => .done (c, takeBytes tagLen (lastBlock x)) x

/-- `openAndVerify(key, nonce, aad, cipher, tag)`: LP's error, if any, and the output buffer, which is fully
zeroed on AuthenticationFailed (R185, R187). The chunk sizes are the model's choice (notes/assumptions/19.md). -/
def openAndVerify (polls : Nat) (key : Block) (nonce aad text tag : List Byte) (s : State) :
    HostResult (Option LpError × List Byte) :=
  if tag.length < 1 ∨ 16 < tag.length then .failed .invalidLength s
  else
    (hostSetup polls key nonce s).andThen fun _ t =>
    (sendPieces polls .gaad (pieces aad.length aad) t).andThen fun _ u =>
    (exchangePieces polls .gdec (pieces text.length text) u).andThen fun p v =>
    (performAll (writeBlockTurns offAux (packBytes tag)) v).andThen fun _ w =>
    match hostDo polls (.gverify (BitVec.ofNat 5 tag.length)) w with
    | .done _ x =>
      if (lastRead x).getLsbD 3 then .done (none, p) x
      else .done (some .authenticationFailed, List.replicate p.length 0) x
    | .failed .authenticationFailed x => .done (some .authenticationFailed, List.replicate p.length 0) x
    | .failed .invalidLength x => .failed .invalidLength x
    | .failed (.hardware c) x => .failed (.hardware c) x
    | .stopped => .stopped

end Sys2Proof.Machine
end

