-- ==== Sys2Proof/Safety.lean ====
section
/-! DEFINITION. The terms in which claims about the machine are stated: legal accesses, the end of a run, what a
command keeps, the invariants of reachable states, and the spec's tables and closed forms written out a second
time, apart from the functions that execute. -/

namespace Sys2Proof.Machine

/-! ## Turns, accesses and runs -/

/-- The accesses the block defines: 32 bits wide, inside the window, at a multiple of 4 (20_memory.md R50, R53). -/
def Access.legal (a : Access) : Prop :=
  Config.baseAddr ≤ a.addr ∧ a.addr < Config.baseAddr + 256 ∧ a.width = .bits32 ∧ (a.addr - Config.baseAddr) % 4 = 0

/-- A turn that no rule refuses. -/
def Turn.legal : Turn → Prop
  | .host a => a.legal
  | .engine => True
  | .reset => True

/-- A machine that is safe to run: no scheduled access is one the block refuses. -/
def State.safe (s : State) : Prop := ∀ a, Turn.host a ∈ s.schedule → a.legal

/-- The turns that are an access of the host program. -/
def Turn.isHost : Turn → Bool
  | .host _ => true
  | .engine => false
  | .reset => false

/-- The host program has executed its last access: no turn left is the host's. -/
def State.hostDone (s : State) : Bool := s.schedule.all fun t => !t.isHost

/-- The end of a run (70_reset_and_hazards.md R238): "the host program has executed its last access and BUSY = 0".
Turns of the engine or of the reset input may be left. -/
def State.ended (s : State) : Prop := s.hostDone = true ∧ s.dev.busy = false

/-- The run from `s` ends at `t`, the first state that is an end (R238): a reset input still scheduled there comes
after the end, and does not touch the result. -/
inductive EndsAt : State → State → Prop where
  | here {s : State} : s.ended → EndsAt s s
  | later {s u t : State} : ¬ s.ended → step s = .next u → EndsAt u t → EndsAt s t

/-- The observed result of a run that ends at `t` (R238): the block's state, and whatever the host read. -/
def State.observed (t : State) : Device × List ReadRecord := (t.dev, t.reads)

/-- The machine with one more turn to be taken first. -/
def State.before (t : Turn) (s : State) : State := { s with schedule := t :: s.schedule }

/-- `EngineNext s r`: the engine's step is the next one at `s`, and `r` is `s` without the engine's turn. -/
def EngineNext (s r : State) : Prop :=
  s.dev.busy = true ∧ ((s.schedule = [] ∧ r = s) ∨ s = r.before .engine)

/-- `Ran i s r`: the next step at `s` is the engine's, it decodes the latched word as `i`, and `r` is `s` without
the engine's turn. -/
def Ran (i : Instr) (s r : State) : Prop := EngineNext s r ∧ decode s.dev.pcmd = .ok i

/-- The machine with DIN holding the block `b`. -/
def State.withDin (b : Block) (s : State) : State := { s with dev := { s.dev with din := Quad.ofBlock b } }

/-! ## What a command keeps -/

/-- The environment's part of the state is unchanged. -/
structure KeepsEnv (s t : State) : Prop where
  schedule : t.schedule = s.schedule
  reads : t.reads = s.reads
  freeCount : t.freeCount = s.freeCount

/-- The registers that no command writes are unchanged (10_state.md R25, R32, R34, R35, R44). -/
structure KeepsInputs (d e : Device) : Prop where
  irqEn : e.irqEn = d.irqEn
  overrun : e.overrun = d.overrun
  key : e.key = d.key
  din : e.din = d.din
  aux : e.aux = d.aux
  pcmd : e.pcmd = d.pcmd

/-- The block commands' key state is unchanged (10_state.md R31, R38). -/
structure KeepsKeys (d e : Device) : Prop where
  brk : e.brk = d.brk
  keyValid : e.keyValid = d.keyValid
  keyDir : e.keyDir = d.keyDir

/-- The completion fields after a command that succeeded (60_exceptions.md R201). -/
structure Succeeded (d : Device) : Prop where
  busy : d.busy = false
  done : d.done = true
  err : d.err = false
  errCode : d.errCode = .none

/-- The completion fields after a command that raised `code` (60_exceptions.md R201). -/
structure Raised (code : ErrCode) (d : Device) : Prop where
  busy : d.busy = false
  done : d.done = true
  err : d.err = true
  errCode : d.errCode = code

/-- `t` is `s` but for the completion fields (60_exceptions.md R203). -/
structure OnlyCompletion (s t : State) : Prop where
  env : KeepsEnv s t
  inputs : KeepsInputs s.dev t.dev
  keys : KeepsKeys s.dev t.dev
  authOk : t.dev.authOk = s.dev.authOk
  dout : t.dev.dout = s.dev.dout
  gcm : t.dev.gcm = s.dev.gcm

/-- The parts of a session that only GINIT and GNONCE_END write (10_state.md R39, R40). -/
structure KeepsSetup (g k : Session) : Prop where
  grk : k.grk = g.grk
  h : k.h = g.h
  j0 : k.j0 = g.j0
  nlen : k.nlen = g.nlen

/-- `r` is the register group `q` with its word `k` replaced by `v` and its other words kept. -/
structure ReplacesWord (q r : Quad) (k : Nat) (v : Word) : Prop where
  new : r.get k = v
  others : ∀ j, j < 4 → j ≠ k → r.get j = q.get j

/-! ## The spec's tables -/

/-- The phases in which a command is allowed: the rows of 42_gcm.md R141. Block commands: every phase. -/
def allowedPhases : Instr → List Phase
  | .kexpE _ => [.idle, .nonce, .init, .aad, .dataEnc, .dataDec, .finished]
  | .kexpD _ => [.idle, .nonce, .init, .aad, .dataEnc, .dataDec, .finished]
  | .crypt _ => [.idle, .nonce, .init, .aad, .dataEnc, .dataDec, .finished]
  | .round _ => [.idle, .nonce, .init, .aad, .dataEnc, .dataDec, .finished]
  | .gmul _ => [.idle, .nonce, .init, .aad, .dataEnc, .dataDec, .finished]
  | .ginit _ => [.idle, .nonce, .init, .aad, .dataEnc, .dataDec, .finished]
  | .gnonce _ => [.nonce]
  | .gnonceEnd _ => [.nonce]
  | .gaad _ => [.init, .aad]
  | .genc _ => [.init, .aad, .dataEnc]
  | .gdec _ => [.init, .aad, .dataDec]
  | .gfinish _ => [.init, .aad, .dataEnc, .dataDec]
  | .gverify _ => [.init, .aad, .dataEnc, .dataDec]

/-- The phase after a successful command: the last column of 42_gcm.md R141. Block commands change no phase. -/
def phaseAfter : Instr → Phase → Phase
  | .kexpE _, p => p
  | .kexpD _, p => p
  | .crypt _, p => p
  | .round _, p => p
  | .gmul _, p => p
  | .ginit n, _ => if n = 12 then .init else .nonce
  | .gnonce _, _ => .nonce
  | .gnonceEnd _, _ => .init
  | .gaad _, _ => .aad
  | .genc _, _ => .dataEnc
  | .gdec _, _ => .dataDec
  | .gfinish _, _ => .finished
  | .gverify _, _ => .finished

/-- The GCM commands (42_gcm.md R141). -/
def isGcm : Instr → Bool
  | .kexpE _ => false
  | .kexpD _ => false
  | .crypt _ => false
  | .round _ => false
  | .gmul _ => false
  | .ginit _ => true
  | .gnonce _ => true
  | .gnonceEnd _ => true
  | .gaad _ => true
  | .genc _ => true
  | .gdec _ => true
  | .gfinish _ => true
  | .gverify _ => true

/-- S(0x00), S(0x01), ..., S(0xff): the table of 40_cipher_core.md R100, a line for each of its rows. -/
def tableSbox : List Byte :=
  [0xd6, 0x90, 0xe9, 0xfe, 0xcc, 0xe1, 0x3d, 0xb7, 0x16, 0xb6, 0x14, 0xc2, 0x28, 0xfb, 0x2c, 0x05]
  ++ [0x2b, 0x67, 0x9a, 0x76, 0x2a, 0xbe, 0x04, 0xc3, 0xaa, 0x44, 0x13, 0x26, 0x49, 0x86, 0x06, 0x99]
  ++ [0x9c, 0x42, 0x50, 0xf4, 0x91, 0xef, 0x98, 0x7a, 0x33, 0x54, 0x0b, 0x43, 0xed, 0xcf, 0xac, 0x62]
  ++ [0xe4, 0xb3, 0x1c, 0xa9, 0xc9, 0x08, 0xe8, 0x95, 0x80, 0xdf, 0x94, 0xfa, 0x75, 0x8f, 0x3f, 0xa6]
  ++ [0x47, 0x07, 0xa7, 0xfc, 0xf3, 0x73, 0x17, 0xba, 0x83, 0x59, 0x3c, 0x19, 0xe6, 0x85, 0x4f, 0xa8]
  ++ [0x68, 0x6b, 0x81, 0xb2, 0x71, 0x64, 0xda, 0x8b, 0xf8, 0xeb, 0x0f, 0x4b, 0x70, 0x56, 0x9d, 0x35]
  ++ [0x1e, 0x24, 0x0e, 0x5e, 0x63, 0x58, 0xd1, 0xa2, 0x25, 0x22, 0x7c, 0x3b, 0x01, 0x21, 0x78, 0x87]
  ++ [0xd4, 0x00, 0x46, 0x57, 0x9f, 0xd3, 0x27, 0x52, 0x4c, 0x36, 0x02, 0xe7, 0xa0, 0xc4, 0xc8, 0x9e]
  ++ [0xea, 0xbf, 0x8a, 0xd2, 0x40, 0xc7, 0x38, 0xb5, 0xa3, 0xf7, 0xf2, 0xce, 0xf9, 0x61, 0x15, 0xa1]
  ++ [0xe0, 0xae, 0x5d, 0xa4, 0x9b, 0x34, 0x1a, 0x55, 0xad, 0x93, 0x32, 0x30, 0xf5, 0x8c, 0xb1, 0xe3]
  ++ [0x1d, 0xf6, 0xe2, 0x2e, 0x82, 0x66, 0xca, 0x60, 0xc0, 0x29, 0x23, 0xab, 0x0d, 0x53, 0x4e, 0x6f]
  ++ [0xd5, 0xdb, 0x37, 0x45, 0xde, 0xfd, 0x8e, 0x2f, 0x03, 0xff, 0x6a, 0x72, 0x6d, 0x6c, 0x5b, 0x51]
  ++ [0x8d, 0x1b, 0xaf, 0x92, 0xbb, 0xdd, 0xbc, 0x7f, 0x11, 0xd9, 0x5c, 0x41, 0x1f, 0x10, 0x5a, 0xd8]
  ++ [0x0a, 0xc1, 0x31, 0x88, 0xa5, 0xcd, 0x7b, 0xbd, 0x2d, 0x74, 0xd0, 0x12, 0xb8, 0xe5, 0xb4, 0xb0]
  ++ [0x89, 0x69, 0x97, 0x4a, 0x0c, 0x96, 0x77, 0x7e, 0x65, 0xb9, 0xf1, 0x09, 0xc5, 0x6e, 0xc6, 0x84]
  ++ [0x18, 0xf0, 0x7d, 0xec, 0x3a, 0xdc, 0x4d, 0x20, 0x79, 0xee, 0x5f, 0x3e, 0xd7, 0xcb, 0x39, 0x48]

/-- FK[0..3] (40_cipher_core.md R106). -/
def tableFK : List Word := [0xA3B1BAC6, 0x56AA3350, 0x677D9197, 0xB27022DC]

/-- CK[0..31], the values of the table of 40_cipher_core.md R107. -/
def tableCK : List Word :=
  [0x00070E15, 0x1C232A31, 0x383F464D, 0x545B6269, 0x70777E85, 0x8C939AA1, 0xA8AFB6BD, 0xC4CBD2D9]
  ++ [0xE0E7EEF5, 0xFC030A11, 0x181F262D, 0x343B4249, 0x50575E65, 0x6C737A81, 0x888F969D, 0xA4ABB2B9]
  ++ [0xC0C7CED5, 0xDCE3EAF1, 0xF8FF060D, 0x141B2229, 0x30373E45, 0x4C535A61, 0x686F767D, 0x848B9299]
  ++ [0xA0A7AEB5, 0xBCC3CAD1, 0xD8DFE6ED, 0xF4FB0209, 0x10171E25, 0x2C333A41, 0x484F565D, 0x646B7279]

/-- The key recurrence of 40_cipher_core.md R108, as a property of a sequence of words. -/
structure KeySequence (mk : Block) (k : Nat → Word) : Prop where
  first : ∀ i, i < 4 → k i = be32 mk i ^^^ tableFK.getD i 0
  next : ∀ i, i < 32 → k (i + 4) = k i ^^^ keyT (k (i + 1) ^^^ k (i + 2) ^^^ k (i + 3) ^^^ tableCK.getD i 0)

/-- The subscripted form of the block transform of 40_cipher_core.md R109, as a property of a sequence of words. -/
structure RoundSequence (rk : RoundKeys) (b : Block) (x : Nat → Word) : Prop where
  first : ∀ i, i < 4 → x i = be32 b i
  next : ∀ i (h : i < 32), x (i + 4) = x i ^^^ roundT (x (i + 1) ^^^ x (i + 2) ^^^ x (i + 3) ^^^ rk[i])

/-! ## Closed forms of the GCM steps -/

/-- The table of precombined substitution and rotation values for the byte at bits 31-8k:24-8k
(40_cipher_core.md R114). -/
def combinedTable (k : Nat) (a : Byte) : Word := linL ((sbox a).setWidth 32 <<< (24 - 8 * k))

/-- A byte string followed by the zero bytes that bring its length to a multiple of 16 (42_gcm.md R152). -/
def pad16 (bs : List Byte) : List Byte := bs ++ List.replicate ((16 - bs.length % 16) % 16) 0

/-- The string whose GHASH forms the tag (42_gcm.md R152). -/
def hashedString (a c : List Byte) : List Byte :=
  pad16 a ++ pad16 c ++ takeBytes 16 (be64Pair (BitVec.ofNat 64 (8 * a.length)) (BitVec.ofNat 64 (8 * c.length)))

/-- The bytes not yet folded. -/
def Session.tail (g : Session) : List Byte := takeBytes g.plen g.pbuf

/-- `k` is `g` after absorbing at most 16 bytes, in closed form: the tail grows, or one block is folded. -/
structure AbsorbedAs (g k : Session) (bs : List Byte) : Prop where
  short : g.plen.val + bs.length < 16 →
    k.acc = g.acc ∧ k.pbuf = packBytes (g.tail ++ bs) ∧ k.plen.val = g.plen.val + bs.length
  full : 16 ≤ g.plen.val + bs.length →
    k.acc = gfMul (g.acc ^^^ packBytes ((g.tail ++ bs).take 16)) g.h
      ∧ k.pbuf = packBytes ((g.tail ++ bs).drop 16) ∧ k.plen.val = g.plen.val + bs.length - 16

/-- The keystream byte that the `j`-th text byte of a command uses: the rest of KS first, then the next counter's
block (42_gcm.md R146). -/
def keystreamByte (g : Session) (j : Nat) : Byte :=
  if g.plen = 0 ∨ 16 ≤ g.plen.val + j then byteAt (cipher g.grk (inc32 g.ctr)) ((g.plen.val + j) % 16)
  else byteAt g.ks (g.plen.val + j)

/-- Whether a command of `n` text bytes starts a new 16-byte block of the text (42_gcm.md R146). -/
def startsBlock (g : Session) (n : Nat) : Prop := (g.plen = 0 ∧ 0 < n) ∨ 16 < g.plen.val + n

/-- The accumulator after the carried tail is folded zero-padded, if there is one (41_ghash.md R135). -/
def flushedAcc (g : Session) : Block := if g.plen = 0 then g.acc else gfMul (g.acc ^^^ g.pbuf) g.h

/-- S, the accumulator after the final length block (42_gcm.md R153, R155). -/
def finalAcc (g : Session) : Block := gfMul (flushedAcc g ^^^ (g.alen ++ g.clen)) g.h

/-- TAG (42_gcm.md R153). -/
def tagOf (g : Session) : Block := cipher g.grk g.j0 ^^^ finalAcc g

/-- Pieces of a byte string sent one command each, with what each left in `DOUTb[0..LEN-1]`. -/
def sendChunks (mk : BitVec 5 → Instr) : List (BitVec 5 × Block) → State → Option (State × List Byte)
  | [], s => some (s, [])
  | (n, b) :: cs, s =>
    match exec (mk n) (s.withDin b) with
    | .next t => (sendChunks mk cs t).map fun r => (r.1, takeBytes n.toNat t.dev.dout.toBlock ++ r.2)
    | .fault _ => none
    | .refused _ => none

/-- The byte string that pieces stand for. -/
def chunkBytes (cs : List (BitVec 5 × Block)) : List Byte := cs.flatMap fun c => takeBytes c.1.toNat c.2

/-! ## Invariants -/

/-- "Invariant: `PBUF[j] = 0` for every j with PLEN ≤ j ≤ 15" (10_state.md R42). -/
def Session.CarryInv (g : Session) : Prop := ∀ j, g.plen.val ≤ j → j ≤ 15 → byteAt g.pbuf j = 0

/-- What the phase says of the session (10_state.md R36, R40 to R43; 42_gcm.md R142 to R153). -/
structure Session.PhaseInv (g : Session) : Prop where
  idle : g.phase = .idle → g = Session.reset
  subkey : g.phase ≠ .idle → g.h = cipher g.grk 0
  bits : g.alen.toNat % 8 = 0 ∧ g.clen.toNat % 8 = 0 ∧ g.nlen.toNat % 8 = 0
  nonce : g.phase = .nonce →
    g.plen.val = g.nlen.toNat / 8 % 16 ∧ g.j0 = 0 ∧ g.ctr = 0 ∧ g.ks = 0 ∧ g.alen = 0 ∧ g.clen = 0
  init : g.phase = .init → g.plen = 0 ∧ g.pbuf = 0 ∧ g.acc = 0 ∧ g.ctr = g.j0 ∧ g.ks = 0 ∧ g.alen = 0 ∧ g.clen = 0
  aad : g.phase = .aad → g.plen.val = g.alen.toNat / 8 % 16 ∧ g.ctr = g.j0 ∧ g.ks = 0 ∧ g.clen = 0
  data : g.phase = .dataEnc ∨ g.phase = .dataDec →
    g.plen.val = g.clen.toNat / 8 % 16 ∧ (g.plen ≠ 0 → g.ks = cipher g.grk g.ctr)
  finished : g.phase = .finished → g.plen = 0

/-- How far the counter has moved: one increment per 16-byte block of text begun (42_gcm.md R146). -/
def Session.CounterInv (g : Session) : Prop :=
  g.phase ≠ .idle → g.phase ≠ .nonce → g.ctr = inc32^[(g.clen.toNat / 8 + 15) / 16] g.j0

/-- What STATUS's flags say of each other (10_state.md R27 to R31, R38; 60_exceptions.md R200, R201). -/
structure Device.StatusInv (d : Device) : Prop where
  err_iff : d.err = true ↔ d.errCode ≠ .none
  busy : d.busy = true → d.done = false ∧ d.err = false ∧ d.errCode = .none ∧ d.authOk = false
  authOk : d.authOk = true → d.errCode = .none ∧ d.gcm.phase = .finished ∧ d.dout = Quad.zero
  noKey : d.keyValid = false → d.keyDir = false ∧ d.brk = RoundKeys.zero

/-- What a bus read can show of the block (10_state.md R22, R34, R37; 92_eei_decisions.md D6). -/
structure SameVisible (d e : Device) : Prop where
  irqEn : e.irqEn = d.irqEn
  busy : e.busy = d.busy
  done : e.done = d.done
  err : e.err = d.err
  errCode : e.errCode = d.errCode
  authOk : e.authOk = d.authOk
  keyValid : e.keyValid = d.keyValid
  keyDir : e.keyDir = d.keyDir
  overrun : e.overrun = d.overrun
  phase : e.gcm.phase = d.gcm.phase
  din : e.din = d.din
  aux : e.aux = d.aux
  dout : e.dout = d.dout
  alen : e.gcm.alen = d.gcm.alen
  clen : e.gcm.clen = d.gcm.clen

end Sys2Proof.Machine
end

