-- ==== Sys2Proof/Certificates/Slice0/Obligations.lean ====
section
/-! DEFINITION. The statements put to the provers. Each docstring names the rules of spec/ it formalises. Where the
statement uses a table or closed form of Safety.lean, that text was written from the spec apart from the function
that executes. -/

open Sys2Proof Sys2Proof.Machine

/-! ## Encoding -/

/-- Every command's word decodes to it and to nothing else, with LEN at every value (30_encoding.md R70, R72); and a
word selects a command exactly when `(word & 0xFFFFE0FF) == OP`, its LEN being bits 12:8 (R73, and R76, marked derived
there). -/
def Obligations.DecodeEncodeAgree : Prop :=
  ∀ (w : Word) (i : Instr), (decode w = .ok i ↔ encode i = w)
    ∧ (decode w = .ok i ↔ (w &&& 0xFFFFE0FF = (opcode i).setWidth 32 ∧ i.len = w.extractLsb' 8 5))

/-- Words written out from R70, R72 and R76 decode to the commands they stand for; words of R75 to none. -/
def Obligations.WrittenOutWordsDecode : Prop :=
  decode 0x00000001 = .ok (.kexpE 0) ∧ decode 0x00000002 = .ok (.kexpD 0) ∧ decode 0x00000003 = .ok (.crypt 0)
    ∧ decode 0x00000004 = .ok (.round 0) ∧ decode 0x00000005 = .ok (.gmul 0) ∧ decode 0x00000C10 = .ok (.ginit 12)
    ∧ decode 0x00001011 = .ok (.gnonce 16) ∧ decode 0x00000012 = .ok (.gnonceEnd 0) ∧ decode 0x00001013 = .ok (.gaad 16)
    ∧ decode 0x00000514 = .ok (.genc 5) ∧ decode 0x00000515 = .ok (.gdec 5) ∧ decode 0x00001016 = .ok (.gfinish 16)
    ∧ decode 0x00000417 = .ok (.gverify 4) ∧ decode 0x00002003 = .error .reservedBits
    ∧ decode 0x00000006 = .error .undefinedOp

/-! ## The engine's step -/

/-- When the engine's step is next and the latched word decodes to `i`, the step is `exec i` on the state without
the engine's turn (60_exceptions.md R201; the turn is the model's own, notes/assumptions/1.md). -/
def Obligations.StepRunsTheDecodedCommand : Prop :=
  ∀ (i : Instr) (s r : State), Ran i s r → step s = exec i r

/-- Every accepted command completes when the engine's step is taken: BUSY = 0, DONE = 1, and ERR and ERRCODE agree
(R201, R29). The environment and the input registers are unchanged. -/
def Obligations.EveryAcceptedCommandCompletes : Prop :=
  ∀ s r : State, EngineNext s r → ∃ t, step s = .next t ∧ t.dev.busy = false ∧ t.dev.done = true
    ∧ (t.dev.err = true ↔ t.dev.errCode ≠ .none) ∧ KeepsEnv r t ∧ KeepsInputs s.dev t.dev

/-- ILLEGAL_CMD (R205, R203): raised when `PCMD[31:13] ≠ 0` or OP is not one of 0x01 to 0x05 or 0x10 to 0x17, and
by no other word; it changes only the completion fields. -/
def Obligations.IllegalCommandRaised : Prop :=
  ∀ s r t : State, EngineNext s r → step s = .next t →
    ((t.dev.errCode = .illegalCmd ↔
        (s.dev.pcmd >>> 13 ≠ 0 ∨ ¬ (let op := s.dev.pcmd.toNat % 256; (1 ≤ op ∧ op ≤ 5) ∨ (0x10 ≤ op ∧ op ≤ 0x17))))
      ∧ (t.dev.errCode = .illegalCmd → OnlyCompletion r t ∧ Raised .illegalCmd t.dev))

/-- INVALID_LENGTH (R206): raised exactly when LEN is outside the command's legal set, in every phase (R204). -/
def Obligations.InvalidLengthRaised : Prop :=
  ∀ (i : Instr) (s : State), ∃ t, exec i s = .next t
    ∧ (t.dev.errCode = .invalidLength ↔ i.wf = false)
    ∧ (i.wf = false → OnlyCompletion s t ∧ Raised .invalidLength t.dev)

/-- SEQUENCE (R207): raised exactly when the LEN is legal and the table of 42_gcm.md R141 does not allow the command
in the phase. -/
def Obligations.SequenceRaised : Prop :=
  ∀ (i : Instr) (s : State), ∃ t, exec i s = .next t
    ∧ (t.dev.errCode = .sequence ↔ (i.wf = true ∧ s.dev.gcm.phase ∉ allowedPhases i))
    ∧ (i.wf = true → s.dev.gcm.phase ∉ allowedPhases i → OnlyCompletion s t ∧ Raised .sequence t.dev)

/-- NO_KEY (R208): raised by CRYPT, in every phase, exactly when KEY_VALID = 0, and by no other command. -/
def Obligations.NoKeyRaised : Prop :=
  ∀ (i : Instr) (s : State), ∃ t, exec i s = .next t
    ∧ (t.dev.errCode = .noKey ↔ (i = .crypt 0 ∧ s.dev.keyValid = false))
    ∧ (t.dev.errCode = .noKey → OnlyCompletion s t ∧ Raised .noKey t.dev)

/-- AUTH_FAIL (R209): raised by GVERIFY exactly when some j below LEN has `TAG[j] ≠ AUXb[j]`; DOUT = 0 and
GPHASE = FINISHED stand. AUTH_OK is left as it is, which is the model's reading of "AUTH_OK stays 0" (DEDUCED,
notes/assumptions/16.md). -/
def Obligations.AuthFailRaised : Prop :=
  ∀ (i : Instr) (s t : State), exec i s = .next t →
    ((t.dev.errCode = .authFail ↔
        ∃ n : BitVec 5, i = .gverify n ∧ i.wf = true ∧ s.dev.gcm.phase ∈ allowedPhases i
          ∧ ∃ j, j < n.toNat ∧ byteAt (tagOf s.dev.gcm) j ≠ byteAt s.dev.aux.toBlock j)
      ∧ (t.dev.errCode = .authFail →
          t.dev.dout = Quad.zero ∧ t.dev.gcm.phase = .finished ∧ t.dev.authOk = s.dev.authOk ∧ Raised .authFail t.dev))

/-! ## Cipher core -/

/-- KEXP_E and KEXP_D complete in every state, load K[4..35] or its reverse into BRK, and set KEY_VALID and KEY_DIR;
DOUT, AUTH_OK and the session are unchanged (R108, R110, R111). -/
def Obligations.KeyExpansionCommandsComplete : Prop :=
  ∀ (s : State) (k : Nat → Word), KeySequence s.dev.key.toBlock k →
    (∃ t, exec (.kexpE 0) s = .next t ∧ Succeeded t.dev ∧ (∀ i (h : i < 32), t.dev.brk[i] = k (i + 4))
      ∧ t.dev.keyValid = true ∧ t.dev.keyDir = false
      ∧ KeepsEnv s t ∧ KeepsInputs s.dev t.dev ∧ t.dev.authOk = s.dev.authOk ∧ t.dev.dout = s.dev.dout
      ∧ t.dev.gcm = s.dev.gcm)
    ∧ (∃ t, exec (.kexpD 0) s = .next t ∧ Succeeded t.dev ∧ (∀ i (h : i < 32), t.dev.brk[i] = k (35 - i))
      ∧ t.dev.keyValid = true ∧ t.dev.keyDir = true
      ∧ KeepsEnv s t ∧ KeepsInputs s.dev t.dev ∧ t.dev.authOk = s.dev.authOk ∧ t.dev.dout = s.dev.dout
      ∧ t.dev.gcm = s.dev.gcm)

/-- CRYPT completes whenever KEY_VALID = 1 and writes DOUT from the rounds on DIN with BRK; nothing else but the
completion fields changes (R109, R112). -/
def Obligations.CryptCompletes : Prop :=
  ∀ (s : State) (x : Nat → Word), s.dev.keyValid = true → RoundSequence s.dev.brk s.dev.din.toBlock x →
    ∃ t, exec (.crypt 0) s = .next t ∧ Succeeded t.dev ∧ t.dev.dout = ⟨x 35, x 34, x 33, x 32⟩
      ∧ KeepsEnv s t ∧ KeepsInputs s.dev t.dev ∧ KeepsKeys s.dev t.dev ∧ t.dev.authOk = s.dev.authOk
      ∧ t.dev.gcm = s.dev.gcm

/-- ROUND completes in every state, KEY_VALID or not: `DOUTb = unBE32(X1, X2, X3, X0 ⊕ T(X1 ⊕ X2 ⊕ X3 ⊕ AUX0))`;
nothing else but the completion fields changes (R113). -/
def Obligations.RoundCompletes : Prop :=
  ∀ s : State, ∃ t, exec (.round 0) s = .next t ∧ Succeeded t.dev
    ∧ (let b := s.dev.din.toBlock
       t.dev.dout.toBlock = be32 b 1 ++ be32 b 2 ++ be32 b 3
         ++ (be32 b 0 ^^^ roundT (be32 b 1 ^^^ be32 b 2 ^^^ be32 b 3 ^^^ s.dev.aux.get 0)))
    ∧ KeepsEnv s t ∧ KeepsInputs s.dev t.dev ∧ KeepsKeys s.dev t.dev ∧ t.dev.authOk = s.dev.authOk
    ∧ t.dev.gcm = s.dev.gcm

/-- The linear transforms bit by bit: the rotations of L by 2, 10, 18, 24 and of L' by 13, 23 are to the left (R102,
R103). -/
def Obligations.LinearTransformsRotateLeft : Prop :=
  ∀ (w : Word) (i : Nat), i < 32 →
    (linL w).getLsbD i = (w.getLsbD i ^^ w.getLsbD ((i + 30) % 32) ^^ w.getLsbD ((i + 22) % 32)
      ^^ w.getLsbD ((i + 14) % 32) ^^ w.getLsbD ((i + 8) % 32))
    ∧ (linK w).getLsbD i = (w.getLsbD i ^^ w.getLsbD ((i + 19) % 32) ^^ w.getLsbD ((i + 9) % 32))

/-- The S-box is the table of R100, a permutation of the bytes; and a table-driven datapath gives the same T:
`T(x) = T0[a0] ⊕ T1[a1] ⊕ T2[a2] ⊕ T3[a3]` (R114; it and the permutation are marked derived there). -/
def Obligations.TableDrivenRoundAgrees : Prop :=
  (∀ a : Byte, sbox a = tableSbox.getD a.toNat 0) ∧ Function.Bijective sbox
  ∧ ∀ a0 a1 a2 a3 : Byte, roundT (a0 ++ a1 ++ a2 ++ a3)
    = combinedTable 0 a0 ^^^ combinedTable 1 a1 ^^^ combinedTable 2 a2 ^^^ combinedTable 3 a3

/-- Round trip (R112): expanding a key for encryption, CRYPT, expanding the same key for decryption and CRYPT of the
result give back the block, in every state of the block and whatever else it holds. -/
def Obligations.DecryptionUndoesEncryption : Prop :=
  ∀ (s a b c d : State), exec (.kexpE 0) s = .next a → exec (.crypt 0) a = .next b → exec (.kexpD 0) b = .next c →
    exec (.crypt 0) { c with dev := { c.dev with din := b.dev.dout } } = .next d → d.dev.dout = s.dev.din

/-! ## GF(2^128) and GHASH -/

/-- The field element of 41_ghash.md R130: coefficient x_i is bit `7 - (i mod 8)` of byte `i div 8`. -/
noncomputable def Sys2Proof.Machine.toPoly (b : Block) : Polynomial (ZMod 2) :=
  ∑ i ∈ Finset.range 128, if (byteAt b (i / 8)).getLsbD (7 - i % 8) then Polynomial.X ^ i else 0

/-- `x^128 + x^7 + x^2 + x + 1` (41_ghash.md R130). -/
noncomputable def Sys2Proof.Machine.gfModulus : Polynomial (ZMod 2) :=
  Polynomial.X ^ 128 + Polynomial.X ^ 7 + Polynomial.X ^ 2 + Polynomial.X + 1

/-- `GFMul` is multiplication of polynomials over GF(2) modulo x^128 + x^7 + x^2 + x + 1, in the bit numbering of
R130 (R130, R131). -/
def Obligations.GfMulIsPolynomialMultiplication : Prop :=
  ∀ x y : Block, gfModulus ∣ toPoly x * toPoly y - toPoly (gfMul x y)

/-- The laws of `•` (R132, marked derived there). -/
def Obligations.GfMulLaws : Prop :=
  ∀ x y z : Block, gfMul x y = gfMul y x ∧ gfMul (gfMul x y) z = gfMul x (gfMul y z)
    ∧ gfMul x (y ^^^ z) = gfMul x y ^^^ gfMul x z ∧ gfMul (x ^^^ y) z = gfMul x z ^^^ gfMul y z
    ∧ gfMul 0 y = 0 ∧ gfMul 0x80000000000000000000000000000000 y = y
    ∧ gfMul 0x40000000000000000000000000000000 0x00000000000000000000000000000001
        = 0xe1000000000000000000000000000000

/-- GMUL completes in every state: DOUT is the product of DIN and AUX, 0 if either is 0, and AUX if DIN is the
polynomial 1; nothing else but the completion fields changes (R137). -/
def Obligations.GmulCompletes : Prop :=
  ∀ s : State, ∃ t, exec (.gmul 0) s = .next t ∧ Succeeded t.dev
    ∧ t.dev.dout.toBlock = gfMul s.dev.din.toBlock s.dev.aux.toBlock
    ∧ ((s.dev.din = Quad.zero ∨ s.dev.aux = Quad.zero) → t.dev.dout = Quad.zero)
    ∧ (s.dev.din = ⟨0x80000000, 0, 0, 0⟩ → t.dev.dout = s.dev.aux)
    ∧ KeepsEnv s t ∧ KeepsInputs s.dev t.dev ∧ KeepsKeys s.dev t.dev ∧ t.dev.authOk = s.dev.authOk
    ∧ t.dev.gcm = s.dev.gcm

/-- Fold, Absorb and Flush in closed form (R133, R134, R135): absorbing up to 16 bytes grows the tail or folds one
block, and flushing folds the zero-padded tail if there is one. -/
def Obligations.AbsorbAndFlushClosedForm : Prop :=
  ∀ (g : Session) (bs : List Byte), g.CarryInv →
    (bs.length ≤ 16 → AbsorbedAs g (absorbAll g bs) bs)
    ∧ (flush g).acc = flushedAcc g ∧ (flush g).pbuf = 0 ∧ (flush g).plen = 0

/-- `GHASH_H(M)` is the fold of M cut into 16-byte blocks, the last one zero-padded; 0 for an empty M (R136, marked
derived there). -/
def Obligations.GhashFoldsZeroPaddedBlocks : Prop :=
  ∀ (h : Block) (m : List Byte),
    ghash h m = ((pieces m.length m).map packBytes).foldl (fun a b => gfMul (a ^^^ b) h) 0

/-! ## GCM commands -/

/-- `inc32` changes only bytes 12..15, adding 1 modulo 2^32; k increments add k, and 2^32 of them give back the
block (42_gcm.md R145, R160). -/
def Obligations.CounterIncrementWraps : Prop :=
  ∀ (c : Block) (k : Nat), (∀ j, j < 12 → byteAt (inc32^[k] c) j = byteAt c j)
    ∧ be32 (inc32^[k] c) 3 = be32 c 3 + BitVec.ofNat 32 k ∧ inc32^[2 ^ 32] c = c

/-- GINIT completes in every state and phase, for LEN 0 and LEN 12, with the session R142 gives; BRK, KEY_VALID,
KEY_DIR and DOUT are unchanged. -/
def Obligations.GinitCompletes : Prop :=
  ∀ s : State, let rk := keyExpand s.dev.key.toBlock
    (∃ t, exec (.ginit 0) s = .next t ∧ Succeeded t.dev
      ∧ t.dev.gcm = { phase := .nonce, grk := rk, h := cipher rk 0, j0 := 0, ctr := 0, ks := 0, acc := 0, pbuf := 0,
                      plen := 0, alen := 0, clen := 0, nlen := 0 }
      ∧ KeepsEnv s t ∧ KeepsInputs s.dev t.dev ∧ KeepsKeys s.dev t.dev ∧ t.dev.authOk = s.dev.authOk
      ∧ t.dev.dout = s.dev.dout)
    ∧ (∃ (t : State) (j0 : Block), exec (.ginit 12) s = .next t ∧ Succeeded t.dev
      ∧ j0 = s.dev.din.w0 ++ s.dev.din.w1 ++ s.dev.din.w2 ++ (1 : Word)
      ∧ t.dev.gcm = { phase := .init, grk := rk, h := cipher rk 0, j0 := j0, ctr := j0, ks := 0, acc := 0, pbuf := 0,
                      plen := 0, alen := 0, clen := 0, nlen := 96 }
      ∧ KeepsEnv s t ∧ KeepsInputs s.dev t.dev ∧ KeepsKeys s.dev t.dev ∧ t.dev.authOk = s.dev.authOk
      ∧ t.dev.dout = s.dev.dout)

/-- GNONCE completes in phase NONCE for LEN 0..16, absorbs `DINb[0..LEN-1]` and adds 8·LEN to NLEN (R143). -/
def Obligations.GnonceCompletes : Prop :=
  ∀ (s : State) (n : BitVec 5), n.toNat ≤ 16 → s.dev.gcm.phase = .nonce →
    ∃ t, exec (.gnonce n) s = .next t ∧ Succeeded t.dev
      ∧ t.dev.gcm.phase = .nonce ∧ t.dev.gcm.nlen = s.dev.gcm.nlen + BitVec.ofNat 64 (8 * n.toNat)
      ∧ (s.dev.gcm.CarryInv → AbsorbedAs s.dev.gcm t.dev.gcm (takeBytes n.toNat s.dev.din.toBlock))
      ∧ (n = 0 → t.dev.gcm = s.dev.gcm)
      ∧ t.dev.gcm.grk = s.dev.gcm.grk ∧ t.dev.gcm.h = s.dev.gcm.h ∧ t.dev.gcm.j0 = s.dev.gcm.j0
      ∧ t.dev.gcm.ctr = s.dev.gcm.ctr ∧ t.dev.gcm.ks = s.dev.gcm.ks
      ∧ t.dev.gcm.alen = s.dev.gcm.alen ∧ t.dev.gcm.clen = s.dev.gcm.clen
      ∧ KeepsEnv s t ∧ KeepsInputs s.dev t.dev ∧ KeepsKeys s.dev t.dev ∧ t.dev.authOk = s.dev.authOk
      ∧ t.dev.dout = s.dev.dout

/-- GNONCE_END completes in phase NONCE with the J0 of R144: the fast path when NLEN = 96, else the flushed tail and
the nonce length block (R144, R148). -/
def Obligations.GnonceEndCompletes : Prop :=
  ∀ s : State, s.dev.gcm.phase = .nonce →
    ∃ (t : State) (j0 : Block), exec (.gnonceEnd 0) s = .next t ∧ Succeeded t.dev
      ∧ (s.dev.gcm.nlen = 96 → (∀ j, j < 12 → byteAt j0 j = byteAt s.dev.gcm.pbuf j) ∧ be32 j0 3 = 1)
      ∧ (s.dev.gcm.nlen ≠ 96 → j0 = gfMul (flushedAcc s.dev.gcm ^^^ ((0 : Count) ++ s.dev.gcm.nlen)) s.dev.gcm.h)
      ∧ t.dev.gcm = { s.dev.gcm with
          phase := .init, j0 := j0, ctr := j0, ks := 0, acc := 0, pbuf := 0, plen := 0 }
      ∧ KeepsEnv s t ∧ KeepsInputs s.dev t.dev ∧ KeepsKeys s.dev t.dev ∧ t.dev.authOk = s.dev.authOk
      ∧ t.dev.dout = s.dev.dout

/-- GAAD completes in phases INIT and AAD for LEN 0..16, absorbs `DINb[0..LEN-1]`, adds 8·LEN to ALEN and moves to
AAD (R147). -/
def Obligations.GaadCompletes : Prop :=
  ∀ (s : State) (n : BitVec 5), n.toNat ≤ 16 → (s.dev.gcm.phase = .init ∨ s.dev.gcm.phase = .aad) →
    ∃ t, exec (.gaad n) s = .next t ∧ Succeeded t.dev
      ∧ t.dev.gcm.phase = .aad ∧ t.dev.gcm.alen = s.dev.gcm.alen + BitVec.ofNat 64 (8 * n.toNat)
      ∧ (s.dev.gcm.CarryInv → AbsorbedAs s.dev.gcm t.dev.gcm (takeBytes n.toNat s.dev.din.toBlock))
      ∧ (n = 0 → t.dev.gcm = { s.dev.gcm with phase := .aad })
      ∧ KeepsSetup s.dev.gcm t.dev.gcm ∧ t.dev.gcm.ctr = s.dev.gcm.ctr ∧ t.dev.gcm.ks = s.dev.gcm.ks
      ∧ t.dev.gcm.clen = s.dev.gcm.clen
      ∧ KeepsEnv s t ∧ KeepsInputs s.dev t.dev ∧ KeepsKeys s.dev t.dev ∧ t.dev.authOk = s.dev.authOk
      ∧ t.dev.dout = s.dev.dout

/-- GENC completes in phases INIT, AAD and DATA_ENC for LEN 0..16: each output byte is the plaintext byte under the
keystream, the bytes LEN..15 of DOUT are 0, the ciphertext is absorbed after the AAD tail is flushed, and the counter
moves exactly when a new block of the text begins (R145, R146, R149, R151). -/
def Obligations.GencCompletes : Prop :=
  ∀ (s : State) (n : BitVec 5), n.toNat ≤ 16 →
    (s.dev.gcm.phase = .init ∨ s.dev.gcm.phase = .aad ∨ s.dev.gcm.phase = .dataEnc) →
    ∃ t g, exec (.genc n) s = .next t ∧ Succeeded t.dev
      ∧ g = (if s.dev.gcm.phase = .dataEnc then s.dev.gcm else flush s.dev.gcm)
      ∧ t.dev.gcm.phase = .dataEnc ∧ t.dev.gcm.clen = s.dev.gcm.clen + BitVec.ofNat 64 (8 * n.toNat)
      ∧ (∀ j, j < 16 → byteAt t.dev.dout.toBlock j
          = if j < n.toNat then byteAt s.dev.din.toBlock j ^^^ keystreamByte g j else 0)
      ∧ (s.dev.gcm.CarryInv → AbsorbedAs g t.dev.gcm (takeBytes n.toNat t.dev.dout.toBlock))
      ∧ (startsBlock g n.toNat → t.dev.gcm.ctr = inc32 g.ctr ∧ t.dev.gcm.ks = cipher g.grk (inc32 g.ctr))
      ∧ (¬ startsBlock g n.toNat → t.dev.gcm.ctr = g.ctr ∧ t.dev.gcm.ks = g.ks)
      ∧ KeepsSetup s.dev.gcm t.dev.gcm ∧ t.dev.gcm.alen = s.dev.gcm.alen
      ∧ KeepsEnv s t ∧ KeepsInputs s.dev t.dev ∧ KeepsKeys s.dev t.dev ∧ t.dev.authOk = s.dev.authOk

/-- GDEC completes in phases INIT, AAD and DATA_DEC for LEN 0..16, as GENC does, but what is absorbed is the received
ciphertext (R150, R151, R156). -/
def Obligations.GdecCompletes : Prop :=
  ∀ (s : State) (n : BitVec 5), n.toNat ≤ 16 →
    (s.dev.gcm.phase = .init ∨ s.dev.gcm.phase = .aad ∨ s.dev.gcm.phase = .dataDec) →
    ∃ t g, exec (.gdec n) s = .next t ∧ Succeeded t.dev
      ∧ g = (if s.dev.gcm.phase = .dataDec then s.dev.gcm else flush s.dev.gcm)
      ∧ t.dev.gcm.phase = .dataDec ∧ t.dev.gcm.clen = s.dev.gcm.clen + BitVec.ofNat 64 (8 * n.toNat)
      ∧ (∀ j, j < 16 → byteAt t.dev.dout.toBlock j
          = if j < n.toNat then byteAt s.dev.din.toBlock j ^^^ keystreamByte g j else 0)
      ∧ (s.dev.gcm.CarryInv → AbsorbedAs g t.dev.gcm (takeBytes n.toNat s.dev.din.toBlock))
      ∧ (startsBlock g n.toNat → t.dev.gcm.ctr = inc32 g.ctr ∧ t.dev.gcm.ks = cipher g.grk (inc32 g.ctr))
      ∧ (¬ startsBlock g n.toNat → t.dev.gcm.ctr = g.ctr ∧ t.dev.gcm.ks = g.ks)
      ∧ KeepsSetup s.dev.gcm t.dev.gcm ∧ t.dev.gcm.alen = s.dev.gcm.alen
      ∧ KeepsEnv s t ∧ KeepsInputs s.dev t.dev ∧ KeepsKeys s.dev t.dev ∧ t.dev.authOk = s.dev.authOk

/-- GFINISH completes in phases INIT, AAD, DATA_ENC and DATA_DEC for LEN 1..16: DOUT is the leading LEN bytes of the
tag followed by zeros, ACC keeps S, and the session is FINISHED (R153, R154, R155). -/
def Obligations.GfinishCompletes : Prop :=
  ∀ (s : State) (n : BitVec 5), 1 ≤ n.toNat → n.toNat ≤ 16 → s.dev.gcm.phase ∈ [.init, .aad, .dataEnc, .dataDec] →
    ∃ t, exec (.gfinish n) s = .next t ∧ Succeeded t.dev
      ∧ (∀ j, j < 16 → byteAt t.dev.dout.toBlock j = if j < n.toNat then byteAt (tagOf s.dev.gcm) j else 0)
      ∧ t.dev.gcm.phase = .finished ∧ t.dev.gcm.acc = finalAcc s.dev.gcm ∧ t.dev.gcm.plen = 0
      ∧ (s.dev.gcm.CarryInv → t.dev.gcm.pbuf = 0)
      ∧ KeepsSetup s.dev.gcm t.dev.gcm ∧ t.dev.gcm.ctr = s.dev.gcm.ctr ∧ t.dev.gcm.ks = s.dev.gcm.ks
      ∧ t.dev.gcm.alen = s.dev.gcm.alen ∧ t.dev.gcm.clen = s.dev.gcm.clen
      ∧ KeepsEnv s t ∧ KeepsInputs s.dev t.dev ∧ KeepsKeys s.dev t.dev ∧ t.dev.authOk = s.dev.authOk

/-- GVERIFY completes in phases INIT, AAD, DATA_ENC and DATA_DEC for LEN 1..16 with DOUT = 0, ACC keeping S and the
session FINISHED: with AUTH_OK = 1 when the first LEN bytes of TAG and AUX agree, with AUTH_FAIL otherwise (R155,
R157). That AUTH_FAIL leaves AUTH_OK as it is rests on notes/assumptions/16.md (DEDUCED). -/
def Obligations.GverifyCompletes : Prop :=
  ∀ (s : State) (n : BitVec 5), 1 ≤ n.toNat → n.toNat ≤ 16 → s.dev.gcm.phase ∈ [.init, .aad, .dataEnc, .dataDec] →
    ∃ t, exec (.gverify n) s = .next t ∧ t.dev.dout = Quad.zero
      ∧ t.dev.gcm.phase = .finished ∧ t.dev.gcm.acc = finalAcc s.dev.gcm ∧ t.dev.gcm.plen = 0
      ∧ (s.dev.gcm.CarryInv → t.dev.gcm.pbuf = 0)
      ∧ KeepsSetup s.dev.gcm t.dev.gcm ∧ t.dev.gcm.ctr = s.dev.gcm.ctr ∧ t.dev.gcm.ks = s.dev.gcm.ks
      ∧ t.dev.gcm.alen = s.dev.gcm.alen ∧ t.dev.gcm.clen = s.dev.gcm.clen
      ∧ ((∀ j, j < n.toNat → byteAt (tagOf s.dev.gcm) j = byteAt s.dev.aux.toBlock j) →
          Succeeded t.dev ∧ t.dev.authOk = true)
      ∧ ((∃ j, j < n.toNat ∧ byteAt (tagOf s.dev.gcm) j ≠ byteAt s.dev.aux.toBlock j) →
          Raised .authFail t.dev ∧ t.dev.authOk = s.dev.authOk)
      ∧ KeepsEnv s t ∧ KeepsInputs s.dev t.dev ∧ KeepsKeys s.dev t.dev

/-- After an accepted GVERIFY completes, exactly one of AUTH_OK = 1 and ERRCODE = AUTH_FAIL holds unless it was
rejected before it ran; AUTH_OK rises in no other step, and is cleared when any command is accepted and by reset
(10_state.md R30). -/
def Obligations.AuthOkRule : Prop :=
  ∀ s t : State, step s = .next t → s.dev.StatusInv →
    ((t.dev.authOk = true → s.dev.authOk = false →
        ∃ n r, Ran (.gverify n) s r ∧ ∀ j, j < n.toNat → byteAt (tagOf s.dev.gcm) j = byteAt s.dev.aux.toBlock j)
      ∧ (∀ n r, Ran (.gverify n) s r → t.dev.errCode ∉ [.invalidLength, .sequence] →
          (t.dev.authOk = true ↔ t.dev.errCode ≠ .authFail))
      ∧ (s.dev.busy = false → t.dev.busy = true → t.dev.authOk = false)
      ∧ (∀ r : State, s = r.before .reset → t.dev.authOk = false))

/-- A sender and a receiver whose sessions agree but for the phase, at any point of the text: GDEC of the bytes GENC
output gives back the plaintext and leaves sessions that agree but for the phase, so texts of many commands follow and
the tags agree (R149, R150, R156, the last marked derived there). -/
def Obligations.GdecUndoesGenc : Prop :=
  ∀ (s r : State) (n : BitVec 5), n.toNat ≤ 16 →
    (s.dev.gcm.phase = .dataEnc ∧ r.dev.gcm = { s.dev.gcm with phase := .dataDec })
      ∨ ((s.dev.gcm.phase = .init ∨ s.dev.gcm.phase = .aad) ∧ r.dev.gcm = s.dev.gcm) →
    ∃ e, exec (.genc n) s = .next e
      ∧ ((∀ j, j < n.toNat → byteAt r.dev.din.toBlock j = byteAt e.dev.dout.toBlock j) →
        ∃ d, exec (.gdec n) r = .next d
          ∧ (∀ j, j < n.toNat → byteAt d.dev.dout.toBlock j = byteAt s.dev.din.toBlock j)
          ∧ e.dev.gcm.phase = .dataEnc ∧ d.dev.gcm = { e.dev.gcm with phase := .dataDec }
          ∧ tagOf d.dev.gcm = tagOf e.dev.gcm)

/-- Incremental equivalence (R143, R147, R158, marked derived there): two commands of a and b bytes leave the session
that one command of a + b bytes leaves, and output the same bytes. -/
def Obligations.SplitCommandsAreEquivalent : Prop :=
  ∀ (mk : BitVec 5 → Instr) (s t u v : State) (a b c : BitVec 5) (x y : Block),
    mk = .gnonce ∨ mk = .gaad ∨ mk = .genc ∨ mk = .gdec →
    c.toNat = a.toNat + b.toNat → c.toNat ≤ 16 → s.dev.gcm.phase ∈ allowedPhases (mk 0) →
    (∀ j, j < b.toNat → byteAt y j = byteAt x (a.toNat + j)) →
    exec (mk c) (s.withDin x) = .next t → exec (mk a) (s.withDin x) = .next u →
    exec (mk b) (u.withDin y) = .next v →
    v.dev.gcm = t.dev.gcm
      ∧ (mk = .genc ∨ mk = .gdec →
          takeBytes c.toNat t.dev.dout.toBlock
            = takeBytes a.toNat u.dev.dout.toBlock ++ takeBytes b.toNat v.dev.dout.toBlock)

/-- The J0 of a nonce of any length streamed in pieces (R148, U10): `N ‖ 00 00 00 01` if it has 12 bytes, and
otherwise `GFMul(GHASH_H(N) ⊕ (0^64 ‖ BE64(8·n)), H)`, provided its bit length modulo 2^64 is not 96. -/
def Obligations.StreamedNonceGivesJ0 : Prop :=
  ∀ (s p q u : State) (cs : List (BitVec 5 × Block)) (out : List Byte), (∀ c ∈ cs, c.1.toNat ≤ 16) →
    exec (.ginit 0) s = .next p → sendChunks .gnonce cs p = some (q, out) → exec (.gnonceEnd 0) q = .next u →
    ((chunkBytes cs).length = 12 → u.dev.gcm.j0 = packBytes (chunkBytes cs ++ [0, 0, 0, 1]))
    ∧ (8 * (chunkBytes cs).length % 2 ^ 64 ≠ 96 →
        u.dev.gcm.j0 = gfMul (ghash p.dev.gcm.h (chunkBytes cs)
          ^^^ ((0 : Count) ++ BitVec.ofNat 64 (8 * (chunkBytes cs).length))) p.dev.gcm.h)

/-- The tag of a whole session (R152, R153): from INIT, any AAD pieces, then any text pieces encrypted, then
GFINISH 16 give `Cipher(GRK, J0) ⊕ GHASH` of the padded AAD, the padded ciphertext and the lengths, whatever the
split. -/
def Obligations.SessionTagIsGcm : Prop :=
  ∀ (s : State) (aad text : List (BitVec 5 × Block)), s.dev.gcm.phase = .init → s.dev.gcm.PhaseInv →
    (∀ c ∈ aad, c.1.toNat ≤ 16) → (∀ c ∈ text, c.1.toNat ≤ 16) →
    ∃ t u v x ct, sendChunks .gaad aad s = some (t, x) ∧ sendChunks .genc text t = some (u, ct)
      ∧ exec (.gfinish 16) u = .next v
      ∧ v.dev.dout.toBlock
          = cipher s.dev.gcm.grk s.dev.gcm.j0 ^^^ ghash s.dev.gcm.h (hashedString (chunkBytes aad) ct)

/-- The tag GVERIFY recomputes covers the received ciphertext (R152, R156, R157): from INIT, AAD pieces, then
ciphertext pieces by GDEC, then GVERIFY 16 set AUTH_OK exactly when AUX holds the GCM tag. -/
def Obligations.VerificationAcceptsOnlyTheTag : Prop :=
  ∀ (s : State) (aad text : List (BitVec 5 × Block)), s.dev.gcm.phase = .init → s.dev.gcm.PhaseInv →
    s.dev.authOk = false → (∀ c ∈ aad, c.1.toNat ≤ 16) → (∀ c ∈ text, c.1.toNat ≤ 16) →
    ∃ t u v x pt, sendChunks .gaad aad s = some (t, x) ∧ sendChunks .gdec text t = some (u, pt)
      ∧ exec (.gverify 16) u = .next v
      ∧ (v.dev.authOk = true ↔ s.dev.aux.toBlock
          = cipher s.dev.gcm.grk s.dev.gcm.j0 ^^^ ghash s.dev.gcm.h (hashedString (chunkBytes aad) (chunkBytes text)))

/-- A zero-length nonce with no AAD and no text gives the tag H = E_K(0^128), for every key (R161, marked derived
there). -/
def Obligations.ZeroLengthNonceTagIsSubkey : Prop :=
  ∀ s : State, ∃ a b c, exec (.ginit 0) s = .next a ∧ exec (.gnonceEnd 0) a = .next b
    ∧ exec (.gfinish 16) b = .next c ∧ b.dev.gcm.j0 = 0
    ∧ c.dev.dout.toBlock = cipher (keyExpand s.dev.key.toBlock) 0

/-! ## Registers, acceptance, the busy hazard, reset and the interrupt -/

/-- `Xb[4k + j] = Xk[31 - 8j : 24 - 8j]` for every register group, and `Xk = BE32(Xb, k)` (20_memory.md R55). -/
def Obligations.RegisterWordsAreBigEndianBlockWords : Prop :=
  ∀ (q : Quad) (k j : Nat), k < 4 → j < 4 →
    byteAt q.toBlock (4 * k + j) = (q.get k).extractLsb' (24 - 8 * j) 8 ∧ q.get k = be32 q.toBlock k

/-- One host write to word k of KEY, DIN or AUX while BUSY = 0, at any of the offsets 0x010 to 0x03C, replaces that word
and changes nothing else (10_state.md R34, R35); so a host that writes `BE32(m, k)` to words 0..3 has stored the block m
there, and has changed no other register (R54 to R56). -/
def Obligations.WritingFourWordsStoresTheBlock : Prop :=
  ∀ (s : State) (m : Block), s.dev.busy = false →
    (∀ (k : Nat) (v : Word), k < 4 →
      (∃ q, step (s.before (writeTurn (0x010 + 4 * k) v)) = .next { s with dev := { s.dev with key := q } }
        ∧ ReplacesWord s.dev.key q k v)
      ∧ (∃ q, step (s.before (writeTurn (0x020 + 4 * k) v)) = .next { s with dev := { s.dev with din := q } }
        ∧ ReplacesWord s.dev.din q k v)
      ∧ (∃ q, step (s.before (writeTurn (0x030 + 4 * k) v)) = .next { s with dev := { s.dev with aux := q } }
        ∧ ReplacesWord s.dev.aux q k v))
    ∧ (∃ t, perform (writeBlockTurns 0x010 m) s = some t ∧ t.dev.key.toBlock = m
      ∧ t = { s with dev := { s.dev with key := t.dev.key } })
    ∧ (∃ t, perform (writeBlockTurns 0x020 m) s = some t ∧ t.dev.din.toBlock = m
      ∧ t = { s with dev := { s.dev with din := t.dev.din } })
    ∧ (∃ t, perform (writeBlockTurns 0x030 m) s = some t ∧ t.dev.aux.toBlock = m
      ∧ t = { s with dev := { s.dev with aux := t.dev.aux } })

/-- An access is refused exactly when it is not 32 bits wide at a multiple of 4 inside the window, and a step is refused
only for such an access. R53 refuses the width and the alignment, and that the step stops there is the model's reading
(DEDUCED, notes/assumptions/5.md); refusing an address outside the window is the model's choice (DESIGN CHOICE,
notes/assumptions/4.md). That no step faults is by the type Fault, which has no constructor (DEDUCED,
notes/assumptions/9.md). -/
def Obligations.OnlyUndefinedAccessesAreRefused : Prop :=
  ∀ s : State, (∀ f, step s ≠ .fault f)
    ∧ ((∃ r, step s = .refused r) ↔ ∃ a rest, s.schedule = .host a :: rest ∧ ¬ a.legal)

/-- No read has a side effect on the block, and two reads of an offset with the block unchanged between them return
the same value, but for the registers R235 names while BUSY = 1 (R58). -/
def Obligations.ReadsHaveNoSideEffect : Prop :=
  ∀ (s t : State) (off : Nat), step (s.before (readTurn off)) = .next t →
    t.dev = s.dev ∧ t.schedule = s.schedule ∧ (∃ v, t.reads = ⟨off, v⟩ :: s.reads)
      ∧ (s.dev.busy = false ∨ (off ≠ 0x008 ∧ (off < 0x040 ∨ 0x060 ≤ off)) →
          ∀ u v : State, u.dev = s.dev → step (u.before (readTurn off)) = .next v → lastRead v = lastRead t)

/-- Reads of the window while BUSY = 0, at every register of the map (10_state.md R22 to R25, R33 to R37): true
values for ID, CTRL, DIN, AUX, DOUT, ALEN and CLEN; 0 for CMD, KEY and the reserved offsets. -/
def Obligations.IdleReadsFollowTheRegisterMap : Prop :=
  ∀ (s : State) (off : Nat), s.dev.busy = false → off % 4 = 0 → off < 0x100 →
    ∃ t, step (s.before (readTurn off)) = .next t
      ∧ (off = 0x000 → lastRead t = Config.idValue)
      ∧ (off = 0x004 → lastRead t = if s.dev.irqEn then 1 else 0)
      ∧ (0x00C ≤ off ∧ off ≤ 0x01C → lastRead t = 0)
      ∧ (0x020 ≤ off ∧ off ≤ 0x02C → lastRead t = be32 s.dev.din.toBlock ((off - 0x020) / 4))
      ∧ (0x030 ≤ off ∧ off ≤ 0x03C → lastRead t = be32 s.dev.aux.toBlock ((off - 0x030) / 4))
      ∧ (0x040 ≤ off ∧ off ≤ 0x04C → lastRead t = be32 s.dev.dout.toBlock ((off - 0x040) / 4))
      ∧ (off = 0x050 → (lastRead t).toNat = s.dev.gcm.alen.toNat % 2 ^ 32)
      ∧ (off = 0x054 → (lastRead t).toNat = s.dev.gcm.alen.toNat / 2 ^ 32)
      ∧ (off = 0x058 → (lastRead t).toNat = s.dev.gcm.clen.toNat % 2 ^ 32)
      ∧ (off = 0x05C → (lastRead t).toNat = s.dev.gcm.clen.toNat / 2 ^ 32)
      ∧ (0x060 ≤ off → lastRead t = 0)

/-- STATUS, bit by bit as R26 lays it out, when it is read while BUSY = 0; a write clears DONE if bit 1 is 1 and
OVERRUN if bit 6 is 1, also while BUSY = 1, and changes nothing else; after reset it reads 0 (R26). The values of
ERRCODE and GPHASE are those of R202 and R36. -/
def Obligations.StatusLayoutAndWriteOneToClear : Prop :=
  ∀ (s : State) (v : Word),
    (s.dev.busy = false → ∃ t, step (s.before (readTurn 0x008)) = .next t
      ∧ (lastRead t).getLsbD 0 = false ∧ (lastRead t).getLsbD 1 = s.dev.done ∧ (lastRead t).getLsbD 2 = s.dev.err
      ∧ (lastRead t).getLsbD 3 = s.dev.authOk ∧ (lastRead t).getLsbD 4 = s.dev.keyValid
      ∧ (lastRead t).getLsbD 5 = s.dev.keyDir ∧ (lastRead t).getLsbD 6 = s.dev.overrun
      ∧ (lastRead t).getLsbD 7 = false
      ∧ (∀ p ∈ [(ErrCode.none, (0 : BitVec 4)), (.illegalCmd, 1), (.invalidLength, 2), (.sequence, 3), (.noKey, 4),
          (.authFail, 5)], s.dev.errCode = p.1 → (lastRead t).extractLsb' 8 4 = p.2)
      ∧ (lastRead t).extractLsb' 12 4 = 0
      ∧ (∀ p ∈ [(Phase.idle, (0 : BitVec 3)), (.nonce, 1), (.init, 2), (.aad, 3), (.dataEnc, 4), (.dataDec, 5),
          (.finished, 6)], s.dev.gcm.phase = p.1 → (lastRead t).extractLsb' 16 3 = p.2)
      ∧ (lastRead t).extractLsb' 19 13 = 0)
    ∧ (∃ t, step (s.before (writeTurn 0x008 v)) = .next t
      ∧ t = { s with dev := { s.dev with
          done := if v.getLsbD 1 then false else s.dev.done
          overrun := if v.getLsbD 6 then false else s.dev.overrun } })
    ∧ (∃ t, step (State.reset.before (readTurn 0x008)) = .next t ∧ lastRead t = 0)

/-- A write to CTRL sets IRQ_EN from bit 0 and changes nothing else, whether or not BUSY = 1; the reserved bits read
0; after reset it reads 0 (10_state.md R25). -/
def Obligations.CtrlHoldsIrqEnable : Prop :=
  ∀ (s : State) (v : Word),
    (∃ t u, step (s.before (writeTurn 0x004 v)) = .next t
      ∧ t = { s with dev := { s.dev with irqEn := v.getLsbD 0 } }
      ∧ step (t.before (readTurn 0x004)) = .next u ∧ lastRead u = v &&& 1)
    ∧ (∃ t, step (State.reset.before (readTurn 0x004)) = .next t ∧ lastRead t = 0)

/-- Writes to read-only registers and to reserved space have no effect, with no error and no OVERRUN, also while
BUSY = 1 (10_state.md R23). -/
def Obligations.WritesToReadOnlySpaceAreIgnored : Prop :=
  ∀ (s : State) (off : Nat) (v : Word), off % 4 = 0 → (off = 0x000 ∨ (0x040 ≤ off ∧ off < 0x100)) →
    step (s.before (writeTurn off v)) = .next s

/-- Acceptance (60_exceptions.md R200): with BUSY = 0 any word is accepted, even an illegal one; PCMD, BUSY, DONE,
ERR, ERRCODE and AUTH_OK are written and nothing else. With BUSY = 1 no command is accepted. -/
def Obligations.CmdWriteIsAccepted : Prop :=
  ∀ (s : State) (v : Word),
    (s.dev.busy = false → step (s.before (writeTurn 0x00C v)) = .next { s with dev := { s.dev with
      pcmd := v, busy := true, done := false, err := false, errCode := .none, authOk := false } })
    ∧ (s.dev.busy = true → step (s.before (writeTurn 0x00C v)) = .next { s with dev := { s.dev with overrun := true } })

/-- A host write to CMD, KEY, DIN or AUX while BUSY = 1 is dropped and sets OVERRUN, so the running command sees the
operands present at acceptance; writes to CTRL and STATUS act as when BUSY = 0 (70_reset_and_hazards.md R234). -/
def Obligations.BusyWritesAreDropped : Prop :=
  ∀ (s : State) (off : Nat) (v : Word), s.dev.busy = true → off % 4 = 0 →
    ((0x00C ≤ off ∧ off ≤ 0x03C) →
        step (s.before (writeTurn off v)) = .next { s with dev := { s.dev with overrun := true } })
    ∧ (off = 0x004 ∨ off = 0x008 → ∃ t u,
        step (s.before (writeTurn off v)) = .next t
          ∧ step ({ s with dev := { s.dev with busy := false } }.before (writeTurn off v)) = .next u
          ∧ t = { u with dev := { u.dev with busy := true } })

/-- Reads while BUSY = 1 (R235, 10_state.md R23): DOUT, ALEN and CLEN return an unspecified value; STATUS returns
BUSY = 1, DONE = 0, the true OVERRUN, reserved bits 0 and unspecified other fields; ID, CTRL, DIN and AUX read their true
values, and KEY, CMD and the reserved offsets 0. That an unspecified value is Config.freeRead of a counter that each such
read advances, one draw for all fields of STATUS, is the model's choice (DESIGN CHOICE, notes/assumptions/2.md). -/
def Obligations.BusyReadsAreFreeDraws : Prop :=
  ∀ (s : State) (off : Nat), s.dev.busy = true → off % 4 = 0 → off < 0x100 →
    ∃ t, step (s.before (readTurn off)) = .next t ∧ t.dev = s.dev
      ∧ (0x040 ≤ off ∧ off ≤ 0x05C → lastRead t = Config.freeRead s.freeCount ∧ t.freeCount = s.freeCount + 1)
      ∧ (0x060 ≤ off → lastRead t = 0 ∧ t.freeCount = s.freeCount)
      ∧ (off = 0x008 → (lastRead t).getLsbD 0 = true ∧ (lastRead t).getLsbD 1 = false
          ∧ (lastRead t).getLsbD 6 = s.dev.overrun ∧ (lastRead t).getLsbD 7 = false
          ∧ (lastRead t).extractLsb' 12 4 = 0 ∧ (lastRead t).extractLsb' 19 13 = 0
          ∧ (∀ b ∈ [2, 3, 4, 5, 8, 9, 10, 11, 16, 17, 18],
              (lastRead t).getLsbD b = (Config.freeRead s.freeCount).getLsbD b)
          ∧ t.freeCount = s.freeCount + 1)
      ∧ (off ≠ 0x008 → off < 0x040 → t.freeCount = s.freeCount)
      ∧ (off = 0x000 → lastRead t = Config.idValue)
      ∧ (off = 0x004 → lastRead t = if s.dev.irqEn then 1 else 0)
      ∧ (0x00C ≤ off ∧ off ≤ 0x01C → lastRead t = 0)
      ∧ (0x020 ≤ off ∧ off ≤ 0x02C → lastRead t = be32 s.dev.din.toBlock ((off - 0x020) / 4))
      ∧ (0x030 ≤ off ∧ off ≤ 0x03C → lastRead t = be32 s.dev.aux.toBlock ((off - 0x030) / 4))

/-- The key, the internal registers and PCMD cannot be read: two blocks that agree on what R22 makes visible return
the same value for every read, busy or not (10_state.md R34, 92_eei_decisions.md D6). -/
def Obligations.SecretsAreNotReadable : Prop :=
  ∀ (s t : State) (off : Nat), SameVisible s.dev t.dev → t.schedule = s.schedule → t.reads = s.reads →
    t.freeCount = s.freeCount → off % 4 = 0 → off < 0x100 →
    ∃ u v, step (s.before (readTurn off)) = .next u ∧ step (t.before (readTurn off)) = .next v
      ∧ v.reads = u.reads ∧ v.freeCount = u.freeCount ∧ SameVisible u.dev v.dev

/-- Reset (70_reset_and_hazards.md R230): every field takes its reset value and no command is in progress, also when
BUSY was 1 (R231). That the turns to come, the host's reads and the draw counter are left as they are is the model's
(DEDUCED, notes/assumptions/7.md). -/
def Obligations.ResetClearsEveryField : Prop :=
  ∀ s : State, ∃ t, step (s.before .reset) = .next t ∧ KeepsEnv s t
    ∧ t.dev.irqEn = false ∧ t.dev.busy = false ∧ t.dev.done = false ∧ t.dev.err = false ∧ t.dev.errCode = .none
    ∧ t.dev.authOk = false ∧ t.dev.keyValid = false ∧ t.dev.keyDir = false ∧ t.dev.overrun = false
    ∧ t.dev.key.toBlock = 0 ∧ t.dev.din.toBlock = 0 ∧ t.dev.aux.toBlock = 0 ∧ t.dev.dout.toBlock = 0
    ∧ (∀ i (h : i < 32), t.dev.brk[i] = 0 ∧ t.dev.gcm.grk[i] = 0) ∧ t.dev.pcmd = 0
    ∧ t.dev.gcm.phase = .idle ∧ t.dev.gcm.h = 0 ∧ t.dev.gcm.j0 = 0 ∧ t.dev.gcm.ctr = 0 ∧ t.dev.gcm.ks = 0
    ∧ t.dev.gcm.acc = 0 ∧ t.dev.gcm.pbuf = 0 ∧ t.dev.gcm.plen = 0
    ∧ t.dev.gcm.alen = 0 ∧ t.dev.gcm.clen = 0 ∧ t.dev.gcm.nlen = 0 ∧ t.dev.irq = false
    ∧ ∃ u, step (t.before (readTurn 0x000)) = .next u ∧ lastRead u = Config.idValue

/-- The interrupt (60_exceptions.md R211): IRQ is IRQ_EN and DONE; every completion, successful or not, raises IRQ if IRQ_EN = 1 and leaves
it low if IRQ_EN = 0; it falls with a STATUS write that has bit 1 set and with the acceptance of the next command. -/
def Obligations.CompletionRaisesTheInterrupt : Prop :=
  ∀ (s t : State), step s = .next t →
    t.dev.irq = (t.dev.irqEn && t.dev.done)
    ∧ (∀ r, EngineNext s r → t.dev.done = true ∧ t.dev.irq = s.dev.irqEn)
    ∧ (∀ (r : State) (v : Word), s = r.before (writeTurn 0x008 v) → v.getLsbD 1 = true → t.dev.irq = false)
    ∧ (∀ (r : State) (v : Word), s = r.before (writeTurn 0x00C v) → s.dev.busy = false → t.dev.irq = false)

/-! ## Rules about the whole machine -/

/-- Only acceptance, completion and reset write BUSY (10_state.md R27; that reset does is R230). -/
def Obligations.OnlyAcceptanceAndCompletionWriteBusy : Prop :=
  ∀ s t : State, step s = .next t → t.dev.busy ≠ s.dev.busy →
    (s.dev.busy = false ∧ ∃ (r : State) (a : Access) (v : Word),
        s = r.before (.host a) ∧ a = ⟨Config.baseAddr + 0x00C, .bits32, .write v⟩)
    ∨ (∃ r, EngineNext s r) ∨ (∃ r : State, s = r.before .reset)

/-- OVERRUN (10_state.md R32): set to 1 by any write to CMD, KEY, DIN or AUX made while BUSY = 1 and by nothing else;
cleared only by a STATUS write with bit 6 set, and by reset. -/
def Obligations.OverrunIsSticky : Prop :=
  ∀ s t : State, step s = .next t →
    (t.dev.overrun = true → s.dev.overrun = false →
      s.dev.busy = true ∧ ∃ (r : State) (off : Nat) (v : Word),
        0x00C ≤ off ∧ off ≤ 0x03C ∧ s = r.before (writeTurn off v))
    ∧ (∀ (r : State) (off : Nat) (v : Word), 0x00C ≤ off → off ≤ 0x03C → s = r.before (writeTurn off v) →
        s.dev.busy = true → t.dev.overrun = true)
    ∧ (t.dev.overrun = false → s.dev.overrun = true →
      (∃ (r : State) (v : Word), s = r.before (writeTurn 0x008 v) ∧ v.getLsbD 6 = true)
        ∨ (∃ r : State, s = r.before .reset))

/-- BRK, KEY_VALID and KEY_DIR are written only by KEXP_E, KEXP_D and reset (10_state.md R31, R38). -/
def Obligations.OnlyKeyExpansionWritesKeys : Prop :=
  ∀ s t : State, step s = .next t → ¬ KeepsKeys s.dev t.dev →
    (∃ r, Ran (.kexpE 0) s r) ∨ (∃ r, Ran (.kexpD 0) s r) ∨ (∃ r : State, s = r.before .reset)

/-- The session changes only when the engine runs a GCM command that its phase allows, and then moves to the phase of
the table's last column; or on reset (10_state.md R36, 42_gcm.md R141). -/
def Obligations.SessionMovesByThePhaseTable : Prop :=
  ∀ s t : State, step s = .next t →
    (t.dev.gcm ≠ s.dev.gcm →
      (∃ i r, Ran i s r ∧ isGcm i = true ∧ i.wf = true ∧ s.dev.gcm.phase ∈ allowedPhases i)
        ∨ (∃ r : State, s = r.before .reset))
    ∧ (∀ i r, Ran i s r → i.wf = true → s.dev.gcm.phase ∈ allowedPhases i →
        t.dev.gcm.phase = phaseAfter i s.dev.gcm.phase)

/-- The session is private (10_state.md R39): what a GCM command does to the session, DOUT and the completion fields
does not depend on BRK, KEY_VALID or KEY_DIR. -/
def Obligations.SessionIgnoresBlockKeys : Prop :=
  ∀ (i : Instr) (s t : State) (brk : RoundKeys) (kv kd : Bool), isGcm i = true → exec i s = .next t →
    exec i { s with dev := { s.dev with brk := brk, keyValid := kv, keyDir := kd } }
      = .next { t with dev := { t.dev with brk := brk, keyValid := kv, keyDir := kd } }

/-! ## Invariants of every step -/

/-- "Invariant: `PBUF[j] = 0` for every j with PLEN ≤ j ≤ 15. Every rule that writes PBUF keeps it" (10_state.md
R42). -/
def Obligations.StepKeepsTheCarryInvariant : Prop :=
  ∀ s t : State, s.dev.gcm.CarryInv → step s = .next t → t.dev.gcm.CarryInv

/-- Every step keeps what the flags of STATUS say of each other (10_state.md R27 to R31, 60_exceptions.md R200,
R201). -/
def Obligations.StepKeepsTheStatusInvariant : Prop :=
  ∀ s t : State, s.dev.StatusInv → step s = .next t → t.dev.StatusInv

/-- Every step keeps what GPHASE says of the session: PLEN counts the bytes of the nonce, AAD or text modulo 16, H is
E_K(0), and KS is the keystream of CTR while part of it is unused (10_state.md R40 to R43). -/
def Obligations.StepKeepsThePhaseInvariant : Prop :=
  ∀ s t : State, s.dev.gcm.PhaseInv → step s = .next t → t.dev.gcm.PhaseInv

/-- Every step keeps the counter at J0 plus the number of text blocks begun, over calls of any sizes and over wraps of
CLEN (42_gcm.md R146, marked derived there, and R160). -/
def Obligations.StepKeepsTheCounterInvariant : Prop :=
  ∀ s t : State, s.dev.gcm.PhaseInv → s.dev.gcm.CounterInv → step s = .next t → t.dev.gcm.CounterInv

/-- The state after reset meets all four invariants. -/
def Obligations.ResetMeetsTheInvariants : Prop :=
  State.reset.dev.gcm.CarryInv ∧ State.reset.dev.StatusInv ∧ State.reset.dev.gcm.PhaseInv
    ∧ State.reset.dev.gcm.CounterInv
end

