-- ==== Sys2Proof/Laws/State.lean ====
section
/-! SUPPORT. One lemma per field per named update of the state, so that no proof unfolds a record update. -/

namespace Sys2Proof.Machine

/-! ## Acceptance -/

@[simp] theorem accept_irqEn (v : Word) (d : Device) :
    (accept v d).irqEn = d.irqEn := rfl

@[simp] theorem accept_busy (v : Word) (d : Device) :
    (accept v d).busy = true := rfl

@[simp] theorem accept_done (v : Word) (d : Device) :
    (accept v d).done = false := rfl

@[simp] theorem accept_err (v : Word) (d : Device) :
    (accept v d).err = false := rfl

@[simp] theorem accept_errCode (v : Word) (d : Device) :
    (accept v d).errCode = .none := rfl

@[simp] theorem accept_authOk (v : Word) (d : Device) :
    (accept v d).authOk = false := rfl

@[simp] theorem accept_keyValid (v : Word) (d : Device) :
    (accept v d).keyValid = d.keyValid := rfl

@[simp] theorem accept_keyDir (v : Word) (d : Device) :
    (accept v d).keyDir = d.keyDir := rfl

@[simp] theorem accept_overrun (v : Word) (d : Device) :
    (accept v d).overrun = d.overrun := rfl

@[simp] theorem accept_key (v : Word) (d : Device) :
    (accept v d).key = d.key := rfl

@[simp] theorem accept_din (v : Word) (d : Device) :
    (accept v d).din = d.din := rfl

@[simp] theorem accept_aux (v : Word) (d : Device) :
    (accept v d).aux = d.aux := rfl

@[simp] theorem accept_dout (v : Word) (d : Device) :
    (accept v d).dout = d.dout := rfl

@[simp] theorem accept_brk (v : Word) (d : Device) :
    (accept v d).brk = d.brk := rfl

@[simp] theorem accept_pcmd (v : Word) (d : Device) :
    (accept v d).pcmd = v := rfl

@[simp] theorem accept_gcm (v : Word) (d : Device) :
    (accept v d).gcm = d.gcm := rfl

/-! ## Completion -/

@[simp] theorem completeOk_irqEn (d : Device) :
    (completeOk d).irqEn = d.irqEn := rfl

@[simp] theorem completeOk_busy (d : Device) :
    (completeOk d).busy = false := rfl

@[simp] theorem completeOk_done (d : Device) :
    (completeOk d).done = true := rfl

@[simp] theorem completeOk_err (d : Device) :
    (completeOk d).err = false := rfl

@[simp] theorem completeOk_errCode (d : Device) :
    (completeOk d).errCode = .none := rfl

@[simp] theorem completeOk_authOk (d : Device) :
    (completeOk d).authOk = d.authOk := rfl

@[simp] theorem completeOk_keyValid (d : Device) :
    (completeOk d).keyValid = d.keyValid := rfl

@[simp] theorem completeOk_keyDir (d : Device) :
    (completeOk d).keyDir = d.keyDir := rfl

@[simp] theorem completeOk_overrun (d : Device) :
    (completeOk d).overrun = d.overrun := rfl

@[simp] theorem completeOk_key (d : Device) :
    (completeOk d).key = d.key := rfl

@[simp] theorem completeOk_din (d : Device) :
    (completeOk d).din = d.din := rfl

@[simp] theorem completeOk_aux (d : Device) :
    (completeOk d).aux = d.aux := rfl

@[simp] theorem completeOk_dout (d : Device) :
    (completeOk d).dout = d.dout := rfl

@[simp] theorem completeOk_brk (d : Device) :
    (completeOk d).brk = d.brk := rfl

@[simp] theorem completeOk_pcmd (d : Device) :
    (completeOk d).pcmd = d.pcmd := rfl

@[simp] theorem completeOk_gcm (d : Device) :
    (completeOk d).gcm = d.gcm := rfl

/-! ## A command error -/

@[simp] theorem raiseCmdError_irqEn (code : ErrCode) (d : Device) :
    (raiseCmdError code d).irqEn = d.irqEn := rfl

@[simp] theorem raiseCmdError_busy (code : ErrCode) (d : Device) :
    (raiseCmdError code d).busy = false := rfl

@[simp] theorem raiseCmdError_done (code : ErrCode) (d : Device) :
    (raiseCmdError code d).done = true := rfl

@[simp] theorem raiseCmdError_err (code : ErrCode) (d : Device) :
    (raiseCmdError code d).err = true := rfl

@[simp] theorem raiseCmdError_errCode (code : ErrCode) (d : Device) :
    (raiseCmdError code d).errCode = code := rfl

@[simp] theorem raiseCmdError_authOk (code : ErrCode) (d : Device) :
    (raiseCmdError code d).authOk = d.authOk := rfl

@[simp] theorem raiseCmdError_keyValid (code : ErrCode) (d : Device) :
    (raiseCmdError code d).keyValid = d.keyValid := rfl

@[simp] theorem raiseCmdError_keyDir (code : ErrCode) (d : Device) :
    (raiseCmdError code d).keyDir = d.keyDir := rfl

@[simp] theorem raiseCmdError_overrun (code : ErrCode) (d : Device) :
    (raiseCmdError code d).overrun = d.overrun := rfl

@[simp] theorem raiseCmdError_key (code : ErrCode) (d : Device) :
    (raiseCmdError code d).key = d.key := rfl

@[simp] theorem raiseCmdError_din (code : ErrCode) (d : Device) :
    (raiseCmdError code d).din = d.din := rfl

@[simp] theorem raiseCmdError_aux (code : ErrCode) (d : Device) :
    (raiseCmdError code d).aux = d.aux := rfl

@[simp] theorem raiseCmdError_dout (code : ErrCode) (d : Device) :
    (raiseCmdError code d).dout = d.dout := rfl

@[simp] theorem raiseCmdError_brk (code : ErrCode) (d : Device) :
    (raiseCmdError code d).brk = d.brk := rfl

@[simp] theorem raiseCmdError_pcmd (code : ErrCode) (d : Device) :
    (raiseCmdError code d).pcmd = d.pcmd := rfl

@[simp] theorem raiseCmdError_gcm (code : ErrCode) (d : Device) :
    (raiseCmdError code d).gcm = d.gcm := rfl

/-! ## A dropped write -/

@[simp] theorem setOverrun_irqEn (d : Device) :
    (setOverrun d).irqEn = d.irqEn := rfl

@[simp] theorem setOverrun_busy (d : Device) :
    (setOverrun d).busy = d.busy := rfl

@[simp] theorem setOverrun_done (d : Device) :
    (setOverrun d).done = d.done := rfl

@[simp] theorem setOverrun_err (d : Device) :
    (setOverrun d).err = d.err := rfl

@[simp] theorem setOverrun_errCode (d : Device) :
    (setOverrun d).errCode = d.errCode := rfl

@[simp] theorem setOverrun_authOk (d : Device) :
    (setOverrun d).authOk = d.authOk := rfl

@[simp] theorem setOverrun_keyValid (d : Device) :
    (setOverrun d).keyValid = d.keyValid := rfl

@[simp] theorem setOverrun_keyDir (d : Device) :
    (setOverrun d).keyDir = d.keyDir := rfl

@[simp] theorem setOverrun_overrun (d : Device) :
    (setOverrun d).overrun = true := rfl

@[simp] theorem setOverrun_key (d : Device) :
    (setOverrun d).key = d.key := rfl

@[simp] theorem setOverrun_din (d : Device) :
    (setOverrun d).din = d.din := rfl

@[simp] theorem setOverrun_aux (d : Device) :
    (setOverrun d).aux = d.aux := rfl

@[simp] theorem setOverrun_dout (d : Device) :
    (setOverrun d).dout = d.dout := rfl

@[simp] theorem setOverrun_brk (d : Device) :
    (setOverrun d).brk = d.brk := rfl

@[simp] theorem setOverrun_pcmd (d : Device) :
    (setOverrun d).pcmd = d.pcmd := rfl

@[simp] theorem setOverrun_gcm (d : Device) :
    (setOverrun d).gcm = d.gcm := rfl

/-! ## A write to STATUS -/

@[simp] theorem writeStatus_irqEn (v : Word) (d : Device) :
    (writeStatus v d).irqEn = d.irqEn := rfl

@[simp] theorem writeStatus_busy (v : Word) (d : Device) :
    (writeStatus v d).busy = d.busy := rfl

@[simp] theorem writeStatus_done (v : Word) (d : Device) :
    (writeStatus v d).done = (d.done && !v.getLsbD 1) := rfl

@[simp] theorem writeStatus_err (v : Word) (d : Device) :
    (writeStatus v d).err = d.err := rfl

@[simp] theorem writeStatus_errCode (v : Word) (d : Device) :
    (writeStatus v d).errCode = d.errCode := rfl

@[simp] theorem writeStatus_authOk (v : Word) (d : Device) :
    (writeStatus v d).authOk = d.authOk := rfl

@[simp] theorem writeStatus_keyValid (v : Word) (d : Device) :
    (writeStatus v d).keyValid = d.keyValid := rfl

@[simp] theorem writeStatus_keyDir (v : Word) (d : Device) :
    (writeStatus v d).keyDir = d.keyDir := rfl

@[simp] theorem writeStatus_overrun (v : Word) (d : Device) :
    (writeStatus v d).overrun = (d.overrun && !v.getLsbD 6) := rfl

@[simp] theorem writeStatus_key (v : Word) (d : Device) :
    (writeStatus v d).key = d.key := rfl

@[simp] theorem writeStatus_din (v : Word) (d : Device) :
    (writeStatus v d).din = d.din := rfl

@[simp] theorem writeStatus_aux (v : Word) (d : Device) :
    (writeStatus v d).aux = d.aux := rfl

@[simp] theorem writeStatus_dout (v : Word) (d : Device) :
    (writeStatus v d).dout = d.dout := rfl

@[simp] theorem writeStatus_brk (v : Word) (d : Device) :
    (writeStatus v d).brk = d.brk := rfl

@[simp] theorem writeStatus_pcmd (v : Word) (d : Device) :
    (writeStatus v d).pcmd = d.pcmd := rfl

@[simp] theorem writeStatus_gcm (v : Word) (d : Device) :
    (writeStatus v d).gcm = d.gcm := rfl

/-! ## A write to CTRL -/

@[simp] theorem writeCtrl_irqEn (v : Word) (d : Device) :
    (writeCtrl v d).irqEn = v.getLsbD 0 := rfl

@[simp] theorem writeCtrl_busy (v : Word) (d : Device) :
    (writeCtrl v d).busy = d.busy := rfl

@[simp] theorem writeCtrl_done (v : Word) (d : Device) :
    (writeCtrl v d).done = d.done := rfl

@[simp] theorem writeCtrl_err (v : Word) (d : Device) :
    (writeCtrl v d).err = d.err := rfl

@[simp] theorem writeCtrl_errCode (v : Word) (d : Device) :
    (writeCtrl v d).errCode = d.errCode := rfl

@[simp] theorem writeCtrl_authOk (v : Word) (d : Device) :
    (writeCtrl v d).authOk = d.authOk := rfl

@[simp] theorem writeCtrl_keyValid (v : Word) (d : Device) :
    (writeCtrl v d).keyValid = d.keyValid := rfl

@[simp] theorem writeCtrl_keyDir (v : Word) (d : Device) :
    (writeCtrl v d).keyDir = d.keyDir := rfl

@[simp] theorem writeCtrl_overrun (v : Word) (d : Device) :
    (writeCtrl v d).overrun = d.overrun := rfl

@[simp] theorem writeCtrl_key (v : Word) (d : Device) :
    (writeCtrl v d).key = d.key := rfl

@[simp] theorem writeCtrl_din (v : Word) (d : Device) :
    (writeCtrl v d).din = d.din := rfl

@[simp] theorem writeCtrl_aux (v : Word) (d : Device) :
    (writeCtrl v d).aux = d.aux := rfl

@[simp] theorem writeCtrl_dout (v : Word) (d : Device) :
    (writeCtrl v d).dout = d.dout := rfl

@[simp] theorem writeCtrl_brk (v : Word) (d : Device) :
    (writeCtrl v d).brk = d.brk := rfl

@[simp] theorem writeCtrl_pcmd (v : Word) (d : Device) :
    (writeCtrl v d).pcmd = d.pcmd := rfl

@[simp] theorem writeCtrl_gcm (v : Word) (d : Device) :
    (writeCtrl v d).gcm = d.gcm := rfl

/-! ## Reset -/

@[simp] theorem platformReset_dev (s : State) :
    (platformReset s).dev = Device.reset := rfl

@[simp] theorem platformReset_schedule (s : State) :
    (platformReset s).schedule = s.schedule := rfl

@[simp] theorem platformReset_reads (s : State) :
    (platformReset s).reads = s.reads := rfl

@[simp] theorem platformReset_freeCount (s : State) :
    (platformReset s).freeCount = s.freeCount := rfl

/-! ## A register write -/

@[simp] theorem regWrite_dev (off : Nat) (v : Word) (s : State) :
    (regWrite off v s).dev = writeReg (regAt off) v s.dev := rfl

@[simp] theorem regWrite_schedule (off : Nat) (v : Word) (s : State) :
    (regWrite off v s).schedule = s.schedule := rfl

@[simp] theorem regWrite_reads (off : Nat) (v : Word) (s : State) :
    (regWrite off v s).reads = s.reads := rfl

@[simp] theorem regWrite_freeCount (off : Nat) (v : Word) (s : State) :
    (regWrite off v s).freeCount = s.freeCount := rfl

/-! ## A GHASH step -/

@[simp] theorem fold_phase (g : Session) (x : Block) : (fold g x).phase = g.phase := rfl

@[simp] theorem fold_grk (g : Session) (x : Block) : (fold g x).grk = g.grk := rfl

@[simp] theorem fold_h (g : Session) (x : Block) : (fold g x).h = g.h := rfl

@[simp] theorem fold_j0 (g : Session) (x : Block) : (fold g x).j0 = g.j0 := rfl

@[simp] theorem fold_ctr (g : Session) (x : Block) : (fold g x).ctr = g.ctr := rfl

@[simp] theorem fold_ks (g : Session) (x : Block) : (fold g x).ks = g.ks := rfl

@[simp] theorem fold_acc (g : Session) (x : Block) : (fold g x).acc = gfMul (g.acc ^^^ x) g.h := by
  simp only [fold]

@[simp] theorem fold_pbuf (g : Session) (x : Block) : (fold g x).pbuf = g.pbuf := rfl

@[simp] theorem fold_plen (g : Session) (x : Block) : (fold g x).plen = g.plen := rfl

@[simp] theorem fold_alen (g : Session) (x : Block) : (fold g x).alen = g.alen := rfl

@[simp] theorem fold_clen (g : Session) (x : Block) : (fold g x).clen = g.clen := rfl

@[simp] theorem fold_nlen (g : Session) (x : Block) : (fold g x).nlen = g.nlen := rfl

/-! ## The machine around the block -/

@[simp] theorem before_dev (t : Turn) (s : State) : (s.before t).dev = s.dev := rfl

@[simp] theorem before_schedule (t : Turn) (s : State) : (s.before t).schedule = t :: s.schedule := rfl

@[simp] theorem before_reads (t : Turn) (s : State) : (s.before t).reads = s.reads := rfl

@[simp] theorem before_freeCount (t : Turn) (s : State) : (s.before t).freeCount = s.freeCount := rfl

@[simp] theorem withDin_gcm (b : Block) (s : State) : (s.withDin b).dev.gcm = s.dev.gcm := rfl

@[simp] theorem withDin_din (b : Block) (s : State) : (s.withDin b).dev.din = Quad.ofBlock b := rfl

@[simp] theorem withDin_aux (b : Block) (s : State) : (s.withDin b).dev.aux = s.dev.aux := rfl

@[simp] theorem withDin_authOk (b : Block) (s : State) : (s.withDin b).dev.authOk = s.dev.authOk := rfl

@[simp] theorem withDin_keyValid (b : Block) (s : State) : (s.withDin b).dev.keyValid = s.dev.keyValid := rfl

@[simp] theorem regRead_dev (off : Nat) (s : State) : (regRead off s).dev = s.dev := rfl

@[simp] theorem regRead_schedule (off : Nat) (s : State) : (regRead off s).schedule = s.schedule := rfl

@[simp] theorem regRead_reads (off : Nat) (s : State) : (regRead off s).reads
    = ⟨off, readValue (regAt off) (Config.freeRead s.freeCount) s.dev⟩ :: s.reads := rfl

@[simp] theorem regRead_freeCount (off : Nat) (s : State) : (regRead off s).freeCount
    = if drawsFree (regAt off) s.dev then s.freeCount + 1 else s.freeCount := rfl

theorem device_irq (d : Device) : d.irq = (d.irqEn && d.done) := rfl

end Sys2Proof.Machine
end

