-- ==== Sys2Proof/Laws/Operands.lean ====
section
/-! SUPPORT. Laws of the byte and word views of blocks and register groups. -/

namespace Sys2Proof.Machine

theorem getLsbD_byteAt (b : Block) (j i : Nat) :
    (byteAt b j).getLsbD i = (decide (i < 8) && b.getLsbD (8 * (15 - j) + i)) := by
  simp [byteAt]

theorem getLsbD_be32 (b : Block) (k i : Nat) :
    (be32 b k).getLsbD i = (decide (i < 32) && b.getLsbD (32 * (3 - k) + i)) := by
  simp [be32]

/-- Two blocks with the same 16 bytes are equal. -/
theorem block_ext {a b : Block} (h : ∀ j, j < 16 → byteAt a j = byteAt b j) : a = b := by
  refine BitVec.eq_of_getLsbD_eq fun i hi => ?_
  have hj := congrArg (·.getLsbD (i % 8)) (h (15 - i / 8) (by omega))
  simp only [getLsbD_byteAt] at hj
  have e : 8 * (15 - (15 - i / 8)) + i % 8 = i := by omega
  simpa [e, Nat.mod_lt] using hj

theorem getLsbD_byteMask (i : Nat) : (0xff : Block).getLsbD i = decide (i < 8) := by
  have h : (0xff : Block) = (BitVec.allOnes 8).setWidth 128 := by decide
  by_cases hi : i < 8
  · rw [h, BitVec.getLsbD_setWidth, BitVec.getLsbD_allOnes]
    simp [hi, show i < 128 by omega]
  · simp only [h, BitVec.getLsbD_setWidth, BitVec.getLsbD_allOnes, hi]
    simp

theorem getLsbD_setByte (b : Block) (j i : Nat) (v : Byte) (hi : i < 128) : (setByte b j v).getLsbD i =
    if 8 * (15 - j) ≤ i ∧ i < 8 * (15 - j) + 8 then v.getLsbD (i - 8 * (15 - j)) else b.getLsbD i := by
  simp only [setByte, BitVec.getLsbD_or, BitVec.getLsbD_and, BitVec.getLsbD_not, BitVec.getLsbD_shiftLeft,
    BitVec.getLsbD_setWidth, getLsbD_byteMask, hi]
  by_cases h1 : i < 8 * (15 - j)
  · simp [h1, show ¬ (8 * (15 - j) ≤ i) by omega]
  · by_cases h2 : i < 8 * (15 - j) + 8
    · simp [h1, h2, show 8 * (15 - j) ≤ i by omega, show i - 8 * (15 - j) < 8 by omega,
        show i - 8 * (15 - j) < 128 by omega]
    · simp [h1, h2, show ¬ (i - 8 * (15 - j) < 8) by omega, BitVec.getLsbD_of_ge v _ (by omega : 8 ≤ i - 8 * (15 - j))]

theorem byteAt_setByte_same (b : Block) (j : Nat) (v : Byte) (hj : j < 16) : byteAt (setByte b j v) j = v := by
  refine BitVec.eq_of_getLsbD_eq fun i hi => ?_
  rw [getLsbD_byteAt, getLsbD_setByte _ _ _ _ (by omega), if_pos (by omega)]
  simp [hi]

theorem byteAt_setByte_other (b : Block) (j k : Nat) (v : Byte) (hj : j < 16) (hk : k < 16) (h : k ≠ j) :
    byteAt (setByte b j v) k = byteAt b k := by
  refine BitVec.eq_of_getLsbD_eq fun i hi => ?_
  rw [getLsbD_byteAt, getLsbD_byteAt, getLsbD_setByte _ _ _ _ (by omega), if_neg (by omega)]

theorem byteAt_zero (j : Nat) : byteAt 0 j = 0 := by
  refine BitVec.eq_of_getLsbD_eq fun i hi => ?_
  rw [getLsbD_byteAt, show (0 : Block) = 0#128 from rfl, show (0 : Byte) = 0#8 from rfl, BitVec.getLsbD_zero,
    BitVec.getLsbD_zero, Bool.and_false]

theorem byteAt_packFrom (bs : List Byte) (j k : Nat) (hj : j + bs.length ≤ 16) (hk : k < 16) :
    byteAt (packFrom j bs) k = if j ≤ k then bs.getD (k - j) 0 else 0 := by
  induction bs generalizing j with
  | nil => rw [packFrom, byteAt_zero]; simp
  | cons v vs ih =>
    simp only [List.length_cons] at hj
    by_cases h : k = j
    · subst h
      simp [packFrom, byteAt_setByte_same _ _ _ hk]
    · rw [packFrom, byteAt_setByte_other _ _ _ _ (by omega) hk h, ih (j + 1) (by omega)]
      by_cases hle : j ≤ k
      · have : k - j = (k - (j + 1)) + 1 := by omega
        simp [this, hle, show j + 1 ≤ k by omega]
      · simp [hle, show ¬ j + 1 ≤ k by omega]

/-- Byte `k` of a packed byte string is its `k`-th byte, or 0 past its end. -/
theorem byteAt_packBytes (bs : List Byte) (k : Nat) (h : bs.length ≤ 16) (hk : k < 16) :
    byteAt (packBytes bs) k = bs.getD k 0 := by
  rw [packBytes, byteAt_packFrom bs 0 k (by omega) hk]
  simp

@[simp] theorem length_takeBytes (n : Nat) (b : Block) : (takeBytes n b).length = n := by
  simp [takeBytes]

theorem getD_takeBytes (n j : Nat) (b : Block) (h : j < n) : (takeBytes n b).getD j 0 = byteAt b j := by
  simp [takeBytes, List.getD, h]

/-- Packing the first bytes of a block whose other bytes are 0 gives the block back. -/
theorem packBytes_takeBytes (n : Nat) (b : Block) (hn : n ≤ 16) (h : ∀ j, n ≤ j → j < 16 → byteAt b j = 0) :
    packBytes (takeBytes n b) = b := by
  refine block_ext fun j hj => ?_
  rw [byteAt_packBytes _ _ (by simpa using hn) hj]
  by_cases hjn : j < n
  · exact getD_takeBytes n j b hjn
  · rw [h j (by omega) hj]
    simp [List.getD, show n ≤ j by omega]

theorem getLsbD_toBlock (q : Quad) (i : Nat) : q.toBlock.getLsbD i =
    if i < 32 then q.w3.getLsbD i else if i < 64 then q.w2.getLsbD (i - 32)
    else if i < 96 then q.w1.getLsbD (i - 64) else q.w0.getLsbD (i - 96) := by
  simp only [Quad.toBlock, BitVec.getLsbD_append, Nat.sub_sub]
  by_cases h1 : i < 32
  · simp [h1]
  · by_cases h2 : i < 64
    · simp [h1, h2, show i - 32 < 32 by omega]
    · by_cases h3 : i < 96
      · simp [h1, h2, h3, show ¬ i - 32 < 32 by omega, show i - 64 < 32 by omega]
      · simp [h1, h2, h3, show ¬ i - 32 < 32 by omega, show ¬ i - 64 < 32 by omega]

@[simp] theorem ofBlock_toBlock (q : Quad) : Quad.ofBlock q.toBlock = q := by
  obtain ⟨a, b, c, d⟩ := q
  simp only [Quad.ofBlock, Quad.mk.injEq]
  refine ⟨?_, ?_, ?_, ?_⟩ <;> refine BitVec.eq_of_getLsbD_eq fun i hi => ?_ <;>
    simp only [getLsbD_be32, getLsbD_toBlock, hi, decide_true, Bool.true_and]
  · rw [if_neg (by omega), if_neg (by omega), if_neg (by omega)]
    congr 1
    omega
  · rw [if_neg (by omega), if_neg (by omega), if_pos (by omega)]
    congr 1
    omega
  · rw [if_neg (by omega), if_pos (by omega)]
    congr 1
    omega
  · rw [if_pos (by omega)]
    congr 1
    omega

@[simp] theorem toBlock_ofBlock (b : Block) : (Quad.ofBlock b).toBlock = b := by
  refine BitVec.eq_of_getLsbD_eq fun i hi => ?_
  simp only [getLsbD_toBlock, Quad.ofBlock, getLsbD_be32]
  split
  · simp [*]
  · split
    · rw [show 32 * (3 - 2) + (i - 32) = i by omega, decide_eq_true (by omega)]
      simp
    · split
      · rw [show 32 * (3 - 1) + (i - 64) = i by omega, decide_eq_true (by omega)]
        simp
      · rw [show 32 * (3 - 0) + (i - 96) = i by omega, decide_eq_true (by omega)]
        simp

end Sys2Proof.Machine
end

