-- ==== Sys2Proof/Laws/Exec.lean ====
section
/-! SUPPORT. What executing a command can do, said once for all commands. -/

namespace Sys2Proof.Machine

/-- The writes a command makes once it is admitted, and the error it raises after them, if any. -/
def commandBody : Instr → Device → Device × Option ErrCode
  | .kexpE _, d => ({ d with brk := keyExpand d.key.toBlock, keyValid := true, keyDir := false }, none)
  | .kexpD _, d => ({ d with brk := reverseKeys (keyExpand d.key.toBlock), keyValid := true, keyDir := true }, none)
  | .crypt _, d => ({ d with dout := Quad.ofBlock (cipher d.brk d.din.toBlock) }, none)
  | .round _, d => ({ d with dout := roundStep d.din d.aux.w0 }, none)
  | .gmul _, d => ({ d with dout := Quad.ofBlock (gfMul d.din.toBlock d.aux.toBlock) }, none)
  | .ginit n, d => ({ d with gcm := sessionInit n d.key.toBlock d.din.toBlock }, none)
  | .gnonce n, d => ({ d with gcm := nonceBytes n (dinBytes n d) d.gcm }, none)
  | .gnonceEnd _, d => ({ d with gcm := nonceEnd d.gcm }, none)
  | .gaad n, d => ({ d with gcm := aadBytes n (dinBytes n d) d.gcm }, none)
  | .genc n, d => (dataBody .dataEnc encByte n d, none)
  | .gdec n, d => (dataBody .dataDec decByte n d, none)
  | .gfinish n, d =>
    ({ d with
      gcm := finalSession d.gcm
      dout := Quad.ofBlock (packBytes (takeBytes (byteCount n) (fullTag d.gcm))) }, none)
  | .gverify n, d => verifyBody n d

theorem exec_eq_runCommand (i : Instr) (s : State) : exec i s = runCommand i (commandBody i) s := by
  cases i <;> rfl

/-- The block after a command's body has run: completed, or ended in the error the body raised. -/
def finish (r : Device × Option ErrCode) : Device :=
  match r with
  | (d, none) => completeOk d
  | (d, some code) => raiseCmdError code d

/-- A command that fails a check raises its error and does nothing else. -/
theorem exec_of_error {i : Instr} {s : State} {code : ErrCode} (h : admissionError i s.dev = some code) :
    exec i s = .next { s with dev := raiseCmdError code s.dev } := by
  rw [exec_eq_runCommand, runCommand, h]

/-- A command that passes the checks runs its body and completes. -/
theorem exec_of_admitted {i : Instr} {s : State} (h : admissionError i s.dev = none) :
    exec i s = .next { s with dev := finish (commandBody i s.dev) } := by
  rw [exec_eq_runCommand, runCommand, h]
  rcases commandBody i s.dev with ⟨d, _ | code⟩ <;> rfl

theorem admissionError_eq_none_iff (i : Instr) (d : Device) : admissionError i d = none ↔
    legalLen i = true ∧ phaseAllows i d.gcm.phase = true ∧ (needsKey i = true → d.keyValid = true) := by
  unfold admissionError
  cases legalLen i <;> cases phaseAllows i d.gcm.phase <;> cases needsKey i <;> cases d.keyValid <;> simp

/-- Every command answers a next state, in which only the block has changed. -/
theorem exec_cases (i : Instr) (s : State) :
    (∃ code, admissionError i s.dev = some code ∧ exec i s = .next { s with dev := raiseCmdError code s.dev })
    ∨ (admissionError i s.dev = none ∧ exec i s = .next { s with dev := finish (commandBody i s.dev) }) := by
  cases h : admissionError i s.dev with
  | none => exact .inr ⟨rfl, exec_of_admitted h⟩
  | some code => exact .inl ⟨code, rfl, exec_of_error h⟩

/-- The errors the checks can raise. -/
theorem admissionError_codes {i : Instr} {d : Device} {code : ErrCode} (h : admissionError i d = some code) :
    code = .invalidLength ∨ code = .sequence ∨ code = .noKey := by
  unfold admissionError at h
  split at h
  · exact .inl (by simpa using h.symm)
  · split at h
    · exact .inr (.inl (by simpa using h.symm))
    · split at h
      · exact .inr (.inr (by simpa using h.symm))
      · cases h

@[simp] theorem finish_busy (r : Device × Option ErrCode) : (finish r).busy = false := by
  rcases r with ⟨d, _ | c⟩ <;> rfl

@[simp] theorem finish_done (r : Device × Option ErrCode) : (finish r).done = true := by
  rcases r with ⟨d, _ | c⟩ <;> rfl

@[simp] theorem finish_gcm (r : Device × Option ErrCode) : (finish r).gcm = r.1.gcm := by
  rcases r with ⟨d, _ | c⟩ <;> rfl

@[simp] theorem finish_dout (r : Device × Option ErrCode) : (finish r).dout = r.1.dout := by
  rcases r with ⟨d, _ | c⟩ <;> rfl

@[simp] theorem finish_authOk (r : Device × Option ErrCode) : (finish r).authOk = r.1.authOk := by
  rcases r with ⟨d, _ | c⟩ <;> rfl

@[simp] theorem finish_irqEn (r : Device × Option ErrCode) : (finish r).irqEn = r.1.irqEn := by
  rcases r with ⟨d, _ | c⟩ <;> rfl

@[simp] theorem finish_overrun (r : Device × Option ErrCode) : (finish r).overrun = r.1.overrun := by
  rcases r with ⟨d, _ | c⟩ <;> rfl

@[simp] theorem finish_key (r : Device × Option ErrCode) : (finish r).key = r.1.key := by
  rcases r with ⟨d, _ | c⟩ <;> rfl

@[simp] theorem finish_din (r : Device × Option ErrCode) : (finish r).din = r.1.din := by
  rcases r with ⟨d, _ | c⟩ <;> rfl

@[simp] theorem finish_aux (r : Device × Option ErrCode) : (finish r).aux = r.1.aux := by
  rcases r with ⟨d, _ | c⟩ <;> rfl

@[simp] theorem finish_brk (r : Device × Option ErrCode) : (finish r).brk = r.1.brk := by
  rcases r with ⟨d, _ | c⟩ <;> rfl

@[simp] theorem finish_keyValid (r : Device × Option ErrCode) : (finish r).keyValid = r.1.keyValid := by
  rcases r with ⟨d, _ | c⟩ <;> rfl

@[simp] theorem finish_keyDir (r : Device × Option ErrCode) : (finish r).keyDir = r.1.keyDir := by
  rcases r with ⟨d, _ | c⟩ <;> rfl

@[simp] theorem finish_pcmd (r : Device × Option ErrCode) : (finish r).pcmd = r.1.pcmd := by
  rcases r with ⟨d, _ | c⟩ <;> rfl

/-- No command's body writes an input register, PCMD, IRQ_EN or OVERRUN. -/
theorem commandBody_keepsInputs (i : Instr) (d : Device) : KeepsInputs d (commandBody i d).1 := by
  cases i <;> first
    | exact ⟨rfl, rfl, rfl, rfl, rfl, rfl⟩
    | (simp only [commandBody, verifyBody]; split <;> exact ⟨rfl, rfl, rfl, rfl, rfl, rfl⟩)

/-- Only KEXP_E and KEXP_D write the block commands' key state. -/
theorem commandBody_keepsKeys (i : Instr) (d : Device) :
    (∃ n, i = .kexpE n) ∨ (∃ n, i = .kexpD n) ∨ KeepsKeys d (commandBody i d).1 := by
  cases i with
  | kexpE n => exact .inl ⟨n, rfl⟩
  | kexpD n => exact .inr (.inl ⟨n, rfl⟩)
  | gverify n =>
    refine .inr (.inr ?_)
    simp only [commandBody, verifyBody]
    split <;> exact ⟨rfl, rfl, rfl⟩
  | _ => exact .inr (.inr ⟨rfl, rfl, rfl⟩)

/-- A command other than a GCM command leaves the session as it is. -/
theorem commandBody_session (i : Instr) (d : Device) (h : isGcm i = false) : (commandBody i d).1.gcm = d.gcm := by
  cases i <;> first | rfl | cases h

end Sys2Proof.Machine
end

