-- ==== Sys2Proof/Laws/PerInstr.lean ====
section
/-! SUPPORT. Statements made for every command, one lemma per constructor. The family LegalLen: WellFormed's table and
the engine's LEN check, each written from spec/30_encoding.md R73, agree. -/

namespace Sys2Proof.Laws.LegalLen

/-- A command is well formed exactly when the engine's LEN check accepts it. -/
def Statement (i : Instr) : Prop := i.wf = Machine.legalLen i

theorem kexpE (n : BitVec 5) : Statement (.kexpE n) := by
  revert n
  unfold Statement
  decide

theorem kexpD (n : BitVec 5) : Statement (.kexpD n) := by
  revert n
  unfold Statement
  decide

theorem crypt (n : BitVec 5) : Statement (.crypt n) := by
  revert n
  unfold Statement
  decide

theorem round (n : BitVec 5) : Statement (.round n) := by
  revert n
  unfold Statement
  decide

theorem gmul (n : BitVec 5) : Statement (.gmul n) := by
  revert n
  unfold Statement
  decide

theorem ginit (n : BitVec 5) : Statement (.ginit n) := by
  revert n
  unfold Statement
  decide

theorem gnonce (n : BitVec 5) : Statement (.gnonce n) := by
  revert n
  unfold Statement
  decide

theorem gnonceEnd (n : BitVec 5) : Statement (.gnonceEnd n) := by
  revert n
  unfold Statement
  decide

theorem gaad (n : BitVec 5) : Statement (.gaad n) := by
  revert n
  unfold Statement
  decide

theorem genc (n : BitVec 5) : Statement (.genc n) := by
  revert n
  unfold Statement
  decide

theorem gdec (n : BitVec 5) : Statement (.gdec n) := by
  revert n
  unfold Statement
  decide

theorem gfinish (n : BitVec 5) : Statement (.gfinish n) := by
  revert n
  unfold Statement
  decide

theorem gverify (n : BitVec 5) : Statement (.gverify n) := by
  revert n
  unfold Statement
  decide

end Sys2Proof.Laws.LegalLen
end

