-- ==== Sys2Proof/Laws/Session.lean ====
section
/-! SUPPORT. Laws of the GHASH steps on a session: what Absorb and Flush leave unchanged, and that they keep the
carry's invariant (spec/10_state.md R42). -/

namespace Sys2Proof.Machine

/-- The parts of a session that Absorb and Flush never write. -/
structure KeepsRest (g k : Session) : Prop where
  phase : k.phase = g.phase
  grk : k.grk = g.grk
  h : k.h = g.h
  j0 : k.j0 = g.j0
  ctr : k.ctr = g.ctr
  ks : k.ks = g.ks
  alen : k.alen = g.alen
  clen : k.clen = g.clen
  nlen : k.nlen = g.nlen

theorem KeepsRest.refl (g : Session) : KeepsRest g g := ⟨rfl, rfl, rfl, rfl, rfl, rfl, rfl, rfl, rfl⟩

theorem KeepsRest.trans {a b c : Session} (h : KeepsRest a b) (k : KeepsRest b c) : KeepsRest a c :=
  ⟨k.phase.trans h.phase, k.grk.trans h.grk, k.h.trans h.h, k.j0.trans h.j0, k.ctr.trans h.ctr, k.ks.trans h.ks,
   k.alen.trans h.alen, k.clen.trans h.clen, k.nlen.trans h.nlen⟩

theorem absorb_keepsRest (g : Session) (b : Byte) : KeepsRest g (absorb g b) := by
  unfold absorb
  split <;> exact ⟨rfl, rfl, rfl, rfl, rfl, rfl, rfl, rfl, rfl⟩

theorem absorbAll_keepsRest (g : Session) (bs : List Byte) : KeepsRest g (absorbAll g bs) := by
  induction bs generalizing g with
  | nil => exact .refl g
  | cons b bs ih => exact (absorb_keepsRest g b).trans (ih (absorb g b))

theorem flush_keepsRest (g : Session) : KeepsRest g (flush g) := by
  unfold flush
  split <;> exact ⟨rfl, rfl, rfl, rfl, rfl, rfl, rfl, rfl, rfl⟩

/-- Absorb counts one byte modulo 16. -/
theorem absorb_plen (g : Session) (b : Byte) : (absorb g b).plen.val = (g.plen.val + 1) % 16 := by
  unfold absorb
  split
  · rename_i h
    rw [h]
    rfl
  · exact Fin.val_add g.plen 1

theorem absorbAll_plen (g : Session) (bs : List Byte) :
    (absorbAll g bs).plen.val = (g.plen.val + bs.length) % 16 := by
  induction bs generalizing g with
  | nil => exact (Nat.mod_eq_of_lt g.plen.isLt).symm
  | cons b bs ih =>
    have h := ih (absorb g b)
    rw [absorb_plen] at h
    rw [show absorbAll g (b :: bs) = absorbAll (absorb g b) bs from rfl, h, List.length_cons]
    omega

@[simp] theorem flush_plen (g : Session) : (flush g).plen = 0 := by
  unfold flush
  split
  · assumption
  · rfl

theorem flush_acc (g : Session) : (flush g).acc = flushedAcc g := by
  unfold flush flushedAcc
  split <;> simp only [fold]

/-- Absorb keeps the carry's invariant. -/
theorem absorb_carryInv {g : Session} (h : g.CarryInv) (b : Byte) : (absorb g b).CarryInv := by
  intro j hj hj'
  unfold absorb at hj ⊢
  split at hj
  · rename_i h15
    rw [if_pos h15]
    exact byteAt_zero j
  · rename_i h15
    rw [if_neg h15]
    have hp : (g.plen + 1).val = g.plen.val + 1 := by
      have := Fin.val_add g.plen 1
      have h15' : g.plen.val ≠ 15 := fun e => h15 (Fin.ext e)
      have := g.plen.isLt
      simp only [Fin.val_one] at *
      omega
    simp only [hp] at hj
    show byteAt (setByte g.pbuf g.plen b) j = 0
    rw [byteAt_setByte_other _ _ _ _ g.plen.isLt (by omega) (by omega)]
    exact h j (by omega) hj'

theorem absorbAll_carryInv {g : Session} (h : g.CarryInv) (bs : List Byte) : (absorbAll g bs).CarryInv := by
  induction bs generalizing g with
  | nil => exact h
  | cons b bs ih => exact ih (absorb_carryInv h b)

theorem flush_carryInv {g : Session} (h : g.CarryInv) : (flush g).CarryInv := by
  unfold flush
  split
  · exact h
  · exact fun j _ _ => byteAt_zero j

/-- Absorb does not read the phase. -/
theorem absorb_withPhase (g : Session) (b : Byte) (p : Phase) :
    absorb { g with phase := p } b = { absorb g b with phase := p } := by
  unfold absorb
  by_cases h : g.plen = 15 <;> simp [h, fold]

/-- The keystream step does not read the phase. -/
theorem keystreamStep_withPhase (g : Session) (p : Phase) :
    keystreamStep { g with phase := p } = { keystreamStep g with phase := p } := by
  unfold keystreamStep
  by_cases h : g.plen = 0 <;> simp [h]

/-- Decrypting the byte that encryption output, from a session that agrees but for the phase, gives back the byte and a
session that agrees but for the phase. -/
theorem decByte_encByte (g : Session) (b : Byte) (p : Phase) :
    decByte { g with phase := p } (encByte g b).2 = ({ (encByte g b).1 with phase := p }, b) := by
  simp only [encByte, decByte, keystreamStep_withPhase, absorb_withPhase, BitVec.xor_assoc, BitVec.xor_self,
    BitVec.xor_zero]

end Sys2Proof.Machine
end

