-- ==== Sys2Proof/Laws/Step.lean ====
section
/-! SUPPORT. What one step of the machine can do, said once. -/

namespace Sys2Proof.Machine

@[simp] theorem windowOffset_regAddr (off : Nat) (h : off < 256) : windowOffset (regAddr off) = some off := by
  unfold windowOffset regAddr
  rw [if_pos ⟨by omega, by omega⟩]
  congr 1
  omega

/-- A host read of the window at a multiple of 4. -/
theorem step_readTurn (s : State) (off : Nat) (h : off < 256) (h4 : off % 4 = 0) :
    step (s.before (readTurn off)) = .next (regRead off s) := by
  simp [step, State.before, readTurn, busAccess, windowOffset_regAddr off h, h4]

/-- A host write to the window at a multiple of 4. -/
theorem step_writeTurn (s : State) (off : Nat) (v : Word) (h : off < 256) (h4 : off % 4 = 0) :
    step (s.before (writeTurn off v)) = .next (regWrite off v s) := by
  simp [step, State.before, writeTurn, busAccess, windowOffset_regAddr off h, h4]

theorem step_before_reset (s : State) : step (s.before .reset) = .next (platformReset s) := rfl

/-- The engine's step, whichever way its turn comes. -/
theorem step_of_engineNext {s r : State} (h : EngineNext s r) : step s = engineStep r ∧ r.dev = s.dev := by
  obtain ⟨hb, ⟨hs, rfl⟩ | rfl⟩ := h
  · refine ⟨?_, rfl⟩
    unfold step engineTurn
    rw [hs]
    simp [hb]
  · refine ⟨?_, rfl⟩
    have hb' : r.dev.busy = true := hb
    simp [step, State.before, engineTurn, hb']

/-- A bus access that answers a next state is a legal read or a legal write. -/
theorem busAccess_next {a : Access} {s t : State} (h : busAccess a s = .next t) :
    ∃ off, off < 256 ∧ off % 4 = 0 ∧ a.addr = regAddr off ∧ a.width = .bits32
      ∧ ((a.op = .read ∧ t = regRead off s) ∨ (∃ v, a.op = .write v ∧ t = regWrite off v s)) := by
  unfold busAccess at h
  cases hw : windowOffset a.addr with
  | none => simp [hw] at h
  | some off =>
    simp only [hw] at h
    unfold windowOffset at hw
    split at hw
    · rename_i hr
      have ho : a.addr - Config.baseAddr = off := by simpa using hw
      split at h
      · cases h
      · rename_i hwid
        split at h
        · cases h
        · rename_i hal
          refine ⟨off, by omega, by omega, by unfold regAddr; omega, by simpa using hwid, ?_⟩
          cases hop : a.op with
          | read => exact .inl ⟨rfl, by simpa [hop] using h.symm⟩
          | write v => exact .inr ⟨v, rfl, by simpa [hop] using h.symm⟩
    · cases hw

/-- The possible next states of a step: an idle turn, the engine's step, a host read or write, or a reset. -/
theorem step_cases {s t : State} (h : step s = .next t) :
    (∃ r, EngineNext s r ∧ engineStep r = .next t)
    ∨ (s.dev.busy = false ∧ s.schedule = [] ∧ t = s)
    ∨ (s.dev.busy = false ∧ s = t.before .engine)
    ∨ (∃ r off, off < 256 ∧ off % 4 = 0 ∧ s = State.before (readTurn off) r ∧ t = regRead off r)
    ∨ (∃ r off v, off < 256 ∧ off % 4 = 0 ∧ s = State.before (writeTurn off v) r ∧ t = regWrite off v r)
    ∨ (∃ r : State, s = r.before .reset ∧ t = platformReset r) := by
  obtain ⟨dev, sched, reads, fc⟩ := s
  cases sched with
  | nil =>
    cases hb : dev.busy with
    | true =>
      refine .inl ⟨_, ⟨hb, .inl ⟨rfl, rfl⟩⟩, ?_⟩
      simpa [step, engineTurn, hb] using h
    | false =>
      refine .inr (.inl ⟨rfl, rfl, ?_⟩)
      simpa [step, engineTurn, hb, eq_comm] using h
  | cons x rest =>
    cases x with
    | engine =>
      cases hb : dev.busy with
      | true =>
        refine .inl ⟨⟨dev, rest, reads, fc⟩, ⟨hb, .inr rfl⟩, ?_⟩
        simpa [step, engineTurn, hb] using h
      | false =>
        refine .inr (.inr (.inl ⟨rfl, ?_⟩))
        have : t = ⟨dev, rest, reads, fc⟩ := by simpa [step, engineTurn, hb, eq_comm] using h
        rw [this]
        rfl
    | reset =>
      refine .inr (.inr (.inr (.inr (.inr ⟨⟨dev, rest, reads, fc⟩, rfl, ?_⟩))))
      simpa [step, eq_comm] using h
    | host a =>
      obtain ⟨off, h1, h2, h3, h4, h5⟩ := busAccess_next (show busAccess a ⟨dev, rest, reads, fc⟩ = .next t from h)
      obtain ⟨addr, width, op⟩ := a
      simp only at h3 h4 h5
      subst h3 h4
      obtain ⟨rfl, rfl⟩ | ⟨v, rfl, rfl⟩ := h5
      · exact .inr (.inr (.inr (.inl ⟨⟨dev, rest, reads, fc⟩, off, h1, h2, rfl, rfl⟩)))
      · exact .inr (.inr (.inr (.inr (.inl ⟨⟨dev, rest, reads, fc⟩, off, v, h1, h2, rfl, rfl⟩))))

/-- What the engine's step does: it runs the decoded command, or reports ILLEGAL_CMD. -/
theorem engineStep_cases (r : State) :
    (∃ i, decode r.dev.pcmd = .ok i ∧ engineStep r = exec i r)
    ∨ (∃ e, decode r.dev.pcmd = .error e
        ∧ engineStep r = .next { r with dev := raiseCmdError .illegalCmd r.dev }) := by
  unfold engineStep
  cases h : decode r.dev.pcmd with
  | ok i => exact .inl ⟨i, rfl, rfl⟩
  | error e => exact .inr ⟨e, rfl, rfl⟩

/-- The engine's turn with BUSY = 1 completes the command. -/
theorem engineStep_completes (r : State) : ∃ t, engineStep r = .next t ∧ t.dev.busy = false ∧ t.schedule = r.schedule := by
  obtain ⟨i, -, h⟩ | ⟨e, -, h⟩ := engineStep_cases r
  · rw [h]
    obtain ⟨code, -, hx⟩ | ⟨-, hx⟩ := exec_cases i r
    · exact ⟨_, hx, rfl, rfl⟩
    · exact ⟨_, hx, finish_busy _, rfl⟩
  · exact ⟨_, h, rfl, rfl⟩

/-- A legal access answers a next state, with the turns to come unchanged. -/
theorem busAccess_of_legal {a : Access} (h : a.legal) (s : State) :
    ∃ t, busAccess a s = .next t ∧ t.schedule = s.schedule := by
  obtain ⟨h1, h2, h3, h4⟩ := h
  have hw : windowOffset a.addr = some (a.addr - Config.baseAddr) := if_pos ⟨h1, h2⟩
  unfold busAccess
  rw [hw]
  cases hop : a.op with
  | read => exact ⟨regRead (a.addr - Config.baseAddr) s, by simp [h3, h4], rfl⟩
  | write v => exact ⟨regWrite (a.addr - Config.baseAddr) v s, by simp [h3, h4], rfl⟩

/-- A turn that no rule refuses is taken. -/
theorem step_cons_of_legal {s : State} {x : Turn} {rest : List Turn} (hs : s.schedule = x :: rest) (hx : x.legal) :
    ∃ t, step s = .next t ∧ t.schedule = rest := by
  cases x with
  | host a =>
    obtain ⟨t, ht, hr⟩ := busAccess_of_legal hx { s with schedule := rest }
    exact ⟨t, by simp only [step, hs, ht], hr⟩
  | reset => exact ⟨platformReset { s with schedule := rest }, by simp only [step, hs], rfl⟩
  | engine =>
    cases hb : s.dev.busy with
    | true =>
      obtain ⟨t, ht, -, hr⟩ := engineStep_completes { s with schedule := rest }
      exact ⟨t, by simp only [step, hs, engineTurn, hb, if_true, ht], hr⟩
    | false => exact ⟨{ s with schedule := rest }, by simp [step, hs, engineTurn, hb], rfl⟩

theorem hostDone_of_schedule_nil {s : State} (h : s.schedule = []) : s.hostDone = true := by simp [State.hostDone, h]

/-- The end of a run is an end state. -/
theorem EndsAt.ended {s t : State} (h : EndsAt s t) : t.ended := by
  induction h with
  | here h => exact h
  | later _ _ _ ih => exact ih

/-- A run has one end. -/
theorem EndsAt.unique {s t u : State} (h : EndsAt s t) (k : EndsAt s u) : t = u := by
  induction h with
  | here h =>
    cases k with
    | here _ => rfl
    | later hn _ _ => exact absurd h hn
  | later hn hs _ ih =>
    cases k with
    | here h => exact absurd h hn
    | later _ hs' k =>
      rw [hs] at hs'
      cases hs'
      exact ih k

/-- Every run whose turns no rule refuses comes to its end (60_exceptions.md R201, 70_reset_and_hazards.md R238). -/
theorem exists_endsAt (ts : List Turn) (s : State) (hs : s.schedule = ts) (hl : ∀ x ∈ ts, x.legal) : ∃ t, EndsAt s t := by
  induction ts generalizing s with
  | nil =>
    cases hb : s.dev.busy with
    | false => exact ⟨s, .here ⟨hostDone_of_schedule_nil hs, hb⟩⟩
    | true =>
      obtain ⟨t, ht, htb, hts⟩ := engineStep_completes s
      refine ⟨t, .later (fun h => ?_) ?_ (.here ⟨hostDone_of_schedule_nil (hts.trans hs), htb⟩)⟩
      · rw [h.2] at hb
        cases hb
      · simp only [step, hs, engineTurn, hb, if_true, ht]
  | cons x rest ih =>
    by_cases he : s.ended
    · exact ⟨s, .here he⟩
    · obtain ⟨u, hu, hr⟩ := step_cons_of_legal hs (hl x List.mem_cons_self)
      obtain ⟨t, ht⟩ := ih u hr fun y hy => hl y (List.mem_cons_of_mem x hy)
      exact ⟨t, .later he hu ht⟩

end Sys2Proof.Machine
end

