-- ==== Sys2Proof/Tests/Slice0.lean ====
section
/-! SUPPORT. The model's own tests: each command's decoding by a word written out from spec/30_encoding.md R70 and
R72, the WellFormed smoke tests, at most two tests a command with expected values from spec/95_test_vectors.md, and a
witness for the hypotheses of each statement. -/

namespace Sys2Proof.Tests

open Sys2Proof.Machine

/-! ## WellFormed: a term that each check refuses (R73) -/

theorem test_wf_refuses_kexpE_1 : (Instr.kexpE 1).wf = false := by decide
theorem test_wf_refuses_kexpD_1 : (Instr.kexpD 1).wf = false := by decide
theorem test_wf_refuses_crypt_1 : (Instr.crypt 1).wf = false := by decide
theorem test_wf_refuses_round_16 : (Instr.round 16).wf = false := by decide
theorem test_wf_refuses_gmul_1 : (Instr.gmul 1).wf = false := by decide
theorem test_wf_refuses_ginit_5 : (Instr.ginit 5).wf = false := by decide
theorem test_wf_refuses_gnonce_17 : (Instr.gnonce 17).wf = false := by decide
theorem test_wf_refuses_gnonceEnd_1 : (Instr.gnonceEnd 1).wf = false := by decide
theorem test_wf_refuses_gaad_17 : (Instr.gaad 17).wf = false := by decide
theorem test_wf_refuses_genc_17 : (Instr.genc 17).wf = false := by decide
theorem test_wf_refuses_gdec_31 : (Instr.gdec 31).wf = false := by decide
theorem test_wf_refuses_gfinish_0 : (Instr.gfinish 0).wf = false := by decide
theorem test_wf_refuses_gfinish_17 : (Instr.gfinish 17).wf = false := by decide
theorem test_wf_refuses_gverify_0 : (Instr.gverify 0).wf = false := by decide
theorem test_wf_refuses_gverify_17 : (Instr.gverify 17).wf = false := by decide

/-! ## Decoding: words written as RSV (19 bits), LEN (5 bits), OP (8 bits) -/

/-- A command word from its three fields, bit 31 first (R70). -/
def bits (rsv : BitVec 19) (len : BitVec 5) (op : BitVec 8) : Word := rsv ++ len ++ op

theorem test_decode_kexpE : decode (bits 0 0b00000 0b00000001) = .ok (.kexpE 0) := by decide
theorem test_decode_kexpD : decode (bits 0 0b00000 0b00000010) = .ok (.kexpD 0) := by decide
theorem test_decode_crypt : decode (bits 0 0b00000 0b00000011) = .ok (.crypt 0) := by decide
theorem test_decode_round : decode (bits 0 0b00000 0b00000100) = .ok (.round 0) := by decide
theorem test_decode_gmul : decode (bits 0 0b00000 0b00000101) = .ok (.gmul 0) := by decide
theorem test_decode_ginit : decode (bits 0 0b01100 0b00010000) = .ok (.ginit 12) := by decide
theorem test_decode_gnonce : decode (bits 0 0b10000 0b00010001) = .ok (.gnonce 16) := by decide
theorem test_decode_gnonceEnd : decode (bits 0 0b00000 0b00010010) = .ok (.gnonceEnd 0) := by decide
theorem test_decode_gaad : decode (bits 0 0b00101 0b00010011) = .ok (.gaad 5) := by decide
theorem test_decode_genc : decode (bits 0 0b00101 0b00010100) = .ok (.genc 5) := by decide
theorem test_decode_gdec : decode (bits 0 0b00101 0b00010101) = .ok (.gdec 5) := by decide
theorem test_decode_gfinish : decode (bits 0 0b00100 0b00010110) = .ok (.gfinish 4) := by decide
theorem test_decode_gverify : decode (bits 0 0b00100 0b00010111) = .ok (.gverify 4) := by decide
theorem test_decode_reserved_bit_13 : decode (bits 1 0b00000 0b00000011) = .error .reservedBits := by decide
theorem test_decode_undefined_op_18 : decode (bits 0 0b00000 0b00011000) = .error .undefinedOp := by decide
theorem test_decodeTableWord_gaad : decodeTableWord 32 0x00001013 = some (.gaad 16) := by decide

/-! ## Primitive functions (95_test_vectors.md L2-C1, L2-C2, L2-N) -/

theorem test_sbox_corners : sbox 0x00 = 0xd6 ∧ sbox 0xff = 0x48 ∧ sbox 0x7f = 0x9e ∧ sbox 0x80 = 0xea := by decide
theorem test_transforms :
    tau 0x01234567 = 0x90f473a2 ∧ roundT 0x01234567 = 0x6ef180c9 ∧ keyT 0x01234567 = 0xcfc85b85 := by decide +kernel
theorem test_rotations_turn_left : linL 0x80000000 = 0x80820202 ∧ linK 0x80000000 = 0x80401000 := by decide
theorem test_round_constants : roundCK 0 = 0x00070e15 ∧ roundCK 31 = 0x646b7279 := by decide
theorem test_inc32_wraps :
    inc32 0x00112233445566778899aabbffffffff = 0x00112233445566778899aabb00000000 := by decide +kernel

/-! ## One step of each command (95_test_vectors.md) -/

/-- The key KA of 95_test_vectors.md L2-G. -/
def keyA : Block := 0x0123456789abcdeffedcba9876543210

/-- The block, with nothing scheduled. -/
def st (d : Device) : State := { State.reset with dev := d }

/-- The block after a step, where the step has a next state. -/
def outDev (o : Host.Outcome State Fault Refusal) : Option Device :=
  match o with
  | .next t => some t.dev
  | .fault _ => none
  | .refused _ => none

/-- The block after the command word `w` is accepted and its step is taken. -/
def run (w : Word) (d : Device) : Option Device := outDev (step (st (accept w d)))

/-- A block with the given KEY, DIN and AUX. -/
def withRegs (key din aux : Block) : Device :=
  { Device.reset with key := Quad.ofBlock key, din := Quad.ofBlock din, aux := Quad.ofBlock aux }

/-- The session of L2-G5 after GINIT 12 and GAAD 5. -/
def sessionG5 : Session where
  phase := .aad
  grk := keyExpand keyA
  h := 0x2677f46b09c122cc975533105bd4a22a
  j0 := 0xcafebabefacedbaddecaf88800000001
  ctr := 0xcafebabefacedbaddecaf88800000001
  ks := 0
  acc := 0
  pbuf := 0xfeedfacede0000000000000000000000
  plen := 5
  alen := 40
  clen := 0
  nlen := 96

/-- The session of L2-G5 after GENC 5 (or GDEC 5, in its own phase). -/
def sessionG5text (p : Phase) : Session :=
  { sessionG5 with
    phase := p
    ctr := 0xcafebabefacedbaddecaf88800000002
    acc := 0xddbfe8a8dddde76f27382604c53a9d9a
    pbuf := 0x9a8fe20d4e0000000000000000000000
    clen := 40 }

theorem test_kexpE_schedule : (run 0x00000001 (withRegs keyA 0 0)).map
    (fun d => (d.brk[0], d.brk[31], statusWord d)) = some (0xf12186f9, 0x9124a012, 0x00000012) := by decide +kernel
theorem test_kexpD_schedule : (run 0x00000002 (withRegs keyA 0 0)).map
    (fun d => (d.brk[0], d.brk[31], statusWord d)) = some (0x9124a012, 0xf12186f9, 0x00000032) := by decide +kernel
theorem test_crypt_vector1 :
    (run 0x00000003 { withRegs keyA keyA 0 with brk := keyExpand keyA, keyValid := true }).map (·.dout.toBlock)
      = some 0x681edf34d206965e86b3e94f536e4246 := by decide +kernel
theorem test_crypt_no_key : (run 0x00000003 Device.reset).map (fun d => (statusWord d, d.dout))
    = some (0x00000406, Quad.zero) := by decide +kernel
theorem test_round_vector : (run 0x00000004 (withRegs 0 keyA 0xf12186f9000000000000000000000000)).map
    (fun d => (d.dout.toBlock, statusWord d)) = some (0x89abcdeffedcba987654321027fad345, 0x00000002) := by decide +kernel
theorem test_gmul_general : (run 0x00000005
    (withRegs 0 0x0388dace60b6a392f328c2b971b2fe78 0x66e94bd4ef8a2c3b884cfa59ca342b2e)).map (·.dout.toBlock)
      = some 0x5e2ec746917062882c85b0685353deb7 := by decide +kernel
theorem test_gmul_reduces : (run 0x00000005 (withRegs 0 1 0x40000000000000000000000000000000)).map (·.dout.toBlock)
    = some 0xe1000000000000000000000000000000 := by decide +kernel
theorem test_ginit_12 : (run 0x00000C10 (withRegs keyA 0xcafebabefacedbaddecaf88800000000 0)).map
    (fun d => (d.gcm.h, d.gcm.j0, d.gcm.nlen, statusWord d))
      = some (0x2677f46b09c122cc975533105bd4a22a, 0xcafebabefacedbaddecaf88800000001, 96, 0x00020002) := by decide +kernel
theorem test_ginit_0 : (run 0x00000010 Device.reset).map (fun d => (d.gcm.h, d.gcm.grk[0], statusWord d))
    = some (0x9f1f7bff6f5511384d9430531e538fd3, 0x45603b23, 0x00010002) := by decide +kernel
theorem test_gnonce_16_folds : (run 0x00001011 { withRegs keyA 0x000102030405060708090a0b0c0d0e0f 0 with
    gcm := sessionStart keyA }).map (fun d => (d.gcm.plen, d.gcm.nlen, d.gcm.acc))
      = some (0, 128, 0xb9fa0d5121996352a6b3b80328fc40da) := by decide +kernel
theorem test_gnonceEnd_20_bytes : (run 0x00000012 { Device.reset with gcm := { sessionStart keyA with
    acc := 0xb9fa0d5121996352a6b3b80328fc40da, pbuf := 0x10111213000000000000000000000000, plen := 4, nlen := 160 } }).map
      (fun d => (d.gcm.j0, d.gcm.ctr, d.gcm.phase))
      = some (0x6f6a518865f7d0abf01a5ff604681e15, 0x6f6a518865f7d0abf01a5ff604681e15, .init) := by decide +kernel
theorem test_gaad_5_keeps_tail : (run 0x00000513 { withRegs keyA 0xfeedfacede0000000000000000000000 0 with
    gcm := { sessionG5 with phase := .init, pbuf := 0, plen := 0, alen := 0 } }).map (·.gcm) = some sessionG5 := by
  decide +kernel
theorem test_gaad_17_before_sequence : (run 0x00001113 Device.reset).map statusWord = some 0x00000206 := by decide +kernel
theorem test_genc_5 : (run 0x00000514 { withRegs keyA 0xd9313225f80000000000000000000000 0 with gcm := sessionG5 }).map
    (fun d => (d.dout.toBlock, d.gcm.acc, d.gcm.ctr, d.gcm.plen, d.gcm.clen)) = some
      (0x9a8fe20d4e0000000000000000000000, 0xddbfe8a8dddde76f27382604c53a9d9a, 0xcafebabefacedbaddecaf88800000002, 5, 40) := by
  decide +kernel
theorem test_genc_0_flushes_aad : (run 0x00000014 { withRegs keyA 0 0 with gcm := sessionG5 }).map
    (fun d => (d.gcm.acc, d.gcm.plen, d.dout, d.gcm.phase))
      = some (0xddbfe8a8dddde76f27382604c53a9d9a, 0, Quad.zero, .dataEnc) := by decide +kernel
theorem test_gdec_5 : (run 0x00000515 { withRegs keyA 0x9a8fe20d4e0000000000000000000000 0 with gcm := sessionG5 }).map
    (fun d => (d.dout.toBlock, d.gcm.acc, d.gcm.pbuf)) = some (0xd9313225f80000000000000000000000,
      0xddbfe8a8dddde76f27382604c53a9d9a, 0x9a8fe20d4e0000000000000000000000) := by decide +kernel
theorem test_gfinish_4_truncates : (run 0x00000416 { Device.reset with gcm := sessionG5text .dataEnc }).map
    (fun d => (d.dout.toBlock, d.gcm.acc)) = some (0x2502d50f000000000000000000000000,
      0x8382fc258a659cf054333239163a565f) := by decide +kernel
theorem test_gfinish_16 : (run 0x00001016 { Device.reset with gcm := sessionG5text .dataEnc }).map (·.dout.toBlock)
    = some 0x2502d50f6791ba756f9d5500cfb5186f := by decide +kernel
theorem test_gverify_accepts : (run 0x00000417 { withRegs 0 0 0x2502d50f000000000000000000000000 with
    gcm := sessionG5text .dataDec }).map (fun d => (statusWord d, d.dout)) = some (0x0006000A, Quad.zero) := by
  decide +kernel
theorem test_gverify_rejects : (run 0x00000417 { withRegs 0 0 0x2502d50e000000000000000000000000 with
    gcm := sessionG5text .dataDec }).map (fun d => (statusWord d, d.dout)) = some (0x00060506, Quad.zero) := by
  decide +kernel

/-! ## Registers (95_test_vectors.md L2-R, L2-E) -/

theorem test_illegal_word : (run 0x00002003 Device.reset).map statusWord = some 0x00000106 := by decide +kernel
theorem test_overrun_status : statusWord (writeReg (regAt 0x020) 5 (accept 0x12 Device.reset)) = 0x00000041 := by decide
theorem test_status_write_clears : (run 0x00000012 (setOverrun Device.reset)).map
    (fun d => (statusWord d, statusWord (writeReg (regAt 0x008) 0x42 d))) = some (0x00000346, 0x00000304) := by
  decide +kernel
theorem test_reset_registers_read_zero : (List.range 64).all
    (fun w => w == 0 || trueValue (regAtWord w) Device.reset == 0) = true := by decide +kernel
theorem test_assemble_gaad_16 : assemble "gaad" (some 16) = some 0x00001013 := by decide +kernel
theorem test_gnonce_all_20 : gnonceAll 20 = [.ginit 0, .gnonce 16, .gnonce 4, .gnonceEnd 0] := by decide +kernel
/-- R238: a reset input that is left comes after the end; a host access that is left comes before it. -/
theorem test_end_of_run : (State.reset.before .reset).ended ∧ ¬ (State.reset.before (readTurn 0x008)).ended
    ∧ ¬ (st (accept 0x05 Device.reset)).ended :=
  ⟨⟨rfl, rfl⟩, fun h => Bool.noConfusion h.1, fun h => Bool.noConfusion h.2⟩
theorem test_ecb_checks_alignment (s : State) : ecb 0 [0] s = .failed .invalidLength s := rfl

/-! # Witnesses

For each statement of Obligations.lean that has hypotheses, a state and operands that meet them all together, with a
witness for each clause at the boundary values of its range. -/

/-- A block with the word `w` accepted and not yet completed. -/
def busyWith (w : Word) : State := st (accept w Device.reset)

/-- A block in the given phase, otherwise as after reset. -/
def inPhase (p : Phase) : State := st { Device.reset with gcm := { Session.reset with phase := p } }

/-- A block whose session has `k` unfolded bytes, all 0, in the given phase. -/
def withTail (p : Phase) (k : Fin 16) : State :=
  st { Device.reset with gcm := { Session.reset with phase := p, plen := k } }

theorem carryInv_of_pbuf_zero {g : Session} (h : g.pbuf = 0) : g.CarryInv := fun j _ _ => h ▸ byteAt_zero j

/-! ## The engine's step and the checks -/

theorem witness_StepRunsTheDecodedCommand :
    Ran (.gmul 0) (busyWith 0x05) (busyWith 0x05)
      ∧ Ran (.gmul 0) ((busyWith 0x05).before .engine) (busyWith 0x05) :=
  ⟨⟨⟨rfl, .inl ⟨rfl, rfl⟩⟩, by decide⟩, ⟨⟨rfl, .inr rfl⟩, by decide⟩⟩

theorem witness_EveryAcceptedCommandCompletes :
    EngineNext (busyWith 0) (busyWith 0) ∧ EngineNext ((busyWith 0).before .engine) (busyWith 0) :=
  ⟨⟨rfl, .inl ⟨rfl, rfl⟩⟩, ⟨rfl, .inr rfl⟩⟩

theorem witness_IllegalCommandRaised :
    EngineNext (busyWith 0) (busyWith 0) ∧ ∃ t, step (busyWith 0) = .next t ∧ t.dev.errCode = .illegalCmd :=
  ⟨⟨rfl, .inl ⟨rfl, rfl⟩⟩, _, rfl, by decide⟩

theorem witness_IllegalCommandRaised_boundary :
    ([0x00, 0x06, 0x0F, 0x18, 0xFF, 0x2001, 0x80000001].all fun w =>
      (run w Device.reset).map (·.errCode) == some .illegalCmd) = true
    ∧ ([0x01, 0x05, 0x10, 0x17, 0x1F01].all fun w =>
      ((run w Device.reset).map (·.errCode)).any (· != .illegalCmd)) = true := by decide +kernel

theorem witness_InvalidLengthRaised : (Instr.gaad 17).wf = false ∧ (Instr.gaad 16).wf = true
    ∧ (Instr.gfinish 0).wf = false ∧ (Instr.gfinish 1).wf = true := by decide

theorem witness_SequenceRaised : (Instr.gaad 3).wf = true ∧ Phase.nonce ∉ allowedPhases (.gaad 3)
    ∧ Phase.aad ∈ allowedPhases (.gaad 3) := by decide

theorem witness_NoKeyRaised : ∃ t, exec (.crypt 0) State.reset = .next t ∧ t.dev.errCode = .noKey :=
  ⟨_, rfl, by decide +kernel⟩

theorem witness_AuthFailRaised : ∃ t, exec (.gverify 1) (inPhase .init) = .next t ∧ t.dev.errCode = .authFail :=
  ⟨_, rfl, by decide +kernel⟩

/-! ## Cipher core -/

/-- The key recurrence's words for the zero key. -/
def zeroKeyWords (i : Nat) : Word := if i < 4 then tableFK.getD i 0 else (keyExpand 0).toList.getD (i - 4) 0

theorem witness_KeyExpansionCommandsComplete : KeySequence State.reset.dev.key.toBlock zeroKeyWords :=
  ⟨by decide +kernel, by decide +kernel⟩

/-- The rounds' words for a zero schedule and a zero block. -/
def zeroRounds : Nat → Quad
  | 0 => Quad.zero
  | n + 1 => roundStep (zeroRounds n) 0

theorem witness_CryptCompletes :
    (st { Device.reset with keyValid := true }).dev.keyValid = true
      ∧ RoundSequence (st { Device.reset with keyValid := true }).dev.brk
          (st { Device.reset with keyValid := true }).dev.din.toBlock (fun i => (zeroRounds i).w0) :=
  ⟨rfl, by decide +kernel, fun i h => by
    have hz : (st { Device.reset with keyValid := true }).dev.brk[i] = 0 := by
      simp [st, Device.reset, RoundKeys.zero]
    rw [hz]
    rfl⟩

theorem witness_LinearTransformsRotateLeft : (0 : Nat) < 32 ∧ (31 : Nat) < 32 := by decide

theorem witness_DecryptionUndoesEncryption : ∃ a b c d, exec (.kexpE 0) State.reset = .next a
    ∧ exec (.crypt 0) a = .next b ∧ exec (.kexpD 0) b = .next c
    ∧ exec (.crypt 0) { c with dev := { c.dev with din := b.dev.dout } } = .next d :=
  ⟨_, _, _, _, rfl, rfl, rfl, rfl⟩

theorem witness_GmulCompletes :
    State.reset.dev.din = Quad.zero ∧ (withRegs 0 0x80000000000000000000000000000000 5).din = ⟨0x80000000, 0, 0, 0⟩ := by
  decide +kernel

/-! ## GCM -/

theorem witness_AbsorbAndFlushClosedForm : (withTail .nonce 15).dev.gcm.CarryInv ∧ (withTail .nonce 0).dev.gcm.CarryInv
    ∧ ([] : List Byte).length ≤ 16 ∧ (List.replicate 16 (0 : Byte)).length ≤ 16 :=
  ⟨carryInv_of_pbuf_zero rfl, carryInv_of_pbuf_zero rfl, by decide, by decide⟩

theorem witness_GnonceCompletes : (0 : BitVec 5).toNat ≤ 16 ∧ (16 : BitVec 5).toNat ≤ 16
    ∧ (withTail .nonce 15).dev.gcm.phase = .nonce ∧ (withTail .nonce 15).dev.gcm.CarryInv :=
  ⟨by decide, by decide, rfl, carryInv_of_pbuf_zero rfl⟩

theorem witness_GnonceEndCompletes : (inPhase .nonce).dev.gcm.phase = .nonce ∧ (inPhase .nonce).dev.gcm.nlen ≠ 96
    ∧ { sessionStart keyA with nlen := 96 }.phase = .nonce :=
  ⟨rfl, by decide, rfl⟩

theorem witness_GaadCompletes : (16 : BitVec 5).toNat ≤ 16 ∧ (inPhase .init).dev.gcm.phase = .init
    ∧ (withTail .aad 15).dev.gcm.phase = .aad ∧ (withTail .aad 15).dev.gcm.CarryInv :=
  ⟨by decide, rfl, rfl, carryInv_of_pbuf_zero rfl⟩

theorem witness_GencCompletes : (0 : BitVec 5).toNat ≤ 16 ∧ (16 : BitVec 5).toNat ≤ 16
    ∧ (inPhase .init).dev.gcm.phase = .init ∧ (withTail .aad 15).dev.gcm.phase = .aad
    ∧ (withTail .dataEnc 15).dev.gcm.phase = .dataEnc ∧ (withTail .dataEnc 15).dev.gcm.CarryInv
    ∧ startsBlock (withTail .dataEnc 0).dev.gcm 1 ∧ ¬ startsBlock (withTail .dataEnc 0).dev.gcm 0
    ∧ startsBlock (withTail .dataEnc 15).dev.gcm 2 ∧ ¬ startsBlock (withTail .dataEnc 15).dev.gcm 1 :=
  ⟨by decide, by decide, rfl, rfl, rfl, carryInv_of_pbuf_zero rfl, .inl ⟨rfl, by decide⟩, by unfold startsBlock; decide,
   .inr (by decide), by unfold startsBlock; decide⟩

theorem witness_GdecCompletes : (0 : BitVec 5).toNat ≤ 16 ∧ (16 : BitVec 5).toNat ≤ 16
    ∧ (inPhase .init).dev.gcm.phase = .init ∧ (withTail .aad 15).dev.gcm.phase = .aad
    ∧ (withTail .dataDec 15).dev.gcm.phase = .dataDec ∧ (withTail .dataDec 15).dev.gcm.CarryInv
    ∧ startsBlock (withTail .dataDec 0).dev.gcm 1 ∧ ¬ startsBlock (withTail .dataDec 0).dev.gcm 0
    ∧ startsBlock (withTail .dataDec 15).dev.gcm 2 ∧ ¬ startsBlock (withTail .dataDec 15).dev.gcm 1 :=
  ⟨by decide, by decide, rfl, rfl, rfl, carryInv_of_pbuf_zero rfl, .inl ⟨rfl, by decide⟩, by unfold startsBlock; decide,
   .inr (by decide), by unfold startsBlock; decide⟩

theorem witness_GfinishCompletes : 1 ≤ (1 : BitVec 5).toNat ∧ (1 : BitVec 5).toNat ≤ 16 ∧ 1 ≤ (16 : BitVec 5).toNat
    ∧ (16 : BitVec 5).toNat ≤ 16 ∧ (inPhase .init).dev.gcm.phase ∈ [.init, .aad, .dataEnc, .dataDec]
    ∧ (inPhase .dataDec).dev.gcm.phase ∈ [.init, .aad, .dataEnc, .dataDec] ∧ (inPhase .init).dev.gcm.CarryInv :=
  ⟨by decide, by decide, by decide, by decide, by decide, by decide, carryInv_of_pbuf_zero rfl⟩

theorem witness_GverifyCompletes : 1 ≤ (1 : BitVec 5).toNat ∧ (1 : BitVec 5).toNat ≤ 16
    ∧ (inPhase .init).dev.gcm.phase ∈ [.init, .aad, .dataEnc, .dataDec]
    ∧ (∃ j, j < (1 : BitVec 5).toNat
        ∧ byteAt (tagOf (inPhase .init).dev.gcm) j ≠ byteAt (inPhase .init).dev.aux.toBlock j) :=
  ⟨by decide, by decide, by decide, 0, by decide, by decide +kernel⟩

/-- A block in INIT whose AUX holds the tag of the empty message under the zero schedule. -/
def rightTag : State :=
  st { Device.reset with
    aux := Quad.ofBlock (tagOf { Session.reset with phase := .init })
    gcm := { Session.reset with phase := .init } }

theorem witness_GverifyCompletes_match : 1 ≤ (16 : BitVec 5).toNat ∧ (16 : BitVec 5).toNat ≤ 16
    ∧ rightTag.dev.gcm.CarryInv ∧ rightTag.dev.gcm.phase ∈ [.init, .aad, .dataEnc, .dataDec]
    ∧ (∀ j, j < (16 : BitVec 5).toNat → byteAt (tagOf rightTag.dev.gcm) j = byteAt rightTag.dev.aux.toBlock j) :=
  ⟨by decide, by decide, carryInv_of_pbuf_zero rfl, by decide, by decide +kernel⟩

theorem statusInv_accept (w : Word) {d : Device} (h : d.StatusInv) : (accept w d).StatusInv :=
  ⟨by simp, fun _ => ⟨rfl, rfl, rfl, rfl⟩, fun h => (by cases h), h.noKey⟩

theorem statusInv_reset : Device.reset.StatusInv :=
  ⟨by decide, fun h => (by cases h), fun h => (by cases h), fun _ => ⟨rfl, rfl⟩⟩

theorem witness_AuthOkRule : ∃ s t : State, step s = .next t ∧ s.dev.StatusInv ∧ Ran (.gverify 16) s s
    ∧ t.dev.authOk = true ∧ s.dev.authOk = false :=
  ⟨{ rightTag with dev := accept 0x1017 rightTag.dev }, _, rfl,
   statusInv_accept _ ⟨by decide, fun h => (by cases h), fun h => (by cases h), fun _ => ⟨rfl, rfl⟩⟩,
   ⟨⟨rfl, .inl ⟨rfl, rfl⟩⟩, by decide⟩, by decide +kernel, rfl⟩

theorem witness_AuthOkRule_acceptance_and_reset :
    (∃ t, step (State.reset.before (writeTurn 0x00C 0x1017)) = .next t ∧ t.dev.busy = true)
      ∧ (∃ t, step (rightTag.before .reset) = .next t) :=
  ⟨⟨_, step_writeTurn _ _ _ (by decide) (by decide), rfl⟩, _, rfl⟩

theorem witness_GdecUndoesGenc : ∃ e, (16 : BitVec 5).toNat ≤ 16 ∧ (withTail .dataEnc 15).dev.gcm.phase = .dataEnc
    ∧ (withTail .dataDec 15).dev.gcm = { (withTail .dataEnc 15).dev.gcm with phase := .dataDec }
    ∧ exec (.genc 16) (withTail .dataEnc 15) = .next e
    ∧ ((withTail .dataDec 15).withDin e.dev.dout.toBlock).dev.gcm = (withTail .dataDec 15).dev.gcm
    ∧ (∀ j, j < (16 : BitVec 5).toNat →
        byteAt ((withTail .dataDec 15).withDin e.dev.dout.toBlock).dev.din.toBlock j = byteAt e.dev.dout.toBlock j) :=
  ⟨_, by decide, rfl, rfl, rfl, rfl, fun j _ => by simp [State.withDin]⟩

theorem witness_GdecUndoesGenc_first_command : (inPhase .init).dev.gcm.phase = .init
    ∧ (withTail .aad 15).dev.gcm.phase = .aad ∧ (0 : BitVec 5).toNat ≤ 16 := by decide

theorem witness_SplitCommandsAreEquivalent : ∃ t u v, (16 : BitVec 5).toNat = (5 : BitVec 5).toNat + (11 : BitVec 5).toNat
    ∧ (16 : BitVec 5).toNat ≤ 16 ∧ (withTail .aad 15).dev.gcm.phase ∈ allowedPhases (.genc 0)
    ∧ (∀ j, j < (11 : BitVec 5).toNat → byteAt 0 j = byteAt 0 ((5 : BitVec 5).toNat + j))
    ∧ exec (.genc 16) ((withTail .aad 15).withDin 0) = .next t
    ∧ exec (.genc 5) ((withTail .aad 15).withDin 0) = .next u ∧ exec (.genc 11) (u.withDin 0) = .next v :=
  ⟨_, _, _, by decide, by decide, by decide, fun j _ => by rw [byteAt_zero, byteAt_zero], rfl, rfl, rfl⟩

theorem witness_StreamedNonceGivesJ0 : ∃ p q u out, exec (.ginit 0) State.reset = .next p
    ∧ sendChunks .gnonce [((5 : BitVec 5), (0 : Block)), (7, 0)] p = some (q, out) ∧ exec (.gnonceEnd 0) q = .next u
    ∧ (chunkBytes [((5 : BitVec 5), (0 : Block)), (7, 0)]).length = 12 :=
  ⟨_, _, _, _, rfl, rfl, rfl, by decide⟩

theorem witness_StreamedNonceGivesJ0_other_length : ∃ p q u out, exec (.ginit 0) State.reset = .next p
    ∧ sendChunks .gnonce [] p = some (q, out) ∧ exec (.gnonceEnd 0) q = .next u
    ∧ 8 * (chunkBytes []).length % 2 ^ 64 ≠ 96 :=
  ⟨_, _, _, _, rfl, rfl, rfl, by decide⟩

/-- A session in INIT under the zero schedule, with J0 = 0. -/
def initSession : Session := { Session.reset with phase := .init, h := cipher RoundKeys.zero 0 }

theorem phaseInv_initSession : initSession.PhaseInv :=
  ⟨fun h => (by cases h), fun _ => rfl, by decide, fun h => (by cases h), fun _ => ⟨rfl, rfl, rfl, rfl, rfl, rfl, rfl⟩,
   fun h => (by cases h), fun h => (by rcases h with h | h <;> cases h), fun h => (by cases h)⟩

theorem witness_SessionTagIsGcm : (st { Device.reset with gcm := initSession }).dev.gcm.phase = .init
    ∧ (st { Device.reset with gcm := initSession }).dev.gcm.PhaseInv
    ∧ (∀ c ∈ [((16 : BitVec 5), (0 : Block)), (0, 0)], c.1.toNat ≤ 16) :=
  ⟨rfl, phaseInv_initSession, by simp⟩

theorem witness_VerificationAcceptsOnlyTheTag : (st { Device.reset with gcm := initSession }).dev.gcm.phase = .init
    ∧ (st { Device.reset with gcm := initSession }).dev.gcm.PhaseInv
    ∧ (st { Device.reset with gcm := initSession }).dev.authOk = false
    ∧ (∀ c ∈ [((16 : BitVec 5), (0 : Block)), (0, 0)], c.1.toNat ≤ 16) :=
  ⟨rfl, phaseInv_initSession, rfl, by simp⟩

/-! ## Registers -/

theorem witness_RegisterWordsAreBigEndianBlockWords : (0 : Nat) < 4 ∧ (3 : Nat) < 4 := by decide

theorem witness_WritingFourWordsStoresTheBlock : State.reset.dev.busy = false ∧ (0 : Nat) < 4 ∧ (3 : Nat) < 4 :=
  ⟨rfl, by decide⟩

theorem witness_ReadsHaveNoSideEffect : ∃ t v x, step (State.reset.before (readTurn 0x008)) = .next t
    ∧ State.reset.dev.busy = false ∧ t.dev = State.reset.dev ∧ step (t.before (readTurn 0x008)) = .next v
    ∧ step ((busyWith 0).before (readTurn 0x03C)) = .next x ∧ (busyWith 0).dev.busy = true
    ∧ ((0x03C : Nat) ≠ 0x008 ∧ ((0x03C : Nat) < 0x040 ∨ 0x060 ≤ (0x03C : Nat))) :=
  ⟨_, _, _, step_readTurn _ _ (by decide) (by decide), rfl, rfl, step_readTurn _ _ (by decide) (by decide),
    step_readTurn _ _ (by decide) (by decide), rfl, by decide⟩

theorem witness_IdleReadsFollowTheRegisterMap : State.reset.dev.busy = false
    ∧ ∀ off ∈ [0x000, 0x004, 0x00C, 0x01C, 0x020, 0x02C, 0x030, 0x03C, 0x040, 0x04C, 0x050, 0x054, 0x058, 0x05C,
        0x060, 0x0FC], off % 4 = 0 ∧ off < 0x100 :=
  ⟨rfl, by decide⟩

theorem witness_StatusLayoutAndWriteOneToClear : State.reset.dev.busy = false ∧ (busyWith 0).dev.busy = true
    ∧ (∀ c : ErrCode, (st { Device.reset with errCode := c }).dev.busy = false)
    ∧ (∀ p : Phase, (inPhase p).dev.busy = false ∧ (inPhase p).dev.gcm.phase = p) :=
  ⟨rfl, rfl, fun _ => rfl, fun _ => ⟨rfl, rfl⟩⟩

theorem witness_WritesToReadOnlySpaceAreIgnored : ∀ off ∈ [0x000, 0x040, 0x05C, 0x060, 0x0FC],
    off % 4 = 0 ∧ (off = 0x000 ∨ (0x040 ≤ off ∧ off < 0x100)) := by decide

theorem witness_CmdWriteIsAccepted : State.reset.dev.busy = false ∧ (busyWith 0).dev.busy = true := ⟨rfl, rfl⟩

theorem witness_BusyWritesAreDropped : (busyWith 0).dev.busy = true
    ∧ (∀ off ∈ [0x00C, 0x010, 0x03C], off % 4 = 0 ∧ 0x00C ≤ off ∧ off ≤ 0x03C)
    ∧ (∀ off ∈ [0x004, 0x008], off % 4 = 0 ∧ (off = 0x004 ∨ off = 0x008)) :=
  ⟨rfl, by decide, by decide⟩

theorem witness_BusyReadsAreFreeDraws : (busyWith 0).dev.busy = true
    ∧ (∀ off ∈ [0x040, 0x05C], off % 4 = 0 ∧ off < 0x100 ∧ 0x040 ≤ off ∧ off ≤ 0x05C)
    ∧ (∀ off ∈ [0x060, 0x0FC], off % 4 = 0 ∧ off < 0x100 ∧ 0x060 ≤ off)
    ∧ (∀ off ∈ [0x000, 0x004, 0x00C, 0x01C, 0x020, 0x02C, 0x030, 0x03C], off % 4 = 0 ∧ off < 0x040 ∧ off ≠ 0x008) :=
  ⟨rfl, by decide, by decide, by decide⟩

theorem witness_SecretsAreNotReadable : SameVisible State.reset.dev (st { Device.reset with
      key := Quad.ofBlock keyA, gcm := { Session.reset with h := 1 } }).dev
    ∧ (0x040 : Nat) % 4 = 0 ∧ (0x040 : Nat) < 0x100 :=
  ⟨⟨rfl, rfl, rfl, rfl, rfl, rfl, rfl, rfl, rfl, rfl, rfl, rfl, rfl, rfl, rfl⟩, by decide, by decide⟩

theorem witness_CompletionRaisesTheInterrupt :
    (∃ t, step (busyWith 0) = .next t ∧ EngineNext (busyWith 0) (busyWith 0))
      ∧ (∃ t, step (State.reset.before (writeTurn 0x008 2)) = .next t ∧ (2 : Word).getLsbD 1 = true)
      ∧ (∃ t, step (State.reset.before (writeTurn 0x00C 0)) = .next t ∧ State.reset.dev.busy = false) :=
  ⟨⟨_, rfl, rfl, .inl ⟨rfl, rfl⟩⟩, ⟨_, step_writeTurn _ _ _ (by decide) (by decide), by decide⟩,
   ⟨_, step_writeTurn _ _ _ (by decide) (by decide), rfl⟩⟩

/-! ## Rules about the whole machine, and invariants -/

theorem witness_OnlyAcceptanceAndCompletionWriteBusy :
    (∃ t, step (State.reset.before (writeTurn 0x00C 0)) = .next t ∧ t.dev.busy ≠ State.reset.dev.busy)
      ∧ (∃ t, step (busyWith 0) = .next t ∧ t.dev.busy ≠ (busyWith 0).dev.busy)
      ∧ (∃ t, step ((busyWith 0).before .reset) = .next t ∧ t.dev.busy ≠ (busyWith 0).dev.busy) :=
  ⟨⟨_, step_writeTurn _ _ _ (by decide) (by decide), by decide⟩, ⟨_, rfl, by decide⟩, ⟨_, rfl, by decide⟩⟩

theorem witness_OverrunIsSticky :
    (∃ t, step ((busyWith 0).before (writeTurn 0x020 5)) = .next t ∧ (busyWith 0).dev.busy = true
      ∧ t.dev.overrun = true ∧ (busyWith 0).dev.overrun = false)
    ∧ (∃ t, step ((st (setOverrun Device.reset)).before (writeTurn 0x008 0x40)) = .next t ∧ t.dev.overrun = false
      ∧ (st (setOverrun Device.reset)).dev.overrun = true) :=
  ⟨⟨_, step_writeTurn _ _ _ (by decide) (by decide), rfl, by decide, rfl⟩,
   ⟨_, step_writeTurn _ _ _ (by decide) (by decide), by decide, rfl⟩⟩

theorem witness_OnlyKeyExpansionWritesKeys : ∃ t, step (busyWith 0x01) = .next t ∧ ¬ KeepsKeys (busyWith 0x01).dev t.dev :=
  ⟨_, rfl, fun h => absurd h.keyValid (by decide +kernel)⟩

theorem witness_SessionMovesByThePhaseTable : ∃ t, step (busyWith 0x10) = .next t ∧ t.dev.gcm ≠ (busyWith 0x10).dev.gcm
    ∧ Ran (.ginit 0) (busyWith 0x10) (busyWith 0x10) ∧ (Instr.ginit 0).wf = true
    ∧ (busyWith 0x10).dev.gcm.phase ∈ allowedPhases (.ginit 0) :=
  ⟨_, rfl, fun h => absurd (congrArg Session.phase h) (by decide +kernel), ⟨⟨rfl, .inl ⟨rfl, rfl⟩⟩, by decide⟩, by decide,
   by decide⟩

theorem witness_SessionIgnoresBlockKeys : isGcm (.gfinish 16) = true ∧ ∃ t, exec (.gfinish 16) (inPhase .init) = .next t :=
  ⟨rfl, _, rfl⟩

theorem witness_StepKeepsTheCarryInvariant : (withTail .aad 15).dev.gcm.CarryInv
    ∧ ∃ t, step { withTail .aad 15 with dev := accept 0x0113 (withTail .aad 15).dev } = .next t :=
  ⟨carryInv_of_pbuf_zero rfl, _, rfl⟩

theorem witness_StepKeepsTheStatusInvariant : (busyWith 0x01).dev.StatusInv ∧ ∃ t, step (busyWith 0x01) = .next t :=
  ⟨statusInv_accept _ statusInv_reset, _, rfl⟩

theorem witness_StepKeepsThePhaseInvariant : initSession.PhaseInv
    ∧ ∃ t, step (st (accept 0x0514 { Device.reset with gcm := initSession })) = .next t :=
  ⟨phaseInv_initSession, _, rfl⟩

theorem witness_StepKeepsTheCounterInvariant : initSession.PhaseInv ∧ initSession.CounterInv
    ∧ ∃ t, step (st (accept 0x0514 { Device.reset with gcm := initSession })) = .next t :=
  ⟨phaseInv_initSession, fun _ _ => rfl, _, rfl⟩

end Sys2Proof.Tests
end

section
/-! SUPPORT. What one step does to the block and to the GCM session, said once: the effects of a host write by
offset, the outcomes of the engine's step, and the session after each GCM command. -/

namespace Sys2Proof.Machine

/-! ## The register map -/

theorem regAt_key {k : Nat} (hk : k < 4) : regAt (0x010 + 4 * k) = .key k := by
  interval_cases k <;> rfl

theorem regAt_din {k : Nat} (hk : k < 4) : regAt (0x020 + 4 * k) = .din k := by
  interval_cases k <;> rfl

theorem regAt_aux {k : Nat} (hk : k < 4) : regAt (0x030 + 4 * k) = .aux k := by
  interval_cases k <;> rfl

theorem regAt_dout {k : Nat} (hk : k < 4) : regAt (0x040 + 4 * k) = .dout k := by
  interval_cases k <;> rfl

theorem regAt_reserved {off : Nat} (h : 0x060 ≤ off) : regAt off = .reserved := by
  obtain ⟨w, hw⟩ : ∃ w, off / 4 = w + 24 := ⟨off / 4 - 24, by omega⟩
  rw [regAt, hw]
  rfl

/-- An aligned offset in a group of four registers is that of one of its words. -/
theorem exists_word_of_offset {base off : Nat} (hb : base % 4 = 0) (h4 : off % 4 = 0) (h1 : base ≤ off)
    (h2 : off ≤ base + 0x00C) : ∃ k, k < 4 ∧ off = base + 4 * k :=
  ⟨(off - base) / 4, by omega, by omega⟩

/-! ## A host write -/

/-- What a host write to an aligned offset can do to the block (10_state.md R22, R23; 70_reset_and_hazards.md R234). -/
inductive WriteEffect (off : Nat) (v : Word) (d : Device) : Device → Prop where
  /-- ID, DOUT, ALEN, CLEN and the reserved offsets ignore writes. -/
  | ignored : off = 0x000 ∨ 0x040 ≤ off → WriteEffect off v d d
  | ctrl : off = 0x004 → WriteEffect off v d (writeCtrl v d)
  | status : off = 0x008 → WriteEffect off v d (writeStatus v d)
  | accepted : off = 0x00C → d.busy = false → WriteEffect off v d (accept v d)
  /-- A word of KEY, DIN or AUX is written. -/
  | stored (key din aux : Quad) : 0x010 ≤ off → off ≤ 0x03C → d.busy = false →
      WriteEffect off v d { d with key := key, din := din, aux := aux }
  | dropped : 0x00C ≤ off → off ≤ 0x03C → d.busy = true → WriteEffect off v d (setOverrun d)

theorem whenIdle_of_idle {d : Device} (h : d.busy = false) (e : Device) : whenIdle d e = e := by
  simp [whenIdle, h]

theorem whenIdle_of_busy {d : Device} (h : d.busy = true) (e : Device) : whenIdle d e = setOverrun d := by
  simp [whenIdle, h]

/-- A write to a register that is closed while BUSY = 1 is made or dropped. -/
theorem writeEffect_whenIdle {off : Nat} {v : Word} {d e : Device} (h1 : 0x00C ≤ off) (h2 : off ≤ 0x03C)
    (h : d.busy = false → WriteEffect off v d e) : WriteEffect off v d (whenIdle d e) := by
  cases hb : d.busy with
  | false => rw [whenIdle_of_idle hb]; exact h hb
  | true => rw [whenIdle_of_busy hb]; exact .dropped h1 h2 hb

theorem writeEffect_writeReg {off : Nat} (h4 : off % 4 = 0) (v : Word) (d : Device) :
    WriteEffect off v d (writeReg (regAt off) v d) := by
  obtain rfl | rfl | rfl | rfl | h | h | h | h | h | h : off = 0x000 ∨ off = 0x004 ∨ off = 0x008 ∨ off = 0x00C
      ∨ (0x010 ≤ off ∧ off ≤ 0x010 + 0x00C) ∨ (0x020 ≤ off ∧ off ≤ 0x020 + 0x00C)
      ∨ (0x030 ≤ off ∧ off ≤ 0x030 + 0x00C) ∨ (0x040 ≤ off ∧ off ≤ 0x040 + 0x00C)
      ∨ (off = 0x050 ∨ off = 0x054 ∨ off = 0x058 ∨ off = 0x05C) ∨ 0x060 ≤ off := by omega
  · exact .ignored (by decide)
  · exact .ctrl rfl
  · exact .status rfl
  · exact writeEffect_whenIdle (by decide) (by decide) (.accepted rfl)
  · obtain ⟨k, hk, rfl⟩ := exists_word_of_offset (by decide) h4 h.1 h.2
    rw [regAt_key hk]
    exact writeEffect_whenIdle (by omega) (by omega) (.stored _ d.din d.aux (by omega) (by omega))
  · obtain ⟨k, hk, rfl⟩ := exists_word_of_offset (by decide) h4 h.1 h.2
    rw [regAt_din hk]
    exact writeEffect_whenIdle (by omega) (by omega) (.stored d.key _ d.aux (by omega) (by omega))
  · obtain ⟨k, hk, rfl⟩ := exists_word_of_offset (by decide) h4 h.1 h.2
    rw [regAt_aux hk]
    exact writeEffect_whenIdle (by omega) (by omega) (.stored d.key d.din _ (by omega) (by omega))
  · obtain ⟨k, hk, rfl⟩ := exists_word_of_offset (by decide) h4 h.1 h.2
    rw [regAt_dout hk]
    exact .ignored (by omega)
  · obtain rfl | rfl | rfl | rfl := h <;> exact .ignored (by decide)
  · rw [regAt_reserved h]
    exact .ignored (by omega)

/-! ## The engine's step -/

/-- The two checks of LEN, each written from R73, agree. -/
theorem wf_eq_legalLen (i : Instr) : i.wf = legalLen i := by
  cases i with
  | kexpE n => exact Laws.LegalLen.kexpE n
  | kexpD n => exact Laws.LegalLen.kexpD n
  | crypt n => exact Laws.LegalLen.crypt n
  | round n => exact Laws.LegalLen.round n
  | gmul n => exact Laws.LegalLen.gmul n
  | ginit n => exact Laws.LegalLen.ginit n
  | gnonce n => exact Laws.LegalLen.gnonce n
  | gnonceEnd n => exact Laws.LegalLen.gnonceEnd n
  | gaad n => exact Laws.LegalLen.gaad n
  | genc n => exact Laws.LegalLen.genc n
  | gdec n => exact Laws.LegalLen.gdec n
  | gfinish n => exact Laws.LegalLen.gfinish n
  | gverify n => exact Laws.LegalLen.gverify n

/-- The engine's phase check is the table of 42_gcm.md R141. -/
theorem phaseAllows_iff (i : Instr) (p : Phase) : phaseAllows i p = true ↔ p ∈ allowedPhases i := by
  cases i <;> cases p <;> simp [phaseAllows, allowedPhases]

theorem needsKey_iff (i : Instr) : needsKey i = true ↔ ∃ n, i = .crypt n := by
  cases i <;> simp [needsKey]

/-- What one step can do to the block. -/
inductive DeviceStep (s : State) : Device → Prop where
  /-- The engine runs an admitted command. -/
  | ran (i : Instr) (r : State) : Ran i s r → admissionError i s.dev = none →
      DeviceStep s (finish (commandBody i s.dev))
  /-- The engine completes a word or a command that a check rejects. -/
  | rejected (r : State) (code : ErrCode) : EngineNext s r → code ≠ .none → DeviceStep s (raiseCmdError code s.dev)
  /-- An idle turn or a host read. -/
  | same : DeviceStep s s.dev
  | wrote (r : State) (off : Nat) (v : Word) (e : Device) : s = r.before (writeTurn off v) →
      WriteEffect off v s.dev e → DeviceStep s e
  | reset (r : State) : s = r.before .reset → DeviceStep s Device.reset

theorem ne_none_of_admissionError {i : Instr} {d : Device} {code : ErrCode} (h : admissionError i d = some code) :
    code ≠ .none := by
  obtain rfl | rfl | rfl := admissionError_codes h <;> decide

theorem deviceStep_of_engine {s r t : State} (hn : EngineNext s r) (ht : engineStep r = .next t) :
    DeviceStep s t.dev := by
  have hd := (step_of_engineNext hn).2
  obtain ⟨i, hi, hx⟩ | ⟨e, -, hx⟩ := engineStep_cases r
  · rw [hx] at ht
    obtain ⟨code, hc, hx⟩ | ⟨hc, hx⟩ := exec_cases i r <;> rw [hx] at ht <;> cases ht <;> rw [hd] at hc ⊢
    · exact .rejected r code hn (ne_none_of_admissionError hc)
    · exact .ran i r ⟨hn, hd ▸ hi⟩ hc
  · rw [hx] at ht
    cases ht
    rw [hd]
    exact .rejected r .illegalCmd hn (by decide)

theorem deviceStep_of_step {s t : State} (h : step s = .next t) : DeviceStep s t.dev := by
  obtain ⟨r, hn, ht⟩ | ⟨-, -, rfl⟩ | ⟨-, rfl⟩ | ⟨r, off, -, -, rfl, rfl⟩ | ⟨r, off, v, -, h4, rfl, rfl⟩ | ⟨r, rfl, rfl⟩ :=
    step_cases h
  · exact deviceStep_of_engine hn ht
  · exact .same
  · exact .same
  · exact .same
  · exact .wrote r off v _ rfl (writeEffect_writeReg h4 v r.dev)
  · exact .reset r rfl

theorem writeEffect_gcm {off : Nat} {v : Word} {d e : Device} (h : WriteEffect off v d e) : e.gcm = d.gcm := by
  cases h <;> rfl

/-- A step leaves the session as it is, runs an admitted GCM command, or resets. -/
theorem DeviceStep.session {s : State} {d : Device} (h : DeviceStep s d) :
    d.gcm = s.dev.gcm
    ∨ (∃ i r, Ran i s r ∧ isGcm i = true ∧ admissionError i s.dev = none ∧ d.gcm = (commandBody i s.dev).1.gcm)
    ∨ ((∃ r : State, s = r.before .reset) ∧ d.gcm = Session.reset) := by
  cases h with
  | ran i r hr ha =>
    cases hg : isGcm i with
    | true => exact .inr (.inl ⟨i, r, hr, hg, ha, finish_gcm _⟩)
    | false => exact .inl ((finish_gcm _).trans (commandBody_session i s.dev hg))
  | rejected | same => exact .inl rfl
  | wrote r off v e hs he => exact .inl (writeEffect_gcm he)
  | reset r hs => exact .inr (.inr ⟨⟨r, hs⟩, rfl⟩)

/-- A property of sessions that reset meets and every admitted GCM command keeps is kept by every step. -/
theorem session_invariant_of_step {P : Session → Prop} (hreset : P Session.reset)
    (hcmd : ∀ i d, isGcm i = true → admissionError i d = none → P d.gcm → P (commandBody i d).1.gcm)
    {s t : State} (hs : P s.dev.gcm) (h : step s = .next t) : P t.dev.gcm := by
  obtain h | ⟨i, r, -, hg, ha, h⟩ | ⟨-, h⟩ := (deviceStep_of_step h).session <;> rw [h]
  · exact hs
  · exact hcmd i s.dev hg ha hs
  · exact hreset

/-! ## The session after a GCM command -/

/-- A command's byte operation on text: the keystream step, then one byte is absorbed (42_gcm.md R149, R150). -/
def IsTextByte (f : Session → Byte → Session × Byte) : Prop :=
  ∀ g b, ∃ c, (f g b).1 = absorb (keystreamStep g) c

theorem isTextByte_encByte : IsTextByte encByte := fun _ _ => ⟨_, rfl⟩

theorem isTextByte_decByte : IsTextByte decByte := fun _ _ => ⟨_, rfl⟩

/-- What every text byte keeps, a command's text bytes keep. -/
theorem mapBytes_invariant {P : Session → Prop} (hP : ∀ g c, P g → P (absorb (keystreamStep g) c))
    {f : Session → Byte → Session × Byte} (hf : IsTextByte f) {g : Session} (hg : P g) (bs : List Byte) :
    P (mapBytes f g bs).1 := by
  induction bs generalizing g with
  | nil => exact hg
  | cons b bs ih =>
    obtain ⟨c, hc⟩ := hf g b
    exact ih (hc ▸ hP g c hg)

/-- The session after GENC and GDEC, for the phase and the byte operation of each. -/
def textSession (p : Phase) (f : Session → Byte → Session × Byte) (n : BitVec 5) (bs : List Byte) (g : Session) : Session :=
  let k := (mapBytes f { leaveAad g with phase := p } bs).1
  { k with clen := k.clen + bitCount n }

@[simp] theorem length_dinBytes (n : BitVec 5) (d : Device) : (dinBytes n d).length = n.toNat := by
  simp [dinBytes, byteCount]

theorem verifyBody_of_agree {n : BitVec 5} {d : Device}
    (h : tagsAgree (byteCount n) (fullTag d.gcm) d.aux.toBlock = true) :
    verifyBody n d = ({ d with gcm := finalSession d.gcm, dout := Quad.zero, authOk := true }, none) :=
  if_pos h

theorem verifyBody_of_differ {n : BitVec 5} {d : Device}
    (h : ¬ tagsAgree (byteCount n) (fullTag d.gcm) d.aux.toBlock = true) :
    verifyBody n d = ({ d with gcm := finalSession d.gcm, dout := Quad.zero }, some .authFail) :=
  if_neg h

@[simp] theorem verifyBody_gcm (n : BitVec 5) (d : Device) : (verifyBody n d).1.gcm = finalSession d.gcm := by
  by_cases h : tagsAgree (byteCount n) (fullTag d.gcm) d.aux.toBlock = true
  · rw [verifyBody_of_agree h]
  · rw [verifyBody_of_differ h]

theorem nonceBytes_phase (n : BitVec 5) (bs : List Byte) (g : Session) : (nonceBytes n bs g).phase = g.phase :=
  (absorbAll_keepsRest g bs).phase

/-- GINIT gives a session with what holds at a session's start and what the nonce bodies keep. -/
theorem sessionInit_invariant {P : Session → Prop} (hstart : ∀ key, P (sessionStart key))
    (hnonce : ∀ (n : BitVec 5) bs g, bs.length = n.toNat → g.phase = .nonce → P g → P (nonceBytes n bs g))
    (hend : ∀ g, g.phase = .nonce → P g → P (nonceEnd g)) (n : BitVec 5) (key din : Block) :
    P (sessionInit n key din) := by
  unfold sessionInit
  split
  · rename_i hn
    have hlen : (takeBytes 12 din).length = n.toNat := (length_takeBytes 12 din).trans hn.symm
    exact hend _ (nonceBytes_phase n _ _) (hnonce n _ _ hlen rfl (hstart key))
  · exact hstart key

/-- A property of sessions that holds at a session's start and that each body of a GCM command keeps, in the phases
that allow the command, is kept by every admitted GCM command. -/
theorem commandBody_session_invariant {P : Session → Prop}
    (hstart : ∀ key, P (sessionStart key))
    (hnonce : ∀ (n : BitVec 5) bs g, bs.length = n.toNat → g.phase = .nonce → P g → P (nonceBytes n bs g))
    (hend : ∀ g, g.phase = .nonce → P g → P (nonceEnd g))
    (haad : ∀ (n : BitVec 5) bs g, bs.length = n.toNat → (g.phase = .init ∨ g.phase = .aad) → P g →
      P (aadBytes n bs g))
    (htext : ∀ p f (n : BitVec 5) bs g, p = .dataEnc ∨ p = .dataDec → IsTextByte f → bs.length = n.toNat →
      g.phase = .init ∨ g.phase = .aad ∨ g.phase = p → P g → P (textSession p f n bs g))
    (hfinal : ∀ g, g.phase ∈ [.init, .aad, .dataEnc, .dataDec] → P g → P (finalSession g))
    (i : Instr) (d : Device) (hg : isGcm i = true) (ha : admissionError i d = none) (h : P d.gcm) :
    P (commandBody i d).1.gcm := by
  have hp := (phaseAllows_iff _ _).1 ((admissionError_eq_none_iff _ _).1 ha).2.1
  cases i with
  | kexpE | kexpD | crypt | round | gmul => cases hg
  | ginit n => exact sessionInit_invariant hstart hnonce hend n d.key.toBlock d.din.toBlock
  | gnonce n => exact hnonce n _ _ (length_dinBytes n d) (by simpa [allowedPhases] using hp) h
  | gnonceEnd n => exact hend _ (by simpa [allowedPhases] using hp) h
  | gaad n => exact haad n _ _ (length_dinBytes n d) (by simpa [allowedPhases] using hp) h
  | genc n =>
    exact htext .dataEnc encByte n _ _ (.inl rfl) isTextByte_encByte (length_dinBytes n d)
      (by simpa [allowedPhases] using hp) h
  | gdec n =>
    exact htext .dataDec decByte n _ _ (.inr rfl) isTextByte_decByte (length_dinBytes n d)
      (by simpa [allowedPhases] using hp) h
  | gfinish n => exact hfinal _ hp h
  | gverify n =>
    rw [show (commandBody (.gverify n) d).1.gcm = _ from verifyBody_gcm n d]
    exact hfinal _ hp h

end Sys2Proof.Machine
end

section
/-! SUPPORT. What every step keeps of the GCM session: the carry's invariant and the phase's (10_state.md R36, R40 to
R43). -/

namespace Sys2Proof.Machine

/-! ## The carry -/

theorem sessionStart_carryInv (key : Block) : (sessionStart key).CarryInv := fun j _ _ => byteAt_zero j

/-- The carry's invariant reads PBUF and PLEN alone. -/
theorem carryInv_congr {g k : Session} (hb : k.pbuf = g.pbuf) (hp : k.plen = g.plen) (h : g.CarryInv) : k.CarryInv := by
  intro j hj hj'
  rw [hb]
  exact h j (hp ▸ hj) hj'

@[simp] theorem keystreamStep_pbuf (g : Session) : (keystreamStep g).pbuf = g.pbuf := by
  unfold keystreamStep
  split <;> rfl

@[simp] theorem keystreamStep_plen (g : Session) : (keystreamStep g).plen = g.plen := by
  unfold keystreamStep
  split <;> rfl

theorem leaveAad_carryInv {g : Session} (h : g.CarryInv) : (leaveAad g).CarryInv := by
  unfold leaveAad
  split
  · exact flush_carryInv h
  · exact h

theorem textSession_carryInv {f : Session → Byte → Session × Byte} (hf : IsTextByte f) (p : Phase) (n : BitVec 5)
    (bs : List Byte) {g : Session} (h : g.CarryInv) : (textSession p f n bs g).CarryInv := by
  have hstep : ∀ g c, Session.CarryInv g → (absorb (keystreamStep g) c).CarryInv := fun g c hg =>
    absorb_carryInv (carryInv_congr (keystreamStep_pbuf g) (keystreamStep_plen g) hg) c
  have hleave : Session.CarryInv { leaveAad g with phase := p } := carryInv_congr rfl rfl (leaveAad_carryInv h)
  exact carryInv_congr rfl rfl (mapBytes_invariant hstep hf hleave bs)

/-- Settles O56: reset and every body of a GCM command keep the carry's invariant, and no other step writes PBUF. -/
theorem stepKeepsTheCarryInvariant : Obligations.StepKeepsTheCarryInvariant := by
  intro s t hs h
  refine session_invariant_of_step (P := Session.CarryInv) (fun j _ _ => byteAt_zero j) ?_ hs h
  exact commandBody_session_invariant sessionStart_carryInv
    (hnonce := fun _ bs g _ _ hg => carryInv_congr rfl rfl (absorbAll_carryInv hg bs))
    (hend := fun _ _ _ j _ _ => byteAt_zero j)
    (haad := fun _ bs g _ _ hg => carryInv_congr rfl rfl (absorbAll_carryInv hg bs))
    (htext := fun p f n bs g _ hf _ _ hg => textSession_carryInv hf p n bs hg)
    (hfinal := fun g _ hg => carryInv_congr rfl rfl (flush_carryInv hg))

/-! ## The phase -/

/-- What a command's text bytes keep of a session: all but CTR, KS, ACC and the carry. -/
structure KeepsText (g k : Session) : Prop where
  phase : k.phase = g.phase
  grk : k.grk = g.grk
  h : k.h = g.h
  j0 : k.j0 = g.j0
  alen : k.alen = g.alen
  clen : k.clen = g.clen
  nlen : k.nlen = g.nlen

theorem KeepsText.refl (g : Session) : KeepsText g g := ⟨rfl, rfl, rfl, rfl, rfl, rfl, rfl⟩

theorem KeepsText.trans {a b c : Session} (h : KeepsText a b) (k : KeepsText b c) : KeepsText a c :=
  ⟨k.phase.trans h.phase, k.grk.trans h.grk, k.h.trans h.h, k.j0.trans h.j0, k.alen.trans h.alen, k.clen.trans h.clen,
   k.nlen.trans h.nlen⟩

theorem KeepsRest.keepsText {g k : Session} (h : KeepsRest g k) : KeepsText g k :=
  ⟨h.phase, h.grk, h.h, h.j0, h.alen, h.clen, h.nlen⟩

theorem keystreamStep_keepsText (g : Session) : KeepsText g (keystreamStep g) := by
  unfold keystreamStep
  split <;> exact ⟨rfl, rfl, rfl, rfl, rfl, rfl, rfl⟩

theorem mapBytes_keepsText {f : Session → Byte → Session × Byte} (hf : IsTextByte f) (g : Session) (bs : List Byte) :
    KeepsText g (mapBytes f g bs).1 :=
  mapBytes_invariant (P := KeepsText g)
    (fun k c hk => (hk.trans (keystreamStep_keepsText k)).trans (absorb_keepsRest _ c).keepsText) hf (.refl g) bs

/-- A command's text bytes are counted modulo 16. -/
theorem mapBytes_plen {f : Session → Byte → Session × Byte} (hf : IsTextByte f) (g : Session) (bs : List Byte) :
    (mapBytes f g bs).1.plen.val = (g.plen.val + bs.length) % 16 := by
  induction bs generalizing g with
  | nil => exact (Nat.mod_eq_of_lt g.plen.isLt).symm
  | cons b bs ih =>
    obtain ⟨c, hc⟩ := hf g b
    have hb : (f g b).1.plen.val = (g.plen.val + 1) % 16 := by rw [hc, absorb_plen, keystreamStep_plen]
    rw [show (mapBytes f g (b :: bs)).1 = (mapBytes f (f g b).1 bs).1 from rfl, ih, hb, List.length_cons]
    omega

/-- While part of KS is unused it is the keystream of CTR (42_gcm.md R146). -/
def Session.KeystreamInv (g : Session) : Prop := g.plen ≠ 0 → g.ks = cipher g.grk g.ctr

/-- After the keystream step KS is the keystream of CTR, whether or not a new block was begun. -/
theorem keystreamStep_ks {g : Session} (h : g.KeystreamInv) :
    (keystreamStep g).ks = cipher (keystreamStep g).grk (keystreamStep g).ctr := by
  unfold keystreamStep
  split
  · rfl
  · rename_i hp
    exact h hp

theorem mapBytes_keystreamInv {f : Session → Byte → Session × Byte} (hf : IsTextByte f) {g : Session}
    (h : g.KeystreamInv) (bs : List Byte) : (mapBytes f g bs).1.KeystreamInv := by
  refine mapBytes_invariant (P := Session.KeystreamInv) (fun k c hk _ => ?_) hf h bs
  have hr := absorb_keepsRest (keystreamStep k) c
  rw [hr.ks, hr.grk, hr.ctr]
  exact keystreamStep_ks hk

theorem leaveAad_keepsRest (g : Session) : KeepsRest g (leaveAad g) := by
  unfold leaveAad
  split
  · exact flush_keepsRest g
  · exact .refl g

theorem textSession_phase {f : Session → Byte → Session × Byte} (hf : IsTextByte f) (p : Phase) (n : BitVec 5)
    (bs : List Byte) (g : Session) : (textSession p f n bs g).phase = p :=
  (mapBytes_keepsText hf _ bs).phase

@[simp] theorem toNat_bitCount (n : BitVec 5) : (bitCount n).toNat = 8 * n.toNat := by
  have := n.isLt
  simp only [bitCount, byteCount, BitVec.toNat_ofNat]
  omega

/-- A bit counter that counts whole bytes, and PLEN its bytes modulo 16, after `n` more bytes. -/
theorem byteCounter_add {c : Count} (h : c.toNat % 8 = 0) (n : BitVec 5) :
    (c + bitCount n).toNat % 8 = 0 ∧ (c.toNat / 8 % 16 + n.toNat) % 16 = (c + bitCount n).toNat / 8 % 16 := by
  rw [BitVec.toNat_add, toNat_bitCount]
  omega

theorem phaseInv_reset : Session.reset.PhaseInv where
  idle _ := rfl
  subkey h := absurd rfl h
  bits := by decide
  nonce h := by cases h
  init h := by cases h
  aad h := by cases h
  data h := by rcases h with h | h <;> cases h
  finished _ := rfl

theorem sessionStart_phaseInv (key : Block) : (sessionStart key).PhaseInv where
  idle h := by cases h
  subkey _ := rfl
  bits := ⟨rfl, rfl, rfl⟩
  nonce _ := ⟨by simp [sessionStart], rfl, rfl, rfl, rfl, rfl⟩
  init h := by cases h
  aad h := by cases h
  data h := by rcases h with h | h <;> cases h
  finished h := by cases h

/-- H stays E_K(0) while H and GRK stand. -/
theorem Session.PhaseInv.subkey_of_keepsText {g k : Session} (h : g.PhaseInv) (hp : g.phase ≠ .idle) (hh : k.h = g.h)
    (hg : k.grk = g.grk) : k.h = cipher k.grk 0 := by
  rw [hh, hg, h.subkey hp]

theorem nonceBytes_phaseInv {g : Session} (h : g.PhaseInv) (hp : g.phase = .nonce) {n : BitVec 5} {bs : List Byte}
    (hl : bs.length = n.toNat) : (nonceBytes n bs g).PhaseInv := by
  have hr := absorbAll_keepsRest g bs
  have hk : (nonceBytes n bs g).phase = .nonce := (nonceBytes_phase n bs g).trans hp
  have hnlen : (nonceBytes n bs g).nlen = g.nlen + bitCount n := congrArg (· + bitCount n) hr.nlen
  obtain ⟨hplen, hj0, hctr, hks, halen, hclen⟩ := h.nonce hp
  obtain ⟨ha8, hc8, hn8⟩ := h.bits
  obtain ⟨hn8', hcount⟩ := byteCounter_add hn8 n
  exact {
    idle := by simp [hk]
    subkey := fun _ => h.subkey_of_keepsText (by simp [hp]) hr.h hr.grk
    bits := ⟨hr.alen ▸ ha8, hr.clen ▸ hc8, hnlen ▸ hn8'⟩
    nonce := fun _ => ⟨by
        rw [hnlen, ← hcount, ← hplen, ← hl]
        exact absorbAll_plen g bs,
      hr.j0.trans hj0, hr.ctr.trans hctr, hr.ks.trans hks, hr.alen.trans halen, hr.clen.trans hclen⟩
    init := by simp [hk]
    aad := by simp [hk]
    data := by simp [hk]
    finished := by simp [hk] }

theorem nonceEnd_phaseInv {g : Session} (h : g.PhaseInv) (hp : g.phase = .nonce) : (nonceEnd g).PhaseInv := by
  have hk : (nonceEnd g).phase = .init := rfl
  obtain ⟨-, -, -, -, halen, hclen⟩ := h.nonce hp
  exact {
    idle := by simp [hk]
    subkey := fun _ => h.subkey (by simp [hp])
    bits := h.bits
    nonce := by simp [hk]
    init := fun _ => ⟨rfl, rfl, rfl, rfl, rfl, halen, hclen⟩
    aad := by simp [hk]
    data := by simp [hk]
    finished := by simp [hk] }

/-- What the phase invariant says of a session that still takes AAD. -/
theorem Session.PhaseInv.beforeText {g : Session} (h : g.PhaseInv) (hp : g.phase = .init ∨ g.phase = .aad) :
    g.plen.val = g.alen.toNat / 8 % 16 ∧ g.ctr = g.j0 ∧ g.ks = 0 ∧ g.clen = 0 := by
  obtain hp | hp := hp
  · obtain ⟨hplen, -, -, hctr, hks, halen, hclen⟩ := h.init hp
    exact ⟨by rw [hplen, halen]; rfl, hctr, hks, hclen⟩
  · exact h.aad hp

theorem aadBytes_phaseInv {g : Session} (h : g.PhaseInv) (hp : g.phase = .init ∨ g.phase = .aad) {n : BitVec 5}
    {bs : List Byte} (hl : bs.length = n.toNat) : (aadBytes n bs g).PhaseInv := by
  have hr := absorbAll_keepsRest g bs
  have hk : (aadBytes n bs g).phase = .aad := rfl
  have halen : (aadBytes n bs g).alen = g.alen + bitCount n := congrArg (· + bitCount n) hr.alen
  obtain ⟨hplen, hctr, hks, hclen⟩ := h.beforeText hp
  obtain ⟨ha8, hc8, hn8⟩ := h.bits
  obtain ⟨ha8', hcount⟩ := byteCounter_add ha8 n
  exact {
    idle := by simp [hk]
    subkey := fun _ => h.subkey_of_keepsText (by rcases hp with hp | hp <;> simp [hp]) hr.h hr.grk
    bits := ⟨halen ▸ ha8', hr.clen ▸ hc8, hr.nlen ▸ hn8⟩
    nonce := by simp [hk]
    init := by simp [hk]
    aad := fun _ => ⟨by
        rw [halen, ← hcount, ← hplen, ← hl]
        exact absorbAll_plen g bs,
      (hr.ctr.trans hctr).trans hr.j0.symm, hr.ks.trans hks, hr.clen.trans hclen⟩
    data := by simp [hk]
    finished := by simp [hk] }

/-- What the phase invariant says of the session a text command starts from, its AAD tail flushed. -/
theorem Session.PhaseInv.leaveAad {g : Session} (h : g.PhaseInv) {p : Phase} (hp : p = .dataEnc ∨ p = .dataDec)
    (hg : g.phase = .init ∨ g.phase = .aad ∨ g.phase = p) :
    (leaveAad g).plen.val = g.clen.toNat / 8 % 16 ∧ (Machine.leaveAad g).KeystreamInv := by
  rw [← or_assoc] at hg
  obtain ha | hd := hg
  · obtain ⟨-, -, -, hclen⟩ := h.beforeText ha
    have hflush : Machine.leaveAad g = flush g := if_pos ha
    exact ⟨by rw [hflush, flush_plen, hclen]; rfl, fun hne => absurd (hflush ▸ flush_plen g) hne⟩
  · have hdata := h.data (by rwa [hd])
    have hstay : Machine.leaveAad g = g := if_neg (by rcases hp with rfl | rfl <;> simp [hd])
    rw [hstay]
    exact hdata

theorem textSession_phaseInv {g : Session} (h : g.PhaseInv) {p : Phase} (hp : p = .dataEnc ∨ p = .dataDec)
    (hg : g.phase = .init ∨ g.phase = .aad ∨ g.phase = p) {f : Session → Byte → Session × Byte} (hf : IsTextByte f)
    {n : BitVec 5} {bs : List Byte} (hl : bs.length = n.toNat) : (textSession p f n bs g).PhaseInv := by
  have hr := (leaveAad_keepsRest g).keepsText
  have hm := mapBytes_keepsText hf { leaveAad g with phase := p } bs
  have hk : (textSession p f n bs g).phase = p := textSession_phase hf p n bs g
  have hclen : (textSession p f n bs g).clen = g.clen + bitCount n := congrArg (· + bitCount n) (hm.clen.trans hr.clen)
  obtain ⟨hplen, hks⟩ := h.leaveAad hp hg
  have hks' : Session.KeystreamInv { leaveAad g with phase := p } := hks
  obtain ⟨ha8, hc8, hn8⟩ := h.bits
  obtain ⟨hc8', hcount⟩ := byteCounter_add hc8 n
  have hidle : g.phase ≠ .idle := by rcases hp with rfl | rfl <;> rcases hg with hg | hg | hg <;> simp [hg]
  exact {
    idle := by rcases hp with rfl | rfl <;> simp [hk]
    subkey := fun _ => h.subkey_of_keepsText hidle (hm.h.trans hr.h) (hm.grk.trans hr.grk)
    bits := ⟨(hm.alen.trans hr.alen) ▸ ha8, hclen ▸ hc8', (hm.nlen.trans hr.nlen) ▸ hn8⟩
    nonce := by rcases hp with rfl | rfl <;> simp [hk]
    init := by rcases hp with rfl | rfl <;> simp [hk]
    aad := by rcases hp with rfl | rfl <;> simp [hk]
    data := fun _ => ⟨by
        rw [hclen, ← hcount, ← hplen, ← hl]
        exact mapBytes_plen hf _ bs,
      mapBytes_keystreamInv hf hks' bs⟩
    finished := by rcases hp with rfl | rfl <;> simp [hk] }

theorem finalSession_phaseInv {g : Session} (h : g.PhaseInv) (hp : g.phase ≠ .idle) : (finalSession g).PhaseInv := by
  have hr := flush_keepsRest g
  have hk : (finalSession g).phase = .finished := rfl
  exact {
    idle := by simp [hk]
    subkey := fun _ => h.subkey_of_keepsText hp hr.h hr.grk
    bits := by
      obtain ⟨ha8, hc8, hn8⟩ := h.bits
      exact ⟨hr.alen ▸ ha8, hr.clen ▸ hc8, hr.nlen ▸ hn8⟩
    nonce := by simp [hk]
    init := by simp [hk]
    aad := by simp [hk]
    data := by simp [hk]
    finished := fun _ => flush_plen g }

/-- Settles O58: reset and every body of a GCM command keep the phase's invariant, and no other step writes the
session. -/
theorem stepKeepsThePhaseInvariant : Obligations.StepKeepsThePhaseInvariant := by
  intro s t hs h
  refine session_invariant_of_step (P := Session.PhaseInv) phaseInv_reset ?_ hs h
  exact commandBody_session_invariant sessionStart_phaseInv
    (hnonce := fun _ _ _ hl hp hg => nonceBytes_phaseInv hg hp hl)
    (hend := fun _ hp hg => nonceEnd_phaseInv hg hp)
    (haad := fun _ _ _ hl hp hg => aadBytes_phaseInv hg hp hl)
    (htext := fun _ _ _ _ _ hp hf hl hph hg => textSession_phaseInv hg hp hph hf hl)
    (hfinal := fun _ hp hg => finalSession_phaseInv hg (by rintro hi; simp [hi] at hp))

end Sys2Proof.Machine
end

section
/-! SUPPORT. The session as a whole: it moves by the phase table (42_gcm.md R141) and ignores the block
commands' keys (10_state.md R39). -/

namespace Sys2Proof.Machine

/-! ## The phase table -/

theorem sessionInit_phase (n : BitVec 5) (key din : Block) :
    (sessionInit n key din).phase = if n = 12 then .init else .nonce := by
  have hn : byteCount n = 12 ↔ n = 12 := by rw [byteCount, BitVec.toNat_eq]; rfl
  simp only [sessionInit, hn]
  split <;> rfl

/-- A command's body moves the session to the phase of the table's last column. -/
theorem commandBody_phase {i : Instr} {d : Device} (h : d.gcm.phase ∈ allowedPhases i) :
    (commandBody i d).1.gcm.phase = phaseAfter i d.gcm.phase := by
  cases i with
  | kexpE | kexpD | crypt | round | gmul | gnonceEnd | gaad | gfinish => rfl
  | ginit n => exact sessionInit_phase n _ _
  | gnonce n =>
    have hp : d.gcm.phase = .nonce := by simpa [allowedPhases] using h
    exact (nonceBytes_phase n _ _).trans hp
  | genc n => exact textSession_phase isTextByte_encByte .dataEnc n _ _
  | gdec n => exact textSession_phase isTextByte_decByte .dataDec n _ _
  | gverify n => exact congrArg Session.phase (verifyBody_gcm n d)

/-- A command of legal length that its phase allows is admitted, or is CRYPT before any key expansion. -/
theorem admissionError_of_allowed {i : Instr} {d : Device} (hw : i.wf = true) (hp : d.gcm.phase ∈ allowedPhases i) :
    admissionError i d = none ∨ ∃ n, i = .crypt n := by
  cases hk : needsKey i with
  | true => exact .inr ((needsKey_iff i).1 hk)
  | false =>
    refine .inl ((admissionError_eq_none_iff i d).2 ⟨wf_eq_legalLen i ▸ hw, (phaseAllows_iff _ _).2 hp, ?_⟩)
    simp [hk]

/-- Running a command of legal length in a phase that allows it moves the session by the phase table. -/
theorem exec_phase {i : Instr} {s t : State} (hw : i.wf = true) (hp : s.dev.gcm.phase ∈ allowedPhases i)
    (h : exec i s = .next t) : t.dev.gcm.phase = phaseAfter i s.dev.gcm.phase := by
  obtain ⟨code, hc, hx⟩ | ⟨-, hx⟩ := exec_cases i s <;> rw [hx] at h <;> cases h
  · obtain hn | ⟨n, rfl⟩ := admissionError_of_allowed hw hp
    · rw [hn] at hc
      cases hc
    · rfl
  · exact (congrArg Session.phase (finish_gcm _)).trans (commandBody_phase hp)

theorem step_of_ran {i : Instr} {s r : State} (h : Ran i s r) : step s = exec i r ∧ r.dev = s.dev := by
  obtain ⟨hn, hi⟩ := h
  obtain ⟨hs, hd⟩ := step_of_engineNext hn
  refine ⟨hs.trans ?_, hd⟩
  simp only [engineStep, hd, hi]

/-- Settles O54: by the cases of a step, and the phase of each command's body. -/
theorem sessionMovesByThePhaseTable : Obligations.SessionMovesByThePhaseTable := by
  intro s t h
  refine ⟨fun hne => ?_, fun i r hr hw hp => ?_⟩
  · obtain he | ⟨i, r, hr, hg, ha, -⟩ | ⟨hreset, -⟩ := (deviceStep_of_step h).session
    · exact absurd he hne
    · obtain ⟨hl, hp, -⟩ := (admissionError_eq_none_iff _ _).1 ha
      exact .inl ⟨i, r, hr, hg, (wf_eq_legalLen i).trans hl, (phaseAllows_iff _ _).1 hp⟩
    · exact .inr hreset
  · obtain ⟨hs, hd⟩ := step_of_ran hr
    rw [← hd] at hp ⊢
    exact exec_phase hw hp (hs ▸ h)

/-! ## The block commands' keys -/

/-- The block with other round keys for the block commands, and other flags for them. -/
def Device.withBlockKeys (d : Device) (brk : RoundKeys) (kv kd : Bool) : Device :=
  { d with brk := brk, keyValid := kv, keyDir := kd }

theorem admissionError_withBlockKeys {i : Instr} (hg : isGcm i = true) (d : Device) (brk : RoundKeys) (kv kd : Bool) :
    admissionError i (d.withBlockKeys brk kv kd) = admissionError i d := by
  have hk : needsKey i = false := by
    cases i with
    | kexpE | kexpD | crypt | round | gmul => cases hg
    | _ => rfl
  simp only [admissionError, hk, Device.withBlockKeys, Bool.false_and]

theorem verifyBody_withBlockKeys (n : BitVec 5) (d : Device) (brk : RoundKeys) (kv kd : Bool) :
    verifyBody n (d.withBlockKeys brk kv kd) = ((verifyBody n d).1.withBlockKeys brk kv kd, (verifyBody n d).2) := by
  by_cases h : tagsAgree (byteCount n) (fullTag d.gcm) d.aux.toBlock = true
  · rw [verifyBody_of_agree h]
    exact verifyBody_of_agree (d := d.withBlockKeys brk kv kd) h
  · rw [verifyBody_of_differ h]
    exact verifyBody_of_differ (d := d.withBlockKeys brk kv kd) h

/-- The body of a GCM command neither reads nor writes the block commands' keys. -/
theorem commandBody_withBlockKeys {i : Instr} (hg : isGcm i = true) (d : Device) (brk : RoundKeys) (kv kd : Bool) :
    commandBody i (d.withBlockKeys brk kv kd) = ((commandBody i d).1.withBlockKeys brk kv kd, (commandBody i d).2) := by
  cases i with
  | kexpE | kexpD | crypt | round | gmul => cases hg
  | gverify n => exact verifyBody_withBlockKeys n d brk kv kd
  | _ => rfl

theorem finish_withBlockKeys (r : Device × Option ErrCode) (brk : RoundKeys) (kv kd : Bool) :
    finish (r.1.withBlockKeys brk kv kd, r.2) = (finish r).withBlockKeys brk kv kd := by
  obtain ⟨d, _ | code⟩ := r <;> rfl

/-- Settles O55: the checks and the body of a GCM command commute with replacing the block commands' keys. -/
theorem sessionIgnoresBlockKeys : Obligations.SessionIgnoresBlockKeys := by
  intro i s t brk kv kd hg h
  have hadm := admissionError_withBlockKeys hg s.dev brk kv kd
  obtain ⟨code, hc, hx⟩ | ⟨hc, hx⟩ := exec_cases i s <;> rw [hx] at h <;> cases h
  · exact exec_of_error (s := { s with dev := s.dev.withBlockKeys brk kv kd }) (hadm.trans hc)
  · refine (exec_of_admitted (s := { s with dev := s.dev.withBlockKeys brk kv kd }) (hadm.trans hc)).trans ?_
    rw [commandBody_withBlockKeys hg, finish_withBlockKeys]
    rfl

end Sys2Proof.Machine
end

section
/-! SUPPORT. The flags of STATUS and the block commands' keys: what writes each of them (10_state.md R27 to R32, R38). -/

namespace Sys2Proof.Machine

/-! ## The tag comparison -/

theorem tagsAgree_iff (n : Nat) (a b : Block) : tagsAgree n a b = true ↔ ∀ j, j < n → byteAt a j = byteAt b j := by
  simp [tagsAgree, takeBytes]

theorem finalSession_acc (g : Session) : (finalSession g).acc = finalAcc g := by
  show (fold (flush g) (be64Pair g.alen g.clen)).acc = _
  rw [fold_acc, flush_acc, (flush_keepsRest g).h, finalAcc, be64Pair]

theorem fullTag_eq_tagOf (g : Session) : fullTag g = tagOf g := by
  rw [fullTag, finalSession_acc, tagOf]

/-- GVERIFY's comparison, in the terms of the spec's tag (42_gcm.md R157). -/
theorem tagsAgree_fullTag_iff (n : BitVec 5) (g : Session) (b : Block) :
    tagsAgree (byteCount n) (fullTag g) b = true ↔ ∀ j, j < n.toNat → byteAt (tagOf g) j = byteAt b j := by
  rw [tagsAgree_iff, fullTag_eq_tagOf, byteCount]

/-! ## The end of a command -/

/-- How an admitted command can end: GVERIFY with tags that agree, GVERIFY with tags that differ, or without error and
with AUTH_OK as it was. -/
theorem finish_commandBody_cases (i : Instr) (d : Device) :
    (∃ n, i = .gverify n ∧ (∀ j, j < n.toNat → byteAt (tagOf d.gcm) j = byteAt d.aux.toBlock j)
      ∧ finish (commandBody i d)
        = completeOk { d with gcm := finalSession d.gcm, dout := Quad.zero, authOk := true })
    ∨ (∃ n, i = .gverify n ∧ finish (commandBody i d)
        = raiseCmdError .authFail { d with gcm := finalSession d.gcm, dout := Quad.zero })
    ∨ ((∀ n, i ≠ .gverify n) ∧ finish (commandBody i d) = completeOk (commandBody i d).1
      ∧ (commandBody i d).1.authOk = d.authOk) := by
  cases i with
  | gverify n =>
    by_cases h : tagsAgree (byteCount n) (fullTag d.gcm) d.aux.toBlock = true
    · exact .inl ⟨n, rfl, (tagsAgree_fullTag_iff _ _ _).1 h, congrArg finish (verifyBody_of_agree h)⟩
    · exact .inr (.inl ⟨n, rfl, congrArg finish (verifyBody_of_differ h)⟩)
  | _ => exact .inr (.inr ⟨nofun, rfl, rfl⟩)

/-- Only an admitted KEXP_E or KEXP_D writes the block commands' keys. -/
theorem finish_keepsKeys {i : Instr} {d : Device} (ha : admissionError i d = none) :
    i = .kexpE 0 ∨ i = .kexpD 0 ∨ KeepsKeys d (finish (commandBody i d)) := by
  have hl := ((admissionError_eq_none_iff i d).1 ha).1
  obtain ⟨n, rfl⟩ | ⟨n, rfl⟩ | hk := commandBody_keepsKeys i d
  · left
    rw [show n = 0 by simpa [Instr.wf] using (wf_eq_legalLen (.kexpE n)).trans hl]
  · right; left
    rw [show n = 0 by simpa [Instr.wf] using (wf_eq_legalLen (.kexpD n)).trans hl]
  · exact .inr (.inr ⟨(finish_brk _).trans hk.brk, (finish_keyValid _).trans hk.keyValid,
      (finish_keyDir _).trans hk.keyDir⟩)

/-- KEY_VALID = 0 goes on meaning that no key was expanded. -/
theorem finish_noKey {i : Instr} {d : Device} (ha : admissionError i d = none)
    (hs : d.keyValid = false → d.keyDir = false ∧ d.brk = RoundKeys.zero)
    (h : (finish (commandBody i d)).keyValid = false) :
    (finish (commandBody i d)).keyDir = false ∧ (finish (commandBody i d)).brk = RoundKeys.zero := by
  obtain rfl | rfl | hk := finish_keepsKeys ha
  · cases h
  · cases h
  · rw [hk.keyDir, hk.brk]
    exact hs (hk.keyValid.symm.trans h)

/-! ## The status invariant -/

theorem statusInv_of_completion {i : Instr} {d : Device} (hb : d.busy = true) (hs : d.StatusInv)
    (ha : admissionError i d = none) : (finish (commandBody i d)).StatusInv := by
  obtain ⟨-, -, -, hauth⟩ := hs.busy hb
  have hkeys := finish_noKey ha hs.noKey
  obtain ⟨n, -, -, he⟩ | ⟨n, -, he⟩ | ⟨-, he, hok⟩ := finish_commandBody_cases i d <;> rw [he] at hkeys ⊢
  · exact ⟨by simp, by simp, fun _ => ⟨rfl, rfl, rfl⟩, hkeys⟩
  · exact ⟨by simp, by simp, by simp [hauth], hkeys⟩
  · exact ⟨by simp, by simp, by simp [hok, hauth], hkeys⟩

theorem statusInv_of_rejection {d : Device} (hb : d.busy = true) (hs : d.StatusInv) {code : ErrCode}
    (hc : code ≠ .none) : (raiseCmdError code d).StatusInv := by
  obtain ⟨-, -, -, hauth⟩ := hs.busy hb
  exact ⟨by simp [hc], by simp, by simp [hauth], hs.noKey⟩

theorem statusInv_of_write {off : Nat} {v : Word} {d e : Device} (hs : d.StatusInv) (h : WriteEffect off v d e) :
    e.StatusInv := by
  cases h with
  | ignored => exact hs
  | ctrl | dropped | stored => exact ⟨hs.err_iff, hs.busy, hs.authOk, hs.noKey⟩
  | status =>
    refine ⟨hs.err_iff, fun hb => ?_, hs.authOk, hs.noKey⟩
    obtain ⟨hdone, hrest⟩ := hs.busy hb
    exact ⟨by simp [hdone], hrest⟩
  | accepted => exact ⟨by simp, by simp, by simp, hs.noKey⟩

/-- Settles O57: by the cases of a step; AUTH_OK = 0 while BUSY = 1 is what a completion needs. -/
theorem stepKeepsTheStatusInvariant : Obligations.StepKeepsTheStatusInvariant := by
  intro s t hs h
  have hstep := deviceStep_of_step h
  generalize t.dev = d at hstep ⊢
  cases hstep with
  | ran i r hr ha => exact statusInv_of_completion hr.1.1 hs ha
  | rejected r code hn hc => exact statusInv_of_rejection hn.1 hs hc
  | same => exact hs
  | wrote r off v e _ he => exact statusInv_of_write hs he
  | reset => exact ⟨by decide, by decide, by decide, fun _ => ⟨rfl, rfl⟩⟩

/-! ## Who writes a flag -/

/-- Settles O51: of the writes, only acceptance changes BUSY. -/
theorem onlyAcceptanceAndCompletionWriteBusy : Obligations.OnlyAcceptanceAndCompletionWriteBusy := by
  intro s t h hne
  have hstep := deviceStep_of_step h
  generalize t.dev = d at hstep hne
  cases hstep with
  | ran i r hr => exact .inr (.inl ⟨r, hr.1⟩)
  | rejected r code hn => exact .inr (.inl ⟨r, hn⟩)
  | same => exact absurd rfl hne
  | wrote r off v e hs he =>
    cases he with
    | accepted ho hb =>
      subst ho
      exact .inl ⟨hb, r, _, v, hs, rfl⟩
    | ignored | ctrl | status | stored | dropped => exact absurd rfl hne
  | reset r hs => exact .inr (.inr ⟨r, hs⟩)

/-- Settles O53: of the commands, only KEXP_E and KEXP_D write the block commands' keys. -/
theorem onlyKeyExpansionWritesKeys : Obligations.OnlyKeyExpansionWritesKeys := by
  intro s t h hne
  have hstep := deviceStep_of_step h
  generalize t.dev = d at hstep hne
  cases hstep with
  | ran i r hr ha =>
    obtain rfl | rfl | hk := finish_keepsKeys ha
    · exact .inl ⟨r, hr⟩
    · exact .inr (.inl ⟨r, hr⟩)
    · exact absurd hk hne
  | rejected | same => exact absurd ⟨rfl, rfl, rfl⟩ hne
  | wrote r off v e _ he => cases he <;> exact absurd ⟨rfl, rfl, rfl⟩ hne
  | reset r hs => exact .inr (.inr ⟨r, hs⟩)

/-- The effect of the host write that a step takes. -/
theorem writeEffect_of_step {r t : State} {off : Nat} {v : Word} (h : step (r.before (writeTurn off v)) = .next t) :
    WriteEffect off v r.dev t.dev := by
  obtain ⟨off', -, h4, haddr, -, ⟨hop, -⟩ | ⟨w, hop, rfl⟩⟩ :=
    busAccess_next (show busAccess ⟨regAddr off, .bits32, .write v⟩ r = .next t from h)
  · cases hop
  · cases hop
    obtain rfl : off = off' := Nat.add_left_cancel haddr
    exact writeEffect_writeReg h4 v r.dev

/-- A command's completion leaves OVERRUN as it is. -/
theorem finish_commandBody_overrun (i : Instr) (d : Device) : (finish (commandBody i d)).overrun = d.overrun :=
  (finish_overrun _).trans (commandBody_keepsInputs i d).overrun

/-- A step that changes OVERRUN drops a write, is a STATUS write with bit 6 set, or resets. -/
theorem DeviceStep.overrun {s : State} {d : Device} (h : DeviceStep s d) :
    d.overrun = s.dev.overrun
    ∨ (d.overrun = true ∧ s.dev.busy = true ∧ ∃ (r : State) (off : Nat) (v : Word),
        0x00C ≤ off ∧ off ≤ 0x03C ∧ s = r.before (writeTurn off v))
    ∨ (d.overrun = false ∧ ((∃ (r : State) (v : Word), s = r.before (writeTurn 0x008 v) ∧ v.getLsbD 6 = true)
        ∨ ∃ r : State, s = r.before .reset)) := by
  cases h with
  | ran i r => exact .inl (finish_commandBody_overrun i s.dev)
  | rejected | same => exact .inl rfl
  | wrote r off v e hs he =>
    cases he with
    | ignored | ctrl | accepted | stored => exact .inl rfl
    | dropped h1 h2 hb => exact .inr (.inl ⟨rfl, hb, r, off, v, h1, h2, hs⟩)
    | status ho =>
      subst ho
      cases hv : v.getLsbD 6 with
      | true => exact .inr (.inr ⟨by rw [writeStatus_overrun, hv, Bool.not_true, Bool.and_false], .inl ⟨r, v, hs, hv⟩⟩)
      | false => exact .inl (by rw [writeStatus_overrun, hv, Bool.not_false, Bool.and_true])
  | reset r hs => exact .inr (.inr ⟨rfl, .inr ⟨r, hs⟩⟩)

/-- Settles O52: by the three ways a step can leave OVERRUN, and the effect of a dropped write. -/
theorem overrunIsSticky : Obligations.OverrunIsSticky := by
  intro s t h
  refine ⟨fun ht hs => ?_, ?_, fun ht hs => ?_⟩
  · obtain he | ⟨-, hdrop⟩ | ⟨he, -⟩ := (deviceStep_of_step h).overrun
    · simp [he, hs] at ht
    · exact hdrop
    · simp [he] at ht
  · rintro r off v h1 h2 rfl hb
    have he := writeEffect_of_step h
    generalize t.dev = d at he ⊢
    rw [before_dev] at hb
    cases he with
    | dropped => rfl
    | ignored | ctrl | status => omega
    | accepted _ hidle | stored _ _ _ _ _ hidle => simp [hb] at hidle
  · obtain he | ⟨he, -⟩ | ⟨-, hclear⟩ := (deviceStep_of_step h).overrun
    · simp [he, hs] at ht
    · simp [he] at ht
    · exact hclear

/-! ## AUTH_OK -/

/-- An admitted GVERIFY ends with AUTH_OK = 1 or with AUTH_FAIL, if AUTH_OK was 0 before. -/
theorem gverify_authOk_iff {n : BitVec 5} {d : Device} (h : d.authOk = false) :
    (finish (commandBody (.gverify n) d)).authOk = true
      ↔ (finish (commandBody (.gverify n) d)).errCode ≠ .authFail := by
  obtain ⟨_, -, -, he⟩ | ⟨_, -, he⟩ | ⟨hne, -, -⟩ := finish_commandBody_cases (.gverify n) d
  · simp [he]
  · simp [he, h]
  · exact absurd rfl (hne n)

/-- NO_KEY is raised for a command that needs a key alone. -/
theorem needsKey_of_noKey {i : Instr} {d : Device} (h : admissionError i d = some .noKey) : needsKey i = true := by
  by_contra hk
  rw [Bool.not_eq_true] at hk
  simp only [admissionError, hk, Bool.false_and] at h
  split at h
  · cases h
  · split at h <;> cases h

/-- GVERIFY is rejected for its length or for the phase alone. -/
theorem admissionError_gverify {n : BitVec 5} {d : Device} {code : ErrCode}
    (h : admissionError (.gverify n) d = some code) : code = .invalidLength ∨ code = .sequence := by
  obtain rfl | rfl | rfl := admissionError_codes h
  · exact .inl rfl
  · exact .inr rfl
  · cases needsKey_of_noKey h

/-- AUTH_OK rises only when the engine runs a GVERIFY whose tags agree. -/
theorem DeviceStep.authOk_rises {s : State} {d : Device} (h : DeviceStep s d) (ht : d.authOk = true)
    (hs : s.dev.authOk = false) : ∃ n r, Ran (.gverify n) s r
      ∧ ∀ j, j < n.toNat → byteAt (tagOf s.dev.gcm) j = byteAt s.dev.aux.toBlock j := by
  cases h with
  | ran i r hr =>
    obtain ⟨n, rfl, htags, -⟩ | ⟨n, -, he⟩ | ⟨-, he, hok⟩ := finish_commandBody_cases i s.dev
    · exact ⟨n, r, hr, htags⟩
    · simp [he, hs] at ht
    · simp [he, hok, hs] at ht
  | rejected | same => simp [hs] at ht
  | wrote r off v e _ he => cases he <;> simp [hs] at ht
  | reset => cases ht

/-- A step that raises BUSY accepts a command, which clears AUTH_OK. -/
theorem DeviceStep.authOk_of_acceptance {s : State} {d : Device} (h : DeviceStep s d) (hs : s.dev.busy = false)
    (ht : d.busy = true) : d.authOk = false := by
  cases h with
  | ran => simp at ht
  | rejected => cases ht
  | same => simp [hs] at ht
  | wrote r off v e _ he =>
    cases he with
    | accepted => rfl
    | ignored | ctrl | status | stored | dropped => simp [hs] at ht
  | reset => cases ht

/-- Settles O30: a rise of AUTH_OK and an acceptance by the cases of a step, the end of a GVERIFY by the cases of its
execution. -/
theorem authOkRule : Obligations.AuthOkRule := by
  intro s t h hinv
  have hstep := deviceStep_of_step h
  refine ⟨hstep.authOk_rises, fun n r hr hcode => ?_, hstep.authOk_of_acceptance, ?_⟩
  · obtain ⟨-, -, -, hauth⟩ := hinv.busy hr.1.1
    obtain ⟨hs, hd⟩ := step_of_ran hr
    rw [hs] at h
    rw [← hd] at hauth
    obtain ⟨code, hc, hx⟩ | ⟨-, hx⟩ := exec_cases (.gverify n) r <;> rw [hx] at h <;> cases h
    · obtain rfl | rfl := admissionError_gverify hc <;> simp at hcode
    · exact gverify_authOk_iff hauth
  · rintro r rfl
    cases h
    rfl

end Sys2Proof.Machine
end

section
/-! SUPPORT. The register window: what a read returns and what a write stores, register by register (10_state.md R22
to R37, 20_memory.md R54 to R56). -/

namespace Sys2Proof.Machine

/-! ## Reads -/

@[simp] theorem lastRead_regRead (off : Nat) (s : State) :
    lastRead (regRead off s) = readValue (regAt off) (Config.freeRead s.freeCount) s.dev := rfl

theorem readValue_of_idle {d : Device} (h : d.busy = false) (r : Reg) (free : Word) :
    readValue r free d = trueValue r d := by
  simp [readValue, h]

/-- Word k of a register group is word k of its block. -/
theorem get_eq_be32 (q : Quad) {k : Nat} (hk : k < 4) : q.get k = be32 q.toBlock k := by
  have h : (Quad.ofBlock q.toBlock).get k = be32 q.toBlock k := by interval_cases k <;> rfl
  rwa [ofBlock_toBlock] at h

/-- CTRL reads as IRQ_EN in bit 0. -/
theorem ctrlWord_eq (d : Device) : ctrlWord d = if d.irqEn then 1 else 0 := by
  unfold ctrlWord
  cases d.irqEn <;> decide

theorem toNat_lowWord (c : Count) : (c.extractLsb' 0 32).toNat = c.toNat % 2 ^ 32 := by
  simp

theorem toNat_highWord (c : Count) : (c.extractLsb' 32 32).toNat = c.toNat / 2 ^ 32 := by
  have := c.isLt
  rw [BitVec.extractLsb'_toNat, Nat.shiftRight_eq_div_pow, Nat.mod_eq_of_lt (by omega)]

/-- Settles O41: each register's true value, at the offsets that R22 gives it. -/
theorem idleReadsFollowTheRegisterMap : Obligations.IdleReadsFollowTheRegisterMap := by
  intro s off hb h4 hlt
  refine ⟨_, step_readTurn s off hlt h4, ?_⟩
  rw [lastRead_regRead, readValue_of_idle hb]
  refine ⟨?_, ?_, ?_, ?_, ?_, ?_, ?_, ?_, ?_, ?_, ?_⟩
  · rintro rfl
    rfl
  · rintro rfl
    exact ctrlWord_eq s.dev
  · rintro ⟨h1, h2⟩
    obtain rfl | h1 : off = 0x00C ∨ 0x010 ≤ off := by omega
    · rfl
    · obtain ⟨k, hk, rfl⟩ := exists_word_of_offset (base := 0x010) (by decide) h4 h1 h2
      rw [regAt_key hk, trueValue]
  · rintro ⟨h1, h2⟩
    obtain ⟨k, hk, rfl⟩ := exists_word_of_offset (base := 0x020) (by decide) h4 h1 h2
    rw [regAt_din hk, trueValue, get_eq_be32 _ hk, show (0x020 + 4 * k - 0x020) / 4 = k by omega]
  · rintro ⟨h1, h2⟩
    obtain ⟨k, hk, rfl⟩ := exists_word_of_offset (base := 0x030) (by decide) h4 h1 h2
    rw [regAt_aux hk, trueValue, get_eq_be32 _ hk, show (0x030 + 4 * k - 0x030) / 4 = k by omega]
  · rintro ⟨h1, h2⟩
    obtain ⟨k, hk, rfl⟩ := exists_word_of_offset (base := 0x040) (by decide) h4 h1 h2
    rw [regAt_dout hk, trueValue, get_eq_be32 _ hk, show (0x040 + 4 * k - 0x040) / 4 = k by omega]
  · rintro rfl
    exact toNat_lowWord s.dev.gcm.alen
  · rintro rfl
    exact toNat_highWord s.dev.gcm.alen
  · rintro rfl
    exact toNat_lowWord s.dev.gcm.clen
  · rintro rfl
    exact toNat_highWord s.dev.gcm.clen
  · intro h
    rw [regAt_reserved h, trueValue]

/-! ## What a read can show -/

theorem statusWord_congr {d e : Device} (h : SameVisible d e) : statusWord e = statusWord d := by
  simp only [statusWord, h.phase, h.errCode, h.overrun, h.keyDir, h.keyValid, h.authOk, h.err, h.done, h.busy]

theorem trueValue_congr {d e : Device} (h : SameVisible d e) (r : Reg) : trueValue r e = trueValue r d := by
  cases r with
  | id | cmd | key | reserved => rfl
  | ctrl => simp only [trueValue, ctrlWord, h.irqEn]
  | status => exact statusWord_congr h
  | din k => simp only [trueValue, h.din]
  | aux k => simp only [trueValue, h.aux]
  | dout k => simp only [trueValue, h.dout]
  | alenLo | alenHi => simp only [trueValue, h.alen]
  | clenLo | clenHi => simp only [trueValue, h.clen]

theorem readValue_congr {d e : Device} (h : SameVisible d e) (r : Reg) (free : Word) :
    readValue r free e = readValue r free d := by
  simp only [readValue, h.busy, h.overrun, trueValue_congr h]

theorem drawsFree_congr {d e : Device} (h : SameVisible d e) (r : Reg) : drawsFree r e = drawsFree r d := by
  simp only [drawsFree, h.busy]

/-- Settles O48: the value read and the draw made are functions of what is visible, and a read leaves the block. -/
theorem secretsAreNotReadable : Obligations.SecretsAreNotReadable := by
  intro s t off h _ hreads hfree h4 hlt
  refine ⟨_, _, step_readTurn s off hlt h4, step_readTurn t off hlt h4, ?_, ?_, h⟩
  · rw [regRead_reads, regRead_reads, hreads, hfree, readValue_congr h]
  · rw [regRead_freeCount, regRead_freeCount, hfree, drawsFree_congr h]

/-! ## CTRL and read-only space -/

/-- CTRL reads its true value, busy or not. -/
theorem readValue_ctrl (free : Word) (d : Device) : readValue .ctrl free d = ctrlWord d := by
  simp [readValue, unspecifiedWhenBusy, trueValue]

/-- Bit 0 of a word, written to IRQ_EN, reads back as the word's bit 0. -/
theorem ctrlWord_writeCtrl (v : Word) (d : Device) : ctrlWord (writeCtrl v d) = v &&& 1 :=
  BitVec.and_one_eq_setWidth_ofBool_getLsbD.symm

/-- Settles O43: the word CTRL reads is bit 0 of the word written to it. -/
theorem ctrlHoldsIrqEnable : Obligations.CtrlHoldsIrqEnable := by
  intro s v
  refine ⟨⟨_, _, step_writeTurn s 0x004 v (by decide) (by decide), rfl,
    step_readTurn _ 0x004 (by decide) (by decide), ?_⟩, _, step_readTurn _ 0x004 (by decide) (by decide), ?_⟩
  · exact (readValue_ctrl _ _).trans (ctrlWord_writeCtrl v s.dev)
  · exact readValue_ctrl (Config.freeRead 0) Device.reset

/-- Settles O44: at these offsets a write has no other effect than to be ignored. -/
theorem writesToReadOnlySpaceAreIgnored : Obligations.WritesToReadOnlySpaceAreIgnored := by
  intro s off v h4 hoff
  have he := writeEffect_writeReg h4 v s.dev
  rw [step_writeTurn s off v (by omega) h4, regWrite]
  generalize writeReg (regAt off) v s.dev = d at he ⊢
  cases he with
  | ignored => rfl
  | ctrl | status | accepted | stored | dropped => omega

/-! ## Operand writes -/

theorem get_set (q : Quad) {j k : Nat} (hj : j < 4) (hk : k < 4) (v : Word) :
    (q.set k v).get j = if j = k then v else q.get j := by
  interval_cases k <;> interval_cases j <;> rfl

theorem replacesWord_set (q : Quad) {k : Nat} (hk : k < 4) (v : Word) : ReplacesWord q (q.set k v) k v where
  new := (get_set q hk hk v).trans (if_pos rfl)
  others _ hj hne := (get_set q hj hk v).trans (if_neg hne)

/-- The machine with the group KEY holding `q`. -/
def State.storeKey (s : State) (q : Quad) : State := { s with dev := { s.dev with key := q } }

/-- The machine with the group DIN holding `q`. -/
def State.storeDin (s : State) (q : Quad) : State := { s with dev := { s.dev with din := q } }

/-- The machine with the group AUX holding `q`. -/
def State.storeAux (s : State) (q : Quad) : State := { s with dev := { s.dev with aux := q } }

section
variable {s : State} (hb : s.dev.busy = false) {k : Nat} (hk : k < 4) (v : Word)
include hb hk

theorem regWrite_key : regWrite (0x010 + 4 * k) v s = s.storeKey (s.dev.key.set k v) := by
  rw [regWrite, regAt_key hk, writeReg, whenIdle_of_idle hb, State.storeKey]

theorem regWrite_din : regWrite (0x020 + 4 * k) v s = s.storeDin (s.dev.din.set k v) := by
  rw [regWrite, regAt_din hk, writeReg, whenIdle_of_idle hb, State.storeDin]

theorem regWrite_aux : regWrite (0x030 + 4 * k) v s = s.storeAux (s.dev.aux.set k v) := by
  rw [regWrite, regAt_aux hk, writeReg, whenIdle_of_idle hb, State.storeAux]

end

/-- A host write to an aligned offset is performed as the first of several turns. -/
theorem perform_writeTurn_cons (s : State) (off : Nat) (v : Word) (ts : List Turn) (h : off < 256) (h4 : off % 4 = 0) :
    perform (writeTurn off v :: ts) s = perform ts (regWrite off v s) := by
  have hs := step_writeTurn s off v h h4
  rw [State.before] at hs
  rw [perform, hs]

/-- Where a write to word k of a group stores that word, four writes store the block, whatever the group held. -/
theorem perform_writeBlockTurns {base : Nat} (h : base + 12 < 256) (h4 : base % 4 = 0) (store : Quad → State)
    (hstore : ∀ q k v, k < 4 → regWrite (base + 4 * k) v (store q) = store (q.set k v)) (q : Quad) (m : Block) :
    perform (writeBlockTurns base m) (store q) = some (store (Quad.ofBlock m)) := by
  have h0 : ∀ q v, regWrite base v (store q) = store (q.set 0 v) := fun q v => hstore q 0 v (by decide)
  have h1 : ∀ q v, regWrite (base + 4) v (store q) = store (q.set 1 v) := fun q v => hstore q 1 v (by decide)
  have h2 : ∀ q v, regWrite (base + 8) v (store q) = store (q.set 2 v) := fun q v => hstore q 2 v (by decide)
  have h3 : ∀ q v, regWrite (base + 12) v (store q) = store (q.set 3 v) := fun q v => hstore q 3 v (by decide)
  rw [writeBlockTurns, perform_writeTurn_cons _ _ _ _ (by omega) h4, h0,
    perform_writeTurn_cons _ _ _ _ (by omega) (by omega), h1,
    perform_writeTurn_cons _ _ _ _ (by omega) (by omega), h2,
    perform_writeTurn_cons _ _ _ _ h (by omega), h3]
  rfl

/-- Settles O38: one write by the register's rule, four by performing them in turn. -/
theorem writingFourWordsStoresTheBlock : Obligations.WritingFourWordsStoresTheBlock := by
  intro s m hb
  refine ⟨fun k v hk => ⟨⟨_, ?_, replacesWord_set _ hk v⟩, ⟨_, ?_, replacesWord_set _ hk v⟩,
    ⟨_, ?_, replacesWord_set _ hk v⟩⟩, ⟨s.storeKey (Quad.ofBlock m), ?_, toBlock_ofBlock m, rfl⟩,
    ⟨s.storeDin (Quad.ofBlock m), ?_, toBlock_ofBlock m, rfl⟩, ⟨s.storeAux (Quad.ofBlock m), ?_, toBlock_ofBlock m, rfl⟩⟩
  · rw [step_writeTurn s _ v (by omega) (by omega), regWrite_key hb hk, State.storeKey]
  · rw [step_writeTurn s _ v (by omega) (by omega), regWrite_din hb hk, State.storeDin]
  · rw [step_writeTurn s _ v (by omega) (by omega), regWrite_aux hb hk, State.storeAux]
  · exact perform_writeBlockTurns (by decide) (by decide) s.storeKey
      (fun q _ v hk => regWrite_key (s := s.storeKey q) hb hk v) s.dev.key m
  · exact perform_writeBlockTurns (by decide) (by decide) s.storeDin
      (fun q _ v hk => regWrite_din (s := s.storeDin q) hb hk v) s.dev.din m
  · exact perform_writeBlockTurns (by decide) (by decide) s.storeAux
      (fun q _ v hk => regWrite_aux (s := s.storeAux q) hb hk v) s.dev.aux m

/-! ## STATUS -/

/-- STATUS's single bits (R26). -/
theorem statusWord_bits (d : Device) : (statusWord d).getLsbD 0 = d.busy ∧ (statusWord d).getLsbD 1 = d.done
    ∧ (statusWord d).getLsbD 2 = d.err ∧ (statusWord d).getLsbD 3 = d.authOk ∧ (statusWord d).getLsbD 4 = d.keyValid
    ∧ (statusWord d).getLsbD 5 = d.keyDir ∧ (statusWord d).getLsbD 6 = d.overrun
    ∧ (statusWord d).getLsbD 7 = false := by
  simp only [statusWord, BitVec.getLsbD_append]
  simp

/-- STATUS's fields (R26): ERRCODE, GPHASE and the reserved bits. -/
theorem statusWord_fields (d : Device) : (statusWord d).extractLsb' 8 4 = d.errCode.bits
    ∧ (statusWord d).extractLsb' 12 4 = 0 ∧ (statusWord d).extractLsb' 16 3 = d.gcm.phase.bits
    ∧ (statusWord d).extractLsb' 19 13 = 0 := by
  refine ⟨?_, ?_, ?_, ?_⟩ <;> refine BitVec.eq_of_getLsbD_eq fun i hi => ?_ <;>
    simp only [statusWord, BitVec.getLsbD_append, BitVec.getLsbD_extractLsb']
  · simp [hi]
  · simp [hi]
  · simp [hi, show ¬ 8 + i < 4 by omega, show ¬ 8 + i - 4 < 4 by omega, show 8 + i - 4 - 4 = i by omega]
  · simp [hi, show ¬ 11 + i < 4 by omega, show ¬ 11 + i - 4 - 4 < 3 by omega]

/-- A write to STATUS clears DONE and OVERRUN where bits 1 and 6 are 1. -/
theorem writeStatus_eq (v : Word) (d : Device) : writeStatus v d = { d with
    done := if v.getLsbD 1 then false else d.done
    overrun := if v.getLsbD 6 then false else d.overrun } := by
  unfold writeStatus
  cases v.getLsbD 1 <;> cases v.getLsbD 6 <;> simp

/-- Settles O42: the bits and fields of the STATUS word, with the tables of R202 and R36 for the two codes. -/
theorem statusLayoutAndWriteOneToClear : Obligations.StatusLayoutAndWriteOneToClear := by
  intro s v
  refine ⟨fun hb => ⟨_, step_readTurn s 0x008 (by decide) (by decide), ?_⟩,
    ⟨_, step_writeTurn s 0x008 v (by decide) (by decide), ?_⟩,
    ⟨_, step_readTurn State.reset 0x008 (by decide) (by decide), ?_⟩⟩
  · rw [lastRead_regRead, readValue_of_idle hb, show trueValue (regAt 0x008) s.dev = statusWord s.dev from rfl]
    obtain ⟨h0, h1, h2, h3, h4, h5, h6, h7⟩ := statusWord_bits s.dev
    obtain ⟨hcode, hlow, hphase, hhigh⟩ := statusWord_fields s.dev
    refine ⟨h0.trans hb, h1, h2, h3, h4, h5, h6, h7, fun p hp he => ?_, hlow, fun p hp he => ?_, hhigh⟩
    · rw [hcode, he]
      clear he
      revert p
      decide
    · rw [hphase, he]
      clear he
      revert p
      decide
  · rw [regWrite, ← writeStatus_eq]
    rfl
  · exact readValue_of_idle (d := Device.reset) rfl .status (Config.freeRead 0)

end Sys2Proof.Machine
end

section
/-! SUPPORT. The bus rules of 20_memory.md: the byte order of a register group (R55), the accesses that are refused
(R50, R53), and reads (R58). -/

namespace Sys2Proof.Machine

/-! ## Byte order -/

/-- Byte j of word k of a block is byte 4k + j of the block. -/
theorem byteAt_eq_byte_of_be32 (b : Block) {k j : Nat} (hk : k < 4) (hj : j < 4) :
    byteAt b (4 * k + j) = (be32 b k).extractLsb' (24 - 8 * j) 8 := by
  refine BitVec.eq_of_getLsbD_eq fun i hi => ?_
  have hbit : 8 * (15 - (4 * k + j)) + i = 32 * (3 - k) + (24 - 8 * j + i) := by omega
  rw [getLsbD_byteAt, BitVec.getLsbD_extractLsb', getLsbD_be32, hbit, decide_eq_true (show 24 - 8 * j + i < 32 by omega),
    Bool.true_and]

/-- Settles O37: the words of a group are those of its block, and each word's bytes are the block's. -/
theorem registerWordsAreBigEndianBlockWords : Obligations.RegisterWordsAreBigEndianBlockWords := by
  intro q k j hk hj
  have hword := get_eq_be32 q hk
  exact ⟨hword ▸ byteAt_eq_byte_of_be32 q.toBlock hk hj, hword⟩

/-! ## Refused accesses -/

/-- Only a legal access answers a next state. -/
theorem legal_of_busAccess_next {a : Access} {s t : State} (h : busAccess a s = .next t) : a.legal := by
  obtain ⟨off, hlt, h4, haddr, hw, -⟩ := busAccess_next h
  have hoff : a.addr - Config.baseAddr = off := by rw [haddr, regAddr, Nat.add_sub_cancel_left]
  rw [regAddr] at haddr
  exact ⟨by omega, by omega, hw, hoff ▸ h4⟩

/-- An illegal access is refused. -/
theorem busAccess_of_not_legal {a : Access} (h : ¬ a.legal) (s : State) : ∃ r, busAccess a s = .refused r := by
  cases hb : busAccess a s with
  | next t => exact absurd (legal_of_busAccess_next hb) h
  | fault f => cases f
  | refused r => exact ⟨r, rfl⟩

/-- The engine's turn is never refused. -/
theorem engineTurn_next (s : State) : ∃ t, engineTurn s = .next t := by
  cases hb : s.dev.busy with
  | true =>
    obtain ⟨t, ht, -, -⟩ := engineStep_completes s
    exact ⟨t, by rw [engineTurn, if_pos hb, ht]⟩
  | false => exact ⟨s, by rw [engineTurn, hb, if_neg Bool.false_ne_true]⟩

/-- A step whose next turn, if there is one, is legal answers a next state. -/
theorem step_next_of_legal {s : State} (h : ∀ x rest, s.schedule = x :: rest → x.legal) : ∃ t, step s = .next t := by
  cases hs : s.schedule with
  | nil =>
    obtain ⟨t, ht⟩ := engineTurn_next s
    exact ⟨t, by simp only [step, hs, ht]⟩
  | cons x rest =>
    obtain ⟨t, ht, -⟩ := step_cons_of_legal hs (h x rest hs)
    exact ⟨t, ht⟩

/-- Settles O39: a step is refused by its bus access or not at all, and the bus refuses what is not legal. -/
theorem onlyUndefinedAccessesAreRefused : Obligations.OnlyUndefinedAccessesAreRefused := by
  refine fun s => ⟨fun f => (nomatch f), fun ⟨r, hr⟩ => ?_, fun ⟨a, rest, hs, ha⟩ => ?_⟩
  · by_contra hno
    have hlegal : ∀ x rest, s.schedule = x :: rest → x.legal := by
      intro x rest hs
      cases x with
      | host a => exact not_not.mp fun ha => hno ⟨a, rest, hs, ha⟩
      | engine | reset => trivial
    obtain ⟨t, ht⟩ := step_next_of_legal hlegal
    rw [hr] at ht
    cases ht
  · obtain ⟨r, hr⟩ := busAccess_of_not_legal ha { s with schedule := rest }
    exact ⟨r, by simp only [step, hs, hr]⟩

/-! ## Reads -/

/-- A read that a step takes is at an aligned offset, and is `RegRead` of it. -/
theorem regRead_of_step {s t : State} {off : Nat} (h : step (s.before (readTurn off)) = .next t) :
    off % 4 = 0 ∧ t = regRead off s := by
  obtain ⟨off', -, h4, haddr, -, ⟨-, ht⟩ | ⟨v, hop, -⟩⟩ :=
    busAccess_next (show busAccess ⟨regAddr off, .bits32, .read⟩ s = .next t from h)
  · obtain rfl : off = off' := Nat.add_left_cancel haddr
    exact ⟨h4, ht⟩
  · cases hop

/-- A read that draws no free value returns the register's true value. -/
theorem readValue_of_not_drawsFree {r : Reg} {d : Device} (h : drawsFree r d = false) (free : Word) :
    readValue r free d = trueValue r d := by
  cases hb : d.busy with
  | false => exact readValue_of_idle hb r free
  | true =>
    obtain ⟨hu, hr⟩ : unspecifiedWhenBusy r = false ∧ r ≠ .status := by simpa [drawsFree, hb] using h
    simp [readValue, hu, hr]

/-- While BUSY = 1 only the registers that R235 names, STATUS, DOUT, ALEN and CLEN, draw a free value. -/
theorem drawsFree_of_offset {off : Nat} (h4 : off % 4 = 0) (hs : off ≠ 0x008) (h : off < 0x040 ∨ 0x060 ≤ off)
    (d : Device) : drawsFree (regAt off) d = false := by
  suffices hr : (unspecifiedWhenBusy (regAt off) || regAt off == .status) = false by
    rw [drawsFree, hr, Bool.and_false]
  obtain rfl | rfl | rfl | h | h | h | h : off = 0x000 ∨ off = 0x004 ∨ off = 0x00C
      ∨ (0x010 ≤ off ∧ off ≤ 0x010 + 0x00C) ∨ (0x020 ≤ off ∧ off ≤ 0x020 + 0x00C)
      ∨ (0x030 ≤ off ∧ off ≤ 0x030 + 0x00C) ∨ 0x060 ≤ off := by omega
  · rfl
  · rfl
  · rfl
  · obtain ⟨k, hk, rfl⟩ := exists_word_of_offset (by decide) h4 h.1 h.2
    rw [regAt_key hk]
    rfl
  · obtain ⟨k, hk, rfl⟩ := exists_word_of_offset (by decide) h4 h.1 h.2
    rw [regAt_din hk]
    rfl
  · obtain ⟨k, hk, rfl⟩ := exists_word_of_offset (by decide) h4 h.1 h.2
    rw [regAt_aux hk]
    rfl
  · rw [regAt_reserved h]
    rfl

/-- Settles O40: a read writes only the host's record, and where it draws no free value it returns the true value,
which is a function of the block. -/
theorem readsHaveNoSideEffect : Obligations.ReadsHaveNoSideEffect := by
  intro s t off h
  obtain ⟨h4, rfl⟩ := regRead_of_step h
  refine ⟨rfl, rfl, ⟨_, rfl⟩, fun hcond u v hu hv => ?_⟩
  obtain ⟨-, rfl⟩ := regRead_of_step hv
  have hfree : drawsFree (regAt off) s.dev = false := by
    obtain hb | ⟨hs, hoff⟩ := hcond
    · rw [drawsFree, hb, Bool.false_and]
    · exact drawsFree_of_offset h4 hs hoff s.dev
  rw [lastRead_regRead, lastRead_regRead, hu, readValue_of_not_drawsFree hfree, readValue_of_not_drawsFree hfree]

end Sys2Proof.Machine
end

section
/-! SUPPORT. The command word as its three fields (30_encoding.md R70): decoding reads them, encoding joins them, and
the mask of R76 keeps RSV and OP. -/

namespace Sys2Proof

/-! ## The fields of a word -/

/-- A word is the join of its fields. -/
theorem append_fields (w : Word) : rsvField w ++ lenField w ++ opField w = w := by
  have hlow : lenField w ++ opField w = w.extractLsb' 0 13 :=
    BitVec.extractLsb'_append_extractLsb'_eq_extractLsb' rfl
  calc rsvField w ++ lenField w ++ opField w
      = (rsvField w ++ (lenField w ++ opField w)).cast rfl := BitVec.append_assoc
    _ = w := by rw [hlow]; exact BitVec.extractLsb'_append_extractLsb'

/-- The fields of a join are its parts, and no other parts join to the same word. -/
theorem fields_append_inj (r r' : BitVec 19) (n n' : BitVec 5) (op op' : Byte) :
    r ++ n ++ op = r' ++ n' ++ op' ↔ r = r' ∧ n = n' ∧ op = op' := by
  refine ⟨fun h => ?_, by rintro ⟨rfl, rfl, rfl⟩; rfl⟩
  have hhigh : r ++ n = r' ++ n' := by
    simpa only [BitVec.extractLsb'_append_eq_left] using congrArg (BitVec.extractLsb' 8 24) h
  exact ⟨by simpa only [BitVec.extractLsb'_append_eq_left] using congrArg (BitVec.extractLsb' 5 19) hhigh,
    by simpa only [BitVec.extractLsb'_append_eq_right] using congrArg (BitVec.extractLsb' 0 5) hhigh,
    by simpa only [BitVec.extractLsb'_append_eq_right] using congrArg (BitVec.extractLsb' 0 8) h⟩

/-- The mask of R76 keeps RSV and OP and clears LEN. -/
theorem and_mask (w : Word) : w &&& 0xFFFFE0FF = rsvField w ++ (0 : BitVec 5) ++ opField w := by
  have hmask : (0xFFFFE0FF : Word) = BitVec.allOnes 19 ++ (0 : BitVec 5) ++ BitVec.allOnes 8 := by decide
  calc w &&& 0xFFFFE0FF
      = (rsvField w ++ lenField w ++ opField w) &&& (BitVec.allOnes 19 ++ (0 : BitVec 5) ++ BitVec.allOnes 8) := by
        rw [append_fields, hmask]
    _ = rsvField w ++ (0 : BitVec 5) ++ opField w := by
        simp only [BitVec.and_append, BitVec.and_allOnes, BitVec.and_zero, BitVec.ofNat_eq_ofNat]

/-- An OP value as a word has RSV = 0 and LEN = 0. -/
theorem setWidth_op (op : Byte) : op.setWidth 32 = (0 : BitVec 19) ++ (0 : BitVec 5) ++ op := by
  simp only [BitVec.ofNat_eq_ofNat, BitVec.zero_append_zero]
  exact BitVec.setWidth_eq_append (by decide)

/-! ## Decoding and encoding -/

/-- The opcode map selects a command exactly by its OP value and LEN (R72). -/
theorem commandOf_eq_some_iff (op : Byte) (n : BitVec 5) (i : Instr) :
    commandOf op n = some i ↔ op = opcode i ∧ n = i.len := by
  constructor
  · intro h
    unfold commandOf at h
    split at h <;> cases h
    all_goals exact ⟨BitVec.eq_of_toNat_eq ‹_›, rfl⟩
  · rintro ⟨rfl, rfl⟩
    cases i <;> rfl

/-- A word decodes to a command exactly when RSV = 0 and OP and LEN are the command's. -/
theorem decode_eq_ok_iff (w : Word) (i : Instr) :
    decode w = .ok i ↔ rsvField w = 0 ∧ opField w = opcode i ∧ lenField w = i.len := by
  rw [← commandOf_eq_some_iff, decode]
  by_cases hr : rsvField w = 0
  · rw [if_pos hr]
    cases commandOf (opField w) (lenField w) <;> simp [hr]
  · rw [if_neg hr]
    exact iff_of_false nofun fun h => hr h.1

/-- A word is a command's encoding exactly when RSV = 0 and OP and LEN are the command's. -/
theorem encode_eq_iff (i : Instr) (w : Word) :
    encode i = w ↔ rsvField w = 0 ∧ opField w = opcode i ∧ lenField w = i.len := by
  calc encode i = w
      ↔ rsvField w ++ lenField w ++ opField w = 0 ++ i.len ++ opcode i := by rw [append_fields, eq_comm, encode]
    _ ↔ rsvField w = 0 ∧ lenField w = i.len ∧ opField w = opcode i := fields_append_inj ..
    _ ↔ rsvField w = 0 ∧ opField w = opcode i ∧ lenField w = i.len := by rw [and_comm (a := lenField w = i.len)]

/-- A word's masked value is an OP exactly when RSV = 0 and that is its OP (R76). -/
theorem and_mask_eq_op_iff (w : Word) (op : Byte) :
    w &&& 0xFFFFE0FF = op.setWidth 32 ↔ rsvField w = 0 ∧ opField w = op := by
  rw [and_mask, setWidth_op, fields_append_inj, eq_self_iff_true, true_and]

/-- Settles O1: decoding, encoding and the mask all come down to the same condition on the word's three fields. -/
theorem decodeEncodeAgree : Obligations.DecodeEncodeAgree := by
  intro w i
  rw [decode_eq_ok_iff, encode_eq_iff, and_mask_eq_op_iff, and_assoc, eq_comm (a := i.len)]
  exact ⟨Iff.rfl, Iff.rfl⟩

/-- Settles O2: a finite check of fixed words. -/
theorem writtenOutWordsDecode : Obligations.WrittenOutWordsDecode := by
  unfold Obligations.WrittenOutWordsDecode
  decide

end Sys2Proof
end

section
/-! SUPPORT. The cipher core (40_cipher_core.md): the transforms bit by bit and as tables, the key recurrence and the
rounds as windows on a sequence of words, and what the four block commands leave. -/

namespace Sys2Proof.Machine

/-! ## The linear transforms -/

/-- A rotation to the left by `n` moves bit `i + (32 - n)`, modulo 32, to bit `i`. -/
theorem getLsbD_rotl32 (w : Word) {n i : Nat} (hn : n < 32) (hi : i < 32) :
    (rotl32 w n).getLsbD i = w.getLsbD ((i + (32 - n)) % 32) := by
  have hrot : rotl32 w n = w.rotateLeft n := by rw [BitVec.rotateLeft_def, Nat.mod_eq_of_lt hn, rotl32]
  rw [hrot, BitVec.getLsbD_rotateLeft_of_le hn]
  by_cases h : i < n
  · rw [decide_eq_true h, cond_true, Nat.mod_eq_of_lt (by omega), Nat.add_comm]
  · rw [decide_eq_false h, cond_false, decide_eq_true hi, Bool.true_and]
    congr 1
    omega

/-- Bit `i` of L (R102). -/
theorem getLsbD_linL (w : Word) {i : Nat} (hi : i < 32) :
    (linL w).getLsbD i = (w.getLsbD i ^^ w.getLsbD ((i + 30) % 32) ^^ w.getLsbD ((i + 22) % 32)
      ^^ w.getLsbD ((i + 14) % 32) ^^ w.getLsbD ((i + 8) % 32)) := by
  simp only [linL, BitVec.getLsbD_xor, getLsbD_rotl32, hi, Nat.reduceLT, Nat.reduceSub]

/-- Bit `i` of L' (R103). -/
theorem getLsbD_linK (w : Word) {i : Nat} (hi : i < 32) :
    (linK w).getLsbD i = (w.getLsbD i ^^ w.getLsbD ((i + 19) % 32) ^^ w.getLsbD ((i + 9) % 32)) := by
  simp only [linK, BitVec.getLsbD_xor, getLsbD_rotl32, hi, Nat.reduceLT, Nat.reduceSub]

/-- Settles O13: each rotation moves a bit from the position that many places lower, modulo 32. -/
theorem linearTransformsRotateLeft : Obligations.LinearTransformsRotateLeft :=
  fun w _ hi => ⟨getLsbD_linL w hi, getLsbD_linK w hi⟩

theorem rotl32_xor (a b : Word) {n : Nat} (hn : n < 32) : rotl32 (a ^^^ b) n = rotl32 a n ^^^ rotl32 b n := by
  refine BitVec.eq_of_getLsbD_eq fun i hi => ?_
  simp only [BitVec.getLsbD_xor, getLsbD_rotl32 _ hn hi]

/-- L is linear: it takes the exclusive or of words to that of their images. -/
theorem linL_xor (a b : Word) : linL (a ^^^ b) = linL a ^^^ linL b := by
  simp only [linL, rotl32_xor, Nat.reduceLT]
  ac_rfl

/-! ## The S-box and the table-driven round transform -/

/-- The S-box, evaluated at every byte in order, is the table of R100. -/
theorem map_sbox_range : (List.range 256).map (fun n => sbox (BitVec.ofNat 8 n)) = tableSbox := by decide +kernel

theorem sbox_eq_table (a : Byte) : sbox a = tableSbox.getD a.toNat 0 := by
  simp [← map_sbox_range, List.getD, a.isLt]

theorem exists_sbox_eq_of_mem {b : Byte} (h : b ∈ tableSbox) : ∃ a, sbox a = b := by
  rw [← map_sbox_range] at h
  obtain ⟨n, -, hn⟩ := List.mem_map.1 h
  exact ⟨_, hn⟩

/-- The set of the bytes of a list, as a number: bit `b` is set when the byte `b` occurs. -/
def byteSet : List Byte → Nat
  | [] => 0
  | b :: bs => 2 ^ b.toNat ||| byteSet bs

theorem mem_of_testBit_byteSet {b : Byte} {bs : List Byte} (h : (byteSet bs).testBit b.toNat = true) : b ∈ bs := by
  induction bs with
  | nil => simp [byteSet] at h
  | cons c cs ih =>
    simp only [byteSet, Nat.testBit_or, Nat.testBit_two_pow, Bool.or_eq_true, decide_eq_true_eq] at h
    obtain hc | hcs := h
    · exact List.mem_cons.2 (.inl (BitVec.eq_of_toNat_eq hc.symm))
    · exact List.mem_cons_of_mem c (ih hcs)

theorem byteSet_tableSbox : byteSet tableSbox = 2 ^ 256 - 1 := by decide +kernel

/-- The S-box is a permutation: every byte occurs in its table, and there are as many bytes as entries. -/
theorem sbox_bijective : Function.Bijective sbox := by
  have hsurj : Function.Surjective sbox := fun b => by
    refine exists_sbox_eq_of_mem (mem_of_testBit_byteSet ?_)
    rw [byteSet_tableSbox, Nat.testBit_two_pow_sub_one]
    exact decide_eq_true b.isLt
  exact ⟨Finite.injective_iff_surjective.2 hsurj, hsurj⟩

/-- Four bytes side by side are the exclusive or of each byte in its place. -/
theorem append_bytes_eq_xor (a b c d : Byte) : a ++ b ++ c ++ d
    = a.setWidth 32 <<< 24 ^^^ b.setWidth 32 <<< 16 ^^^ c.setWidth 32 <<< 8 ^^^ d.setWidth 32 <<< 0 := by
  have hplaces (a b c d : Byte) : a ++ b ++ c ++ d = a.setWidth 32 <<< 24 ||| b.setWidth 32 <<< 16
      ||| c.setWidth 32 <<< 8 ||| d.setWidth 32 :=
    (BitVec.setWidth_eq _).symm.trans BitVec.setWidth_append_append_append_eq_shiftLeft_setWidth_or
  calc a ++ b ++ c ++ d
      = (a ++ 0#8 ++ 0#8 ++ 0#8) ^^^ (0#8 ++ b ++ 0#8 ++ 0#8) ^^^ (0#8 ++ 0#8 ++ c ++ 0#8)
          ^^^ (0#8 ++ 0#8 ++ 0#8 ++ d) := by
        simp only [BitVec.xor_append, BitVec.xor_zero, BitVec.zero_xor]
    _ = a.setWidth 32 <<< 24 ^^^ b.setWidth 32 <<< 16 ^^^ c.setWidth 32 <<< 8 ^^^ d.setWidth 32 <<< 0 := by
        rw [hplaces a 0#8 0#8 0#8, hplaces 0#8 b 0#8 0#8, hplaces 0#8 0#8 c 0#8, hplaces 0#8 0#8 0#8 d]
        simp

/-- tau works byte by byte (R101). -/
theorem tau_append (a b c d : Byte) : tau (a ++ b ++ c ++ d) = sbox a ++ sbox b ++ sbox c ++ sbox d := by
  have ha : (a ++ b ++ c ++ d).extractLsb' 24 8 = a := by
    rw [BitVec.extractLsb'_append_eq_of_le (by decide), BitVec.extractLsb'_append_eq_of_le (by decide)]
    exact BitVec.extractLsb'_append_eq_left
  have hb : (a ++ b ++ c ++ d).extractLsb' 16 8 = b := by
    rw [BitVec.extractLsb'_append_eq_of_le (by decide), BitVec.extractLsb'_append_eq_of_le (by decide)]
    exact BitVec.extractLsb'_append_eq_right
  have hc : (a ++ b ++ c ++ d).extractLsb' 8 8 = c := by
    rw [BitVec.extractLsb'_append_eq_of_le (by decide)]
    exact BitVec.extractLsb'_append_eq_right
  rw [tau, ha, hb, hc, BitVec.extractLsb'_append_eq_right]

/-- R114: T is linear in the four bytes that tau gives. -/
theorem roundT_eq_tables (a b c d : Byte) : roundT (a ++ b ++ c ++ d)
    = combinedTable 0 a ^^^ combinedTable 1 b ^^^ combinedTable 2 c ^^^ combinedTable 3 d := by
  rw [roundT, tau_append, append_bytes_eq_xor, linL_xor, linL_xor, linL_xor]
  rfl

/-- Settles O14: the table by evaluation, the permutation by counting, the datapath by linearity of L. -/
theorem tableDrivenRoundAgrees : Obligations.TableDrivenRoundAgrees :=
  ⟨sbox_eq_table, sbox_bijective, roundT_eq_tables⟩

/-! ## The recurrences of R108 and R109 as a moving window -/

/-- The four words from `x i` on. -/
def wordWindow (x : Nat → Word) (i : Nat) : Quad := ⟨x i, x (i + 1), x (i + 2), x (i + 3)⟩

/-- CK in closed form (R107) agrees with its table. -/
theorem tableCK_eq_roundCK : ∀ i, i < 32 → tableCK.getD i 0 = roundCK i := by decide

variable {mk b : Block} {rk : RoundKeys} {k x : Nat → Word}

theorem KeySequence.keyWindow_eq (h : KeySequence mk k) : keyWindow mk = wordWindow k 0 := by
  simp only [wordWindow, h.first 0 (by decide), h.first (0 + 1) (by decide), h.first (0 + 2) (by decide),
    h.first (0 + 3) (by decide)]
  rfl

theorem KeySequence.keyStep_wordWindow (h : KeySequence mk k) {i : Nat} (hi : i < 32) :
    keyStep (wordWindow k i) i = wordWindow k (i + 1) := by
  simp only [wordWindow, h.next i hi, tableCK_eq_roundCK i hi]
  rfl

theorem KeySequence.keyWords_wordWindow (h : KeySequence mk k) (n i : Nat) (hn : i + n ≤ 32) :
    keyWords n i (wordWindow k i) = (List.range' (i + 4) n).map k := by
  induction n generalizing i with
  | zero => rfl
  | succ n ih =>
    rw [keyWords, h.keyStep_wordWindow (by omega), ih (i + 1) (by omega), List.range'_succ, List.map_cons]
    rfl

/-- The key schedule is K[4..35] of the recurrence. -/
theorem KeySequence.getElem_keyExpand (h : KeySequence mk k) {i : Nat} (hi : i < 32) :
    (keyExpand mk)[i] = k (i + 4) := by
  simp only [keyExpand, h.keyWindow_eq, h.keyWords_wordWindow 32 0 (by decide), Vector.getElem_mk,
    List.getElem_toArray, List.getElem_map, List.getElem_range']
  congr 1
  omega

theorem KeySequence.getElem_reverseKeys (h : KeySequence mk k) {i : Nat} (hi : i < 32) :
    (reverseKeys (keyExpand mk))[i] = k (35 - i) := by
  rw [reverseKeys, Vector.getElem_reverse, h.getElem_keyExpand (by omega)]
  congr 1
  omega

theorem RoundSequence.roundStep_wordWindow (h : RoundSequence rk b x) {i : Nat} (hi : i < 32) :
    roundStep (wordWindow x i) rk[i] = wordWindow x (i + 1) := by
  simp only [wordWindow, h.next i hi]
  rfl

theorem RoundSequence.foldl_take (h : RoundSequence rk b x) (n : Nat) (hn : n ≤ 32) :
    (rk.toList.take n).foldl roundStep (wordWindow x 0) = wordWindow x n := by
  induction n with
  | zero => rfl
  | succ n ih =>
    rw [← List.take_append_getElem (by simpa using hn), List.foldl_append, ih (by omega)]
    exact h.roundStep_wordWindow (by omega)

theorem RoundSequence.ofBlock_eq (h : RoundSequence rk b x) : Quad.ofBlock b = wordWindow x 0 := by
  simp only [wordWindow, h.first 0 (by decide), h.first (0 + 1) (by decide), h.first (0 + 2) (by decide),
    h.first (0 + 3) (by decide)]
  rfl

/-- The block transform gives the last four words of the rounds in reverse order. -/
theorem RoundSequence.cipher_eq (h : RoundSequence rk b x) : cipher rk b = (wordWindow x 32).swap.toBlock := by
  have hfold := h.foldl_take 32 le_rfl
  rw [List.take_of_length_le (by simp)] at hfold
  rw [cipher, h.ofBlock_eq, hfold]

/-! ## Decryption -/

/-- A round undoes itself on the swapped words: both times T has the same input. -/
theorem roundStep_swap_roundStep (x : Quad) (rk : Word) : roundStep (roundStep x rk).swap rk = x.swap := by
  simp only [roundStep, Quad.swap, Quad.mk.injEq, true_and]
  have hinput : x.w3 ^^^ x.w2 ^^^ x.w1 = x.w1 ^^^ x.w2 ^^^ x.w3 := by ac_rfl
  rw [hinput, BitVec.xor_assoc, BitVec.xor_self, BitVec.xor_zero]

/-- Running the rounds again on the swapped words, with the round keys in reverse order, undoes them. -/
theorem foldl_reverse_swap_foldl (ks : List Word) (x : Quad) :
    ks.reverse.foldl roundStep (ks.foldl roundStep x).swap = x.swap := by
  induction ks generalizing x with
  | nil => rfl
  | cons rk ks ih =>
    rw [List.foldl_cons, List.reverse_cons, List.foldl_append, ih]
    exact roundStep_swap_roundStep x rk

/-- The transform under the reversed schedule undoes the transform (R112). -/
theorem cipher_reverseKeys_cipher (rk : RoundKeys) (b : Block) : cipher (reverseKeys rk) (cipher rk b) = b := by
  have hround := foldl_reverse_swap_foldl rk.toList (Quad.ofBlock b)
  rw [cipher, cipher, ofBlock_toBlock, reverseKeys, Vector.toList_reverse, hround]
  exact toBlock_ofBlock b

/-! ## The block commands -/

/-- The block commands are allowed in every phase (42_gcm.md R141). -/
theorem phaseAllows_of_blockCommand {i : Instr} (hi : isGcm i = false) (p : Phase) : phaseAllows i p = true := by
  cases i with
  | kexpE | kexpD | crypt | round | gmul => rfl
  | ginit | gnonce | gnonceEnd | gaad | genc | gdec | gfinish | gverify => cases hi

/-- A block command of legal length runs its body and completes, in every phase; CRYPT needs KEY_VALID = 1. -/
theorem exec_blockCommand {i : Instr} {s : State} (hi : isGcm i = false) (hw : i.wf = true)
    (hk : needsKey i = true → s.dev.keyValid = true) :
    exec i s = .next { s with dev := completeOk (commandBody i s.dev).1 } := by
  have ha : admissionError i s.dev = none :=
    (admissionError_eq_none_iff i s.dev).2 ⟨wf_eq_legalLen i ▸ hw, phaseAllows_of_blockCommand hi _, hk⟩
  rw [exec_of_admitted ha]
  cases i with
  | kexpE | kexpD | crypt | round | gmul => rfl
  | ginit | gnonce | gnonceEnd | gaad | genc | gdec | gfinish | gverify => cases hi

theorem succeeded_completeOk (d : Device) : Succeeded (completeOk d) := ⟨rfl, rfl, rfl, rfl⟩

theorem keepsEnv_withDev (s : State) (d : Device) : KeepsEnv s { s with dev := d } := ⟨rfl, rfl, rfl⟩

theorem KeepsInputs.completeOk {d e : Device} (h : KeepsInputs d e) : KeepsInputs d (completeOk e) :=
  ⟨h.irqEn, h.overrun, h.key, h.din, h.aux, h.pcmd⟩

theorem exec_kexpE (s : State) : exec (.kexpE 0) s = .next { s with dev := completeOk { s.dev with
    brk := keyExpand s.dev.key.toBlock, keyValid := true, keyDir := false } } :=
  exec_blockCommand rfl rfl nofun

theorem exec_kexpD (s : State) : exec (.kexpD 0) s = .next { s with dev := completeOk { s.dev with
    brk := reverseKeys (keyExpand s.dev.key.toBlock), keyValid := true, keyDir := true } } :=
  exec_blockCommand rfl rfl nofun

theorem exec_crypt {s : State} (hk : s.dev.keyValid = true) :
    exec (.crypt 0) s = .next { s with dev := completeOk { s.dev with
      dout := Quad.ofBlock (cipher s.dev.brk s.dev.din.toBlock) } } :=
  exec_blockCommand rfl rfl fun _ => hk

theorem exec_round (s : State) : exec (.round 0) s = .next { s with dev := completeOk { s.dev with
    dout := roundStep s.dev.din s.dev.aux.w0 } } :=
  exec_blockCommand rfl rfl nofun

/-- Settles O10: each word of the schedule, in either order, is a word of the key recurrence. -/
theorem keyExpansionCommandsComplete : Obligations.KeyExpansionCommandsComplete := by
  intro s k h
  constructor
  · exact ⟨_, exec_kexpE s, succeeded_completeOk _, fun _ hi => h.getElem_keyExpand hi, rfl, rfl,
      keepsEnv_withDev s _, (commandBody_keepsInputs (.kexpE 0) s.dev).completeOk, rfl, rfl, rfl⟩
  · exact ⟨_, exec_kexpD s, succeeded_completeOk _, fun _ hi => h.getElem_reverseKeys hi, rfl, rfl,
      keepsEnv_withDev s _, (commandBody_keepsInputs (.kexpD 0) s.dev).completeOk, rfl, rfl, rfl⟩

/-- Settles O11: the block transform is the last window of the rounds, swapped. -/
theorem cryptCompletes : Obligations.CryptCompletes := by
  intro s x hk h
  have hout : Quad.ofBlock (cipher s.dev.brk s.dev.din.toBlock) = (wordWindow x 32).swap := by
    rw [h.cipher_eq, ofBlock_toBlock]
  exact ⟨_, exec_crypt hk, succeeded_completeOk _, hout, keepsEnv_withDev s _,
    (commandBody_keepsInputs (.crypt 0) s.dev).completeOk, ⟨rfl, rfl, rfl⟩, rfl, rfl⟩

/-- One round, on the words of the block (R113). -/
theorem toBlock_roundStep (x : Quad) (rk : Word) : (roundStep x rk).toBlock =
    be32 x.toBlock 1 ++ be32 x.toBlock 2 ++ be32 x.toBlock 3
      ++ (be32 x.toBlock 0 ^^^ roundT (be32 x.toBlock 1 ^^^ be32 x.toBlock 2 ^^^ be32 x.toBlock 3 ^^^ rk)) := by
  rw [← get_eq_be32 x (show 0 < 4 by decide), ← get_eq_be32 x (show 1 < 4 by decide),
    ← get_eq_be32 x (show 2 < 4 by decide), ← get_eq_be32 x (show 3 < 4 by decide)]
  rfl

/-- Settles O12: DIN's words are the words of its block. -/
theorem roundCompletes : Obligations.RoundCompletes := fun s =>
  ⟨_, exec_round s, succeeded_completeOk _, toBlock_roundStep s.dev.din s.dev.aux.w0, keepsEnv_withDev s _,
    (commandBody_keepsInputs (.round 0) s.dev).completeOk, ⟨rfl, rfl, rfl⟩, rfl, rfl⟩

/-- Settles O15: the four commands leave the transform of the transform of DIN, under the schedule and its reverse. -/
theorem decryptionUndoesEncryption : Obligations.DecryptionUndoesEncryption := by
  intro s a b c d ha hb hc hd
  cases (exec_kexpE s).symm.trans ha
  cases (exec_crypt rfl).symm.trans hb
  cases (exec_kexpD _).symm.trans hc
  cases (exec_crypt rfl).symm.trans hd
  simp only [completeOk_dout, completeOk_brk, completeOk_key, completeOk_din, toBlock_ofBlock,
    cipher_reverseKeys_cipher, ofBlock_toBlock]

end Sys2Proof.Machine
end

section
/-! SUPPORT. GF(2^128) (41_ghash.md R130 to R132): a block as the residue of its polynomial modulo the field's modulus,
on which `GFMul` is the product of a commutative ring, and the GMUL command (R137). -/

namespace Sys2Proof.Machine

open Polynomial
open AdjoinRoot (root)

/-! ## The polynomial of a block -/

/-- Bit `7 - i mod 8` of byte `i div 8`, counted from the most significant bit of the block (R130). -/
theorem getLsbD_byteAt_eq_getMsbD (b : Block) {i : Nat} (hi : i < 128) :
    (byteAt b (i / 8)).getLsbD (7 - i % 8) = b.getMsbD i := by
  rw [getLsbD_byteAt, BitVec.getMsbD_eq_getLsbD, decide_eq_true (by omega), decide_eq_true hi]
  congr 2
  omega

theorem toPoly_eq_sum (b : Block) : toPoly b = ∑ i ∈ Finset.range 128, if b.getMsbD i then X ^ i else 0 :=
  Finset.sum_congr rfl fun i hi => by rw [getLsbD_byteAt_eq_getMsbD b (Finset.mem_range.1 hi)]

theorem coeff_toPoly (b : Block) (i : Nat) : (toPoly b).coeff i = if b.getMsbD i then 1 else 0 := by
  have hcoeff : ∀ j, (if b.getMsbD j then X ^ j else 0 : (ZMod 2)[X]).coeff i
      = if i = j then (if b.getMsbD j then 1 else 0) else 0 := fun j => by
    cases b.getMsbD j <;> simp [coeff_X_pow]
  simp only [toPoly_eq_sum, finsetSum_coeff, hcoeff, Finset.sum_ite_eq, Finset.mem_range]
  by_cases hi : i < 128
  · rw [if_pos hi]
  · rw [if_neg hi, BitVec.getMsbD_of_ge b i (by omega)]
    rfl

theorem degree_toPoly_lt (b : Block) : (toPoly b).degree < 128 :=
  (degree_lt_iff_coeff_zero (toPoly b) 128).2 fun i hi => by
    rw [coeff_toPoly, BitVec.getMsbD_of_ge b i hi]
    rfl

theorem toPoly_injective : Function.Injective toPoly := fun a b h => by
  refine BitVec.eq_of_getMsbD_eq fun i _ => ?_
  have hi := congrArg (coeff · i) h
  simp only [coeff_toPoly] at hi
  revert hi
  cases a.getMsbD i <;> cases b.getMsbD i <;> decide

/-- ⊕ is addition: the coefficients are added modulo 2. -/
theorem toPoly_xor (a b : Block) : toPoly (a ^^^ b) = toPoly a + toPoly b := by
  ext i
  simp only [coeff_add, coeff_toPoly, BitVec.getMsbD_xor]
  cases a.getMsbD i <;> cases b.getMsbD i <;> decide

/-- The polynomial of a block whose set bits are listed. -/
theorem toPoly_of_bits {b : Block} {s : Finset Nat} (h : (Finset.range 128).filter (b.getMsbD ·) = s) :
    toPoly b = ∑ i ∈ s, X ^ i := by
  rw [toPoly_eq_sum, ← Finset.sum_filter, h]

theorem toPoly_one : toPoly 0x80000000000000000000000000000000 = 1 := by
  rw [toPoly_of_bits (s := {0}) (by decide)]
  simp

theorem toPoly_gfR : toPoly gfR = X ^ 7 + X ^ 2 + X + 1 := by
  rw [toPoly_of_bits (s := {7, 2, 1, 0}) (by decide)]
  simp [add_assoc]

/-- A right shift multiplies by x, but for the bit x_127 that it drops. -/
theorem X_mul_toPoly (v : Block) :
    X * toPoly v = toPoly (v >>> 1) + if v.getLsbD 0 then X ^ 128 else 0 := by
  have hlast : v.getMsbD 127 = v.getLsbD 0 := by simp [BitVec.getMsbD_eq_getLsbD]
  rw [← hlast]
  ext i
  cases i with
  | zero =>
    rw [coeff_X_mul_zero, coeff_add, coeff_toPoly]
    cases v.getMsbD 127 <;> simp
  | succ n =>
    rw [coeff_X_mul, coeff_add, coeff_toPoly, coeff_toPoly, BitVec.getMsbD_ushiftRight]
    by_cases hn : n = 127
    · subst hn
      cases v.getMsbD 127 <;> simp
    · by_cases h : n < 127
      · cases v.getMsbD 127 <;> simp [coeff_X_pow, hn, show n + 1 < 128 by omega]
      · rw [BitVec.getMsbD_of_ge v n (by omega)]
        cases v.getMsbD 127 <;> simp [coeff_X_pow, hn, show ¬ n + 1 < 128 by omega]

/-! ## The residue of a block -/

theorem degree_gfModulus : gfModulus.degree = 128 := by
  unfold gfModulus
  compute_degree!

/-- The element of GF(2)[x] modulo x^128 + x^7 + x^2 + x + 1 that a block stands for (R130). -/
noncomputable def residue (b : Block) : AdjoinRoot gfModulus := AdjoinRoot.mk gfModulus (toPoly b)

/-- Two polynomials of degree below the modulus's with the same residue are equal. -/
theorem eq_of_adjoinRoot_mk_eq {m p q : (ZMod 2)[X]} (hp : p.degree < m.degree) (hq : q.degree < m.degree)
    (h : AdjoinRoot.mk m p = AdjoinRoot.mk m q) : p = q :=
  sub_eq_zero.1 (eq_zero_of_dvd_of_degree_lt (AdjoinRoot.mk_eq_mk.1 h) ((degree_sub_le p q).trans_lt (max_lt hp hq)))

theorem degree_toPoly_lt_gfModulus (b : Block) : (toPoly b).degree < gfModulus.degree := by
  rw [degree_gfModulus]
  exact degree_toPoly_lt b

/-- A block is determined by its residue. -/
theorem residue_injective : Function.Injective residue := fun a b h =>
  toPoly_injective (eq_of_adjoinRoot_mk_eq (degree_toPoly_lt_gfModulus a) (degree_toPoly_lt_gfModulus b) h)

theorem residue_xor (a b : Block) : residue (a ^^^ b) = residue a + residue b := by
  rw [residue, toPoly_xor, map_add]
  rfl

theorem residue_zero : residue 0 = 0 := by
  simpa using residue_xor 0 0

theorem residue_one : residue 0x80000000000000000000000000000000 = 1 := by
  rw [residue, toPoly_one, map_one]

/-- The reduction of R131: R stands for x^128. -/
theorem residue_gfR : residue gfR = root gfModulus ^ 128 := by
  rw [residue, ← AdjoinRoot.mk_X, ← map_pow, eq_comm, AdjoinRoot.mk_eq_mk, toPoly_gfR]
  have hmod : gfModulus = X ^ 128 - (X ^ 7 + X ^ 2 + X + 1) := by
    unfold gfModulus
    rw [CharTwo.sub_eq_add]
    ring
  rw [← hmod]

/-- The step on V multiplies by x. -/
theorem residue_gfMulX (v : Block) : residue (gfMulX v) = root gfModulus * residue v := by
  have hshift := congrArg (AdjoinRoot.mk gfModulus) (X_mul_toPoly v)
  rw [map_mul, map_add, AdjoinRoot.mk_X] at hshift
  unfold gfMulX
  cases h : v.getLsbD 0 <;> simp only [h, Bool.false_eq_true, if_false, if_true] at hshift ⊢
  · rw [map_zero, add_zero] at hshift
    exact hshift.symm
  · rw [residue_xor, residue_gfR, ← AdjoinRoot.mk_X, ← map_pow]
    exact hshift.symm

/-- The loop with `n` rounds to go adds the product of V and the polynomial of the next `n` bits of X. -/
theorem residue_gfLoop (x : Block) (n : Nat) (v z : Block) : residue (gfLoop x n v z) = residue z
    + (∑ i ∈ Finset.range n, if x.getLsbD (n - 1 - i) then root gfModulus ^ i else 0) * residue v := by
  induction n generalizing v z with
  | zero => simp [gfLoop]
  | succ n ih =>
    have hz : residue (if x.getLsbD n then z ^^^ v else z)
        = residue z + (if x.getLsbD n then 1 else 0) * residue v := by
      cases x.getLsbD n <;> simp [residue_xor]
    have hsum : ∀ i, (if x.getLsbD (n + 1 - 1 - (i + 1)) then root gfModulus ^ (i + 1) else 0)
        = (if x.getLsbD (n - 1 - i) then root gfModulus ^ i else 0) * root gfModulus := fun i => by
      rw [show n + 1 - 1 - (i + 1) = n - 1 - i by omega, ite_mul, zero_mul, pow_succ]
    rw [gfLoop, ih, hz, residue_gfMulX, Finset.sum_range_succ', Finset.sum_congr rfl fun i _ => hsum i,
      ← Finset.sum_mul, Nat.add_sub_cancel, Nat.sub_zero, pow_zero]
    ring

theorem residue_eq_sum (x : Block) : residue x
    = ∑ i ∈ Finset.range 128, if x.getLsbD (128 - 1 - i) then root gfModulus ^ i else 0 := by
  rw [residue, toPoly_eq_sum, map_sum]
  refine Finset.sum_congr rfl fun i hi => ?_
  rw [BitVec.getMsbD_eq_getLsbD, decide_eq_true (Finset.mem_range.1 hi), Bool.true_and, apply_ite (AdjoinRoot.mk _),
    map_pow, map_zero, AdjoinRoot.mk_X]

theorem residue_gfMul (x y : Block) : residue (gfMul x y) = residue x * residue y := by
  rw [gfMul, residue_gfLoop, residue_zero, zero_add, ← residue_eq_sum]

/-- Settles O16: the loop adds up the multiples of Y by the powers of x, in the quotient by the modulus. -/
theorem gfMulIsPolynomialMultiplication : Obligations.GfMulIsPolynomialMultiplication := by
  intro x y
  rw [← AdjoinRoot.mk_eq_mk, map_mul]
  exact (residue_gfMul x y).symm

/-! ## The laws of the product -/

theorem gfMul_comm (x y : Block) : gfMul x y = gfMul y x :=
  residue_injective (by rw [residue_gfMul, residue_gfMul, mul_comm])

theorem gfMul_assoc (x y z : Block) : gfMul (gfMul x y) z = gfMul x (gfMul y z) :=
  residue_injective (by simp only [residue_gfMul, mul_assoc])

theorem gfMul_xor (x y z : Block) : gfMul x (y ^^^ z) = gfMul x y ^^^ gfMul x z :=
  residue_injective (by simp only [residue_gfMul, residue_xor, mul_add])

theorem xor_gfMul (x y z : Block) : gfMul (x ^^^ y) z = gfMul x z ^^^ gfMul y z :=
  residue_injective (by simp only [residue_gfMul, residue_xor, add_mul])

@[simp] theorem zero_gfMul (y : Block) : gfMul 0 y = 0 :=
  residue_injective (by rw [residue_gfMul, residue_zero, zero_mul])

@[simp] theorem gfMul_zero (x : Block) : gfMul x 0 = 0 :=
  residue_injective (by rw [residue_gfMul, residue_zero, mul_zero])

@[simp] theorem one_gfMul (y : Block) : gfMul 0x80000000000000000000000000000000 y = y :=
  residue_injective (by rw [residue_gfMul, residue_one, one_mul])

/-- Settles O17: the laws of the quotient ring, and one reduction by evaluation. -/
theorem gfMulLaws : Obligations.GfMulLaws := fun x y z =>
  ⟨gfMul_comm x y, gfMul_assoc x y z, gfMul_xor x y z, xor_gfMul x y z, zero_gfMul y, one_gfMul y, by decide⟩

/-! ## GMUL -/

theorem exec_gmul (s : State) : exec (.gmul 0) s = .next { s with dev := completeOk { s.dev with
    dout := Quad.ofBlock (gfMul s.dev.din.toBlock s.dev.aux.toBlock) } } :=
  exec_blockCommand rfl rfl nofun

/-- DOUT is 0 if an operand is. -/
theorem ofBlock_gfMul_of_zero {x y : Quad} (h : x = Quad.zero ∨ y = Quad.zero) :
    Quad.ofBlock (gfMul x.toBlock y.toBlock) = Quad.zero := by
  have hzero : Quad.zero.toBlock = 0 := rfl
  rw [← ofBlock_toBlock Quad.zero, hzero]
  rcases h with rfl | rfl
  · rw [hzero, zero_gfMul]
  · rw [hzero, gfMul_zero]

/-- DOUT is AUX if DIN is the polynomial 1. -/
theorem ofBlock_gfMul_of_one {x : Quad} (h : x = ⟨0x80000000, 0, 0, 0⟩) (y : Quad) :
    Quad.ofBlock (gfMul x.toBlock y.toBlock) = y := by
  have hone : x.toBlock = 0x80000000000000000000000000000000 := h ▸ rfl
  rw [hone, one_gfMul, ofBlock_toBlock]

/-- Settles O18: GMUL is admitted in every state, and its corner cases are laws of the product. -/
theorem gmulCompletes : Obligations.GmulCompletes := fun s =>
  ⟨_, exec_gmul s, succeeded_completeOk _, toBlock_ofBlock _, ofBlock_gfMul_of_zero, (ofBlock_gfMul_of_one · _),
    keepsEnv_withDev s _, (commandBody_keepsInputs (.gmul 0) s.dev).completeOk, ⟨rfl, rfl, rfl⟩, rfl, rfl⟩

end Sys2Proof.Machine
end

section
/-! SUPPORT. Absorb, Flush and GHASH in closed form (41_ghash.md R133 to R136): the tail is a byte string that grows
until a block of 16 bytes is folded. -/

namespace Sys2Proof.Machine

/-! ## The tail -/

theorem tail_of_plen_eq_zero {g : Session} (h : g.plen = 0) : g.tail = [] := by
  simp [Session.tail, h, takeBytes]

@[simp] theorem length_tail (g : Session) : g.tail.length = g.plen.val := length_takeBytes _ _

/-- The carry's invariant says that PBUF is the tail, zero-padded. -/
theorem Session.CarryInv.packBytes_tail {g : Session} (h : g.CarryInv) : packBytes g.tail = g.pbuf :=
  packBytes_takeBytes _ _ (by omega) fun j hj hj' => h j hj (by omega)

/-- The first bytes of a block, with the byte after them. -/
theorem takeBytes_succ_setByte (b : Block) {n : Nat} (hn : n < 16) (v : Byte) :
    takeBytes (n + 1) (setByte b n v) = takeBytes n b ++ [v] := by
  rw [takeBytes, List.range_succ, List.map_append, List.map_singleton, byteAt_setByte_same _ _ _ hn, takeBytes]
  congr 1
  refine List.map_congr_left fun j hj => ?_
  rw [List.mem_range] at hj
  exact byteAt_setByte_other _ _ _ _ hn (by omega) (by omega)

/-! ## Absorb -/

/-- The 16th byte of a block folds the block and empties the tail (R134). -/
theorem absorb_of_last {g : Session} (h : g.plen.val = 15) (b : Byte) :
    (absorb g b).acc = gfMul (g.acc ^^^ packBytes (g.tail ++ [b])) g.h ∧ (absorb g b).plen = 0 := by
  have hp : g.plen = 15 := Fin.ext h
  have hblock : packBytes (g.tail ++ [b]) = setByte g.pbuf g.plen b := by
    rw [Session.tail, ← takeBytes_succ_setByte _ g.plen.isLt, h]
    exact packBytes_takeBytes 16 _ le_rfl (by omega)
  rw [absorb, if_pos hp, hblock]
  exact ⟨fold_acc _ _, rfl⟩

/-- Any other byte is appended to the tail (R134). -/
theorem absorb_of_not_last {g : Session} (h : g.plen.val < 15) (b : Byte) :
    (absorb g b).acc = g.acc ∧ (absorb g b).tail = g.tail ++ [b] ∧ (absorb g b).plen.val = g.plen.val + 1 := by
  have hlen : (absorb g b).plen.val = g.plen.val + 1 := by rw [absorb_plen, Nat.mod_eq_of_lt (by omega)]
  have hp : g.plen ≠ 15 := fun e => by simp [e] at h
  have hacc : (absorb g b).acc = g.acc := by rw [absorb, if_neg hp]
  have hbuf : (absorb g b).pbuf = setByte g.pbuf g.plen b := by rw [absorb, if_neg hp]
  refine ⟨hacc, ?_, hlen⟩
  rw [Session.tail, hlen, hbuf, takeBytes_succ_setByte _ g.plen.isLt, Session.tail]

/-- Bytes that do not fill a block are appended to the tail. -/
theorem absorbAll_of_short {g : Session} {bs : List Byte} (h : g.plen.val + bs.length < 16) :
    (absorbAll g bs).acc = g.acc ∧ (absorbAll g bs).tail = g.tail ++ bs := by
  induction bs generalizing g with
  | nil => exact ⟨rfl, (List.append_nil _).symm⟩
  | cons b bs ih =>
    rw [List.length_cons] at h
    obtain ⟨hacc, htail, hlen⟩ := absorb_of_not_last (show g.plen.val < 15 by omega) b
    obtain ⟨hacc', htail'⟩ := ih (g := absorb g b) (by omega)
    exact ⟨hacc'.trans hacc, htail'.trans (by rw [htail, List.append_assoc, List.singleton_append])⟩

/-- Bytes that fill one block fold it and leave the rest as the tail. -/
theorem absorbAll_of_full {g : Session} {bs : List Byte} (h : 16 ≤ g.plen.val + bs.length)
    (h' : g.plen.val + bs.length < 32) :
    (absorbAll g bs).acc = gfMul (g.acc ^^^ packBytes ((g.tail ++ bs).take 16)) g.h
      ∧ (absorbAll g bs).tail = (g.tail ++ bs).drop 16 := by
  induction bs generalizing g with
  | nil => exact absurd h (by simp)
  | cons b bs ih =>
    rw [List.length_cons] at h h'
    have happ : g.tail ++ b :: bs = (g.tail ++ [b]) ++ bs := by simp
    by_cases hp : g.plen.val = 15
    · obtain ⟨hacc, hlen⟩ := absorb_of_last hp b
      obtain ⟨hacc', htail'⟩ := absorbAll_of_short (g := absorb g b) (bs := bs) (by rw [hlen, Fin.val_zero]; omega)
      have hblock : (g.tail ++ [b]).length = 16 := by simp [hp]
      rw [happ, List.take_left' hblock, List.drop_left' hblock]
      exact ⟨hacc'.trans hacc, by rw [tail_of_plen_eq_zero hlen] at htail'; exact htail'⟩
    · obtain ⟨hacc, htail, hlen⟩ := absorb_of_not_last (show g.plen.val < 15 by omega) b
      have hrest := ih (g := absorb g b) (by omega) (by omega)
      rwa [hacc, htail, (absorb_keepsRest g b).h, ← happ] at hrest

theorem absorbAll_absorbedAs {g : Session} (hg : g.CarryInv) {bs : List Byte} (hbs : bs.length ≤ 16) :
    AbsorbedAs g (absorbAll g bs) bs where
  short h := by
    obtain ⟨hacc, htail⟩ := absorbAll_of_short h
    exact ⟨hacc, htail ▸ (absorbAll_carryInv hg bs).packBytes_tail.symm,
      by rw [absorbAll_plen, Nat.mod_eq_of_lt h]⟩
  full h := by
    obtain ⟨hacc, htail⟩ := absorbAll_of_full h (by omega)
    exact ⟨hacc, htail ▸ (absorbAll_carryInv hg bs).packBytes_tail.symm, by rw [absorbAll_plen]; omega⟩

/-! ## Flush -/

theorem flush_pbuf {g : Session} (hg : g.CarryInv) : (flush g).pbuf = 0 := by
  rw [← (flush_carryInv hg).packBytes_tail, tail_of_plen_eq_zero (flush_plen g)]
  rfl

/-- Settles O19: absorbing extends the tail, across at most one fold, and PBUF is the tail zero-padded. -/
theorem absorbAndFlushClosedForm : Obligations.AbsorbAndFlushClosedForm := fun g _ hg =>
  ⟨absorbAll_absorbedAs hg, flush_acc g, flush_pbuf hg, flush_plen g⟩

/-! ## GHASH -/

theorem absorbAll_append (g : Session) (bs cs : List Byte) :
    absorbAll g (bs ++ cs) = absorbAll (absorbAll g bs) cs := List.foldl_append

/-- Absorbing a whole block with an empty tail folds it. -/
theorem absorbAll_block {g : Session} (hp : g.plen = 0) {bs : List Byte} (hbs : bs.length = 16) :
    (absorbAll g bs).acc = gfMul (g.acc ^^^ packBytes bs) g.h ∧ (absorbAll g bs).plen = 0 := by
  have hlen : g.plen.val + bs.length = 16 := by rw [hp, hbs, Fin.val_zero]
  obtain ⟨hacc, -⟩ := absorbAll_of_full hlen.ge (by omega)
  rw [tail_of_plen_eq_zero hp, List.nil_append, List.take_of_length_le hbs.le] at hacc
  exact ⟨hacc, Fin.ext (by rw [absorbAll_plen, hlen, Fin.val_zero])⟩

/-- Absorbing less than a block with an empty tail, then flushing, folds the bytes zero-padded, if there are any. -/
theorem flushedAcc_absorbAll_of_short {g : Session} (hg : g.CarryInv) (hp : g.plen = 0) {bs : List Byte}
    (hbs : bs.length < 16) :
    flushedAcc (absorbAll g bs) = if bs = [] then g.acc else gfMul (g.acc ^^^ packBytes bs) g.h := by
  have hlen : g.plen.val + bs.length < 16 := by rwa [hp, Fin.val_zero, Nat.zero_add]
  obtain ⟨hacc, hpbuf, hplen⟩ := (absorbAll_absorbedAs hg hbs.le).short hlen
  rw [tail_of_plen_eq_zero hp, List.nil_append] at hpbuf
  rw [hp, Fin.val_zero, Nat.zero_add] at hplen
  have hempty : (absorbAll g bs).plen = 0 ↔ bs = [] := by
    rw [Fin.ext_iff, hplen, Fin.val_zero, List.length_eq_zero_iff]
  simp only [flushedAcc, hempty, hacc, hpbuf, (absorbAll_keepsRest g bs).h]

theorem pieces_nil (n : Nat) : pieces n [] = [] := by cases n <;> rfl

theorem pieces_succ_of_ne_nil (n : Nat) {m : List Byte} (h : m ≠ []) :
    pieces (n + 1) m = m.take 16 :: pieces n (m.drop 16) := by
  rw [pieces, if_neg (by simpa using h)]

/-- Absorbing with an empty tail, then flushing, folds the zero-padded blocks; the fuel `n` suffices for the bytes. -/
theorem flushedAcc_absorbAll (n : Nat) {g : Session} (hg : g.CarryInv) (hp : g.plen = 0) {m : List Byte}
    (hm : m.length ≤ n) :
    flushedAcc (absorbAll g m) = ((pieces n m).map packBytes).foldl (fun a b => gfMul (a ^^^ b) g.h) g.acc := by
  induction n generalizing g m with
  | zero =>
    cases List.length_eq_zero_iff.1 (Nat.le_zero.1 hm)
    exact if_pos hp
  | succ n ih =>
    by_cases hnil : m = []
    · subst hnil
      exact if_pos hp
    rw [pieces_succ_of_ne_nil n hnil, List.map_cons, List.foldl_cons]
    by_cases hshort : m.length < 16
    · rw [flushedAcc_absorbAll_of_short hg hp hshort, if_neg hnil, List.take_of_length_le hshort.le,
        List.drop_of_length_le hshort.le, pieces_nil]
      rfl
    · obtain ⟨hacc, hplen⟩ := absorbAll_block hp (show (m.take 16).length = 16 by rw [List.length_take]; omega)
      have hrest := ih (absorbAll_carryInv hg (m.take 16)) hplen
        (show (m.drop 16).length ≤ n by rw [List.length_drop]; omega)
      rwa [hacc, (absorbAll_keepsRest g _).h, ← absorbAll_append, List.take_append_drop] at hrest

/-- Settles O20: by the number of blocks, each folded whole but the last. -/
theorem ghashFoldsZeroPaddedBlocks : Obligations.GhashFoldsZeroPaddedBlocks := fun h m => by
  rw [ghash, flush_acc]
  exact flushedAcc_absorbAll m.length (g := { Session.reset with h := h }) (fun j _ _ => byteAt_zero j) rfl le_rfl

end Sys2Proof.Machine
end

section
/-! SUPPORT. The counter and the keystream (42_gcm.md R145, R146): `k` increments in closed form, and the text bytes of
a command as so many keystream blocks begun and so many bytes absorbed. -/

namespace Sys2Proof.Machine

/-! ## inc32 -/

theorem be32_append (a : BitVec 96) (w : Word) : be32 (a ++ w) 3 = w :=
  BitVec.extractLsb'_append_eq_right

theorem firstBytes_append (a : BitVec 96) (w : Word) : (a ++ w).extractLsb' 32 96 = a :=
  BitVec.extractLsb'_append_eq_left

/-- A block is its first 12 bytes and its last word. -/
theorem append_be32 (c : Block) : c.extractLsb' 32 96 ++ be32 c 3 = c := by
  refine BitVec.eq_of_getLsbD_eq fun i hi => ?_
  rw [BitVec.getLsbD_append, getLsbD_be32, BitVec.getLsbD_extractLsb']
  by_cases h : i < 32
  · simp [h]
  · simp [h, show i - 32 < 96 by omega, show 32 + (i - 32) = i by omega]

/-- The first 12 bytes of a block do not depend on its last word. -/
theorem byteAt_append (c : Block) (w : Word) {j : Nat} (hj : j < 12) :
    byteAt (c.extractLsb' 32 96 ++ w) j = byteAt c j := by
  refine BitVec.eq_of_getLsbD_eq fun i hi => ?_
  rw [getLsbD_byteAt, getLsbD_byteAt, BitVec.getLsbD_append, if_neg (by omega), BitVec.getLsbD_extractLsb',
    decide_eq_true (show 8 * (15 - j) + i - 32 < 96 by omega), Bool.true_and,
    show 32 + (8 * (15 - j) + i - 32) = 8 * (15 - j) + i by omega]

/-- `k` increments add `k` to the last word (R145). -/
theorem iterate_inc32 (c : Block) (k : Nat) :
    inc32^[k] c = c.extractLsb' 32 96 ++ (be32 c 3 + BitVec.ofNat 32 k) := by
  induction k with
  | zero => rw [BitVec.add_zero, append_be32, Function.iterate_zero_apply]
  | succ k ih =>
    rw [Function.iterate_succ_apply', ih, inc32, firstBytes_append, be32_append, BitVec.ofNat_add, BitVec.add_assoc]
    rfl

/-- The counter has period 2^32 (R160). -/
theorem iterate_inc32_congr {a b : Nat} (h : a % 2 ^ 32 = b % 2 ^ 32) (c : Block) : inc32^[a] c = inc32^[b] c := by
  rw [iterate_inc32, iterate_inc32, BitVec.eq_of_toNat_eq (show (BitVec.ofNat 32 a).toNat = (BitVec.ofNat 32 b).toNat by
    simpa only [BitVec.toNat_ofNat] using h)]

/-- Settles O21: the closed form of `k` increments. -/
theorem counterIncrementWraps : Obligations.CounterIncrementWraps := fun c k =>
  ⟨fun _ hj => by rw [iterate_inc32, byteAt_append _ _ hj], by rw [iterate_inc32, be32_append],
    iterate_inc32_congr (a := 2 ^ 32) (b := 0) (by decide) c⟩

/-! ## The keystream -/

/-- How many 16-byte blocks are begun by `n` text bytes after the first `p` bytes of a block (R146). -/
def blocksBegun (p n : Nat) : Nat := (p + n + 15) / 16 - (p + 15) / 16

/-- KS after `k` more blocks are begun. -/
def Session.keystreamBlock (g : Session) (k : Nat) : Block := if k = 0 then g.ks else cipher g.grk (inc32^[k] g.ctr)

/-- The session with `k` more blocks begun: CTR and KS move on (R146). -/
def Session.advance (g : Session) (k : Nat) : Session := { g with ctr := inc32^[k] g.ctr, ks := g.keystreamBlock k }

/-- The keystream byte for the `j`-th text byte from now on. -/
def Session.stream (g : Session) (j : Nat) : Byte :=
  byteAt (g.keystreamBlock (blocksBegun g.plen (j + 1))) ((g.plen + j) % 16)

@[simp] theorem advance_zero (g : Session) : g.advance 0 = g := rfl

theorem keystreamBlock_advance (g : Session) (a b : Nat) :
    (g.advance a).keystreamBlock b = g.keystreamBlock (a + b) := by
  rcases b with _ | b
  · rfl
  · show cipher g.grk (inc32^[b + 1] (inc32^[a] g.ctr)) = cipher g.grk (inc32^[a + b + 1] g.ctr)
    rw [← Function.iterate_add_apply, Nat.add_comm, Nat.add_assoc]

theorem advance_advance (g : Session) (a b : Nat) : (g.advance a).advance b = g.advance (a + b) := by
  rw [Session.advance, keystreamBlock_advance]
  show { g with ctr := inc32^[b] (inc32^[a] g.ctr), ks := g.keystreamBlock (a + b) } = g.advance (a + b)
  rw [← Function.iterate_add_apply, Nat.add_comm b a, Session.advance]

/-- The keystream step begins the block that one more byte begins (R146). -/
theorem keystreamStep_eq_advance (g : Session) : keystreamStep g = g.advance (blocksBegun g.plen 1) := by
  by_cases h : g.plen = 0
  · rw [keystreamStep, if_pos h, show blocksBegun g.plen 1 = 1 by rw [h]; rfl]
    rfl
  · have hp : blocksBegun g.plen 1 = 0 := by
      have := Fin.val_ne_of_ne h
      simp only [Fin.val_zero] at this
      unfold blocksBegun
      omega
    rw [keystreamStep, if_neg h, hp, advance_zero]

/-- Absorb neither reads nor writes CTR and KS. -/
theorem absorb_advance (g : Session) (k : Nat) (b : Byte) : absorb (g.advance k) b = (absorb g b).advance k := by
  by_cases h : g.plen = 15 <;> simp only [absorb, fold, Session.advance, Session.keystreamBlock, h, if_true, if_false]

theorem absorbAll_advance (g : Session) (k : Nat) (bs : List Byte) :
    absorbAll (g.advance k) bs = (absorbAll g bs).advance k := by
  induction bs generalizing g with
  | nil => rfl
  | cons b bs ih => exact (congrArg (absorbAll · bs) (absorb_advance g k b)).trans (ih (absorb g b))

/-- Blocks begun by one byte, and then by `n` more. -/
theorem blocksBegun_succ {p : Nat} (hp : p < 16) (n : Nat) :
    blocksBegun p 1 + blocksBegun ((p + 1) % 16) n = blocksBegun p (n + 1) := by
  unfold blocksBegun
  omega

/-! ## A command's text bytes -/

/-- A byte operation on text XORs the next keystream byte to its input and absorbs the byte that `pick` takes of the
input and the output (R149, R150). -/
def CiphersBytes (f : Session → Byte → Session × Byte) (pick : Byte → Byte → Byte) : Prop :=
  ∀ g b, let k := keystreamStep g
    f g b = (absorb k (pick b (b ^^^ byteAt k.ks k.plen)), b ^^^ byteAt k.ks k.plen)

/-- GENC absorbs its output, the ciphertext (R149). -/
theorem ciphersBytes_encByte : CiphersBytes encByte fun _ o => o := fun _ _ => rfl

/-- GDEC absorbs its input, the received ciphertext (R150). -/
theorem ciphersBytes_decByte : CiphersBytes decByte fun b _ => b := fun _ _ => rfl

section
variable {f : Session → Byte → Session × Byte} {pick : Byte → Byte → Byte}

theorem CiphersBytes.isTextByte (hf : CiphersBytes f pick) : IsTextByte f := fun g b => ⟨_, congrArg Prod.fst (hf g b)⟩

/-- The session after one text byte. -/
theorem CiphersBytes.fst (hf : CiphersBytes f pick) (g : Session) (b : Byte) :
    (f g b).1 = (absorb g (pick b (f g b).2)).advance (blocksBegun g.plen 1) := by
  rw [hf, keystreamStep_eq_advance, absorb_advance]

theorem CiphersBytes.plen (hf : CiphersBytes f pick) (g : Session) (b : Byte) :
    (f g b).1.plen.val = (g.plen.val + 1) % 16 := by
  rw [hf.fst]
  exact absorb_plen g _

/-- The output for one text byte. -/
theorem CiphersBytes.snd (hf : CiphersBytes f pick) (g : Session) (b : Byte) : (f g b).2 = b ^^^ g.stream 0 := by
  have hp : (g.plen.val + 0) % 16 = g.plen.val := Nat.mod_eq_of_lt g.plen.isLt
  rw [hf, keystreamStep_eq_advance, Session.stream, hp]
  rfl

/-- The keystream goes on after one text byte. -/
theorem CiphersBytes.stream (hf : CiphersBytes f pick) (g : Session) (b : Byte) (j : Nat) :
    (f g b).1.stream j = g.stream (j + 1) := by
  have hblock : ∀ k, (f g b).1.keystreamBlock k = g.keystreamBlock (blocksBegun g.plen 1 + k) := fun k => by
    have hr := absorb_keepsRest g (pick b (f g b).2)
    rw [hf.fst, keystreamBlock_advance, Session.keystreamBlock, hr.ks, hr.grk, hr.ctr, Session.keystreamBlock]
  rw [Session.stream, hblock, hf.plen, blocksBegun_succ g.plen.isLt, Session.stream]
  congr 1
  omega

/-- A command's output bytes: the input under the keystream (R149, R150). -/
theorem CiphersBytes.mapBytes_snd (hf : CiphersBytes f pick) (g : Session) (bs : List Byte) :
    (mapBytes f g bs).2 = bs.mapIdx fun j b => b ^^^ g.stream j := by
  induction bs generalizing g with
  | nil => rfl
  | cons b bs ih =>
    rw [List.mapIdx_cons, ← hf.snd g b]
    simp only [← hf.stream g b, ← ih]
    rfl

/-- The session after a command's text bytes: bytes are absorbed, and the counter moves once for each block begun. -/
theorem CiphersBytes.mapBytes_fst (hf : CiphersBytes f pick) (g : Session) (bs : List Byte) :
    (mapBytes f g bs).1
      = (absorbAll g (List.zipWith pick bs (mapBytes f g bs).2)).advance (blocksBegun g.plen bs.length) := by
  induction bs generalizing g with
  | nil => simp [mapBytes, absorbAll, blocksBegun]
  | cons b bs ih =>
    show (mapBytes f (f g b).1 bs).1 = _
    rw [ih, hf.plen]
    conv_lhs => rw [hf.fst, absorbAll_advance, advance_advance, ← hf.fst, blocksBegun_succ g.plen.isLt]
    rfl

end

/-- A command's text bytes move the counter once for each block begun (R146). -/
theorem mapBytes_ctr {f : Session → Byte → Session × Byte} (hf : IsTextByte f) (g : Session) (bs : List Byte) :
    (mapBytes f g bs).1.ctr = inc32^[blocksBegun g.plen bs.length] g.ctr := by
  induction bs generalizing g with
  | nil => rw [List.length_nil, show blocksBegun g.plen 0 = 0 by simp [blocksBegun]]; rfl
  | cons b bs ih =>
    obtain ⟨c, hc⟩ := hf g b
    rw [keystreamStep_eq_advance, absorb_advance] at hc
    have hctr : (f g b).1.ctr = inc32^[blocksBegun g.plen 1] g.ctr := by
      rw [hc]
      exact congrArg _ (absorb_keepsRest g c).ctr
    have hplen : (f g b).1.plen.val = (g.plen.val + 1) % 16 := by rw [hc]; exact absorb_plen g c
    rw [show (mapBytes f g (b :: bs)).1 = (mapBytes f (f g b).1 bs).1 from rfl, ih, hctr, hplen,
      ← Function.iterate_add_apply, Nat.add_comm, blocksBegun_succ g.plen.isLt, List.length_cons]

/-! ## The counter's invariant -/

/-- Blocks begun by a text of `m` bytes whose bit count wraps, and then by `n` more bytes, modulo the counter's period
(R146, R160). -/
theorem blocksBegun_bitCount {c : Count} (h : c.toNat % 8 = 0) (n : BitVec 5) :
    (blocksBegun (c.toNat / 8 % 16) n.toNat + (c.toNat / 8 + 15) / 16) % 2 ^ 32
      = ((c + bitCount n).toNat / 8 + 15) / 16 % 2 ^ 32 := by
  rw [BitVec.toNat_add, toNat_bitCount, blocksBegun]
  omega

/-- A session whose counter stands at J0 before any text meets the invariant. -/
theorem counterInv_of_beforeText {g : Session} (hctr : g.ctr = g.j0) (hclen : g.clen = 0) : g.CounterInv := by
  intro _ _
  rw [hctr, hclen]
  rfl

theorem textSession_counterInv {g : Session} (hi : g.PhaseInv) (h : g.CounterInv) {p : Phase}
    (hp : p = .dataEnc ∨ p = .dataDec) (hg : g.phase = .init ∨ g.phase = .aad ∨ g.phase = p)
    {f : Session → Byte → Session × Byte} (hf : IsTextByte f) {n : BitVec 5}
    {bs : List Byte} (hl : bs.length = n.toNat) : (textSession p f n bs g).CounterInv := by
  intro _ _
  have hr := leaveAad_keepsRest g
  have hm := mapBytes_keepsText hf { leaveAad g with phase := p } bs
  have hclen : (textSession p f n bs g).clen = g.clen + bitCount n := congrArg (· + bitCount n) (hm.clen.trans hr.clen)
  have hj0 : (textSession p f n bs g).j0 = g.j0 := hm.j0.trans hr.j0
  have hctr : (textSession p f n bs g).ctr = inc32^[blocksBegun (leaveAad g).plen n.toNat] g.ctr := by
    rw [← hl, ← hr.ctr]
    exact mapBytes_ctr hf _ bs
  have hstart : g.ctr = inc32^[(g.clen.toNat / 8 + 15) / 16] g.j0 := by
    apply h <;> rcases hp with rfl | rfl <;> rcases hg with hg | hg | hg <;> simp [hg]
  obtain ⟨-, hc8, -⟩ := hi.bits
  rw [hctr, hclen, hj0, hstart, (hi.leaveAad hp hg).1, ← Function.iterate_add_apply]
  exact iterate_inc32_congr (blocksBegun_bitCount hc8 n) g.j0

theorem finalSession_counterInv {g : Session} (h : g.CounterInv) (hp : g.phase ∈ [.init, .aad, .dataEnc, .dataDec]) :
    (finalSession g).CounterInv := by
  intro _ _
  have hr := flush_keepsRest g
  have hg : g.ctr = inc32^[(g.clen.toNat / 8 + 15) / 16] g.j0 := by apply h <;> rintro hi <;> simp [hi] at hp
  rw [show (finalSession g).ctr = g.ctr from hr.ctr, show (finalSession g).clen = g.clen from hr.clen,
    show (finalSession g).j0 = g.j0 from hr.j0, hg]

/-- Settles O59: with the phase's invariant, which ties PLEN to CLEN, every body of a GCM command keeps the count of
blocks begun modulo the counter's period. -/
theorem stepKeepsTheCounterInvariant : Obligations.StepKeepsTheCounterInvariant := by
  intro s t hi hc h
  refine (session_invariant_of_step (P := fun g => g.PhaseInv ∧ g.CounterInv) ⟨phaseInv_reset, nofun⟩ ?_ ⟨hi, hc⟩ h).2
  exact commandBody_session_invariant (P := fun g => g.PhaseInv ∧ g.CounterInv)
    (hstart := fun key => ⟨sessionStart_phaseInv key, nofun⟩)
    (hnonce := fun n bs g hl hp hg =>
      ⟨nonceBytes_phaseInv hg.1 hp hl, fun _ hn => absurd ((nonceBytes_phase n bs g).trans hp) hn⟩)
    (hend := fun g hp hg =>
      have ⟨_, _, _, _, _, hclen⟩ := hg.1.nonce hp
      ⟨nonceEnd_phaseInv hg.1 hp, counterInv_of_beforeText rfl hclen⟩)
    (haad := fun n bs g hl hp hg =>
      have ⟨_, hctr, _, hclen⟩ := (aadBytes_phaseInv hg.1 hp hl).aad rfl
      ⟨aadBytes_phaseInv hg.1 hp hl, counterInv_of_beforeText hctr hclen⟩)
    (htext := fun p f n bs g hp hf hl hph hg => ⟨textSession_phaseInv hg.1 hp hph hf hl,
      textSession_counterInv hg.1 hg.2 hp hph hf hl⟩)
    (hfinal := fun g hp hg => ⟨finalSession_phaseInv hg.1 (by rintro hi; simp [hi] at hp),
      finalSession_counterInv hg.2 hp⟩)

end Sys2Proof.Machine
end

section
/-! SUPPORT. What each GCM command completes with (42_gcm.md R142 to R157). -/

namespace Sys2Proof.Machine

/-! ## Admission and completion -/

/-- A GCM command of legal length is admitted in a phase that allows it. -/
theorem exec_gcmCommand {i : Instr} {s : State} (hg : isGcm i = true) (hw : i.wf = true)
    (hp : s.dev.gcm.phase ∈ allowedPhases i) : exec i s = .next { s with dev := finish (commandBody i s.dev) } := by
  obtain ha | ⟨n, rfl⟩ := admissionError_of_allowed hw hp
  · exact exec_of_admitted ha
  · cases hg

/-- `i` completes without error from `s` to `t`, and has written the session and DOUT alone. -/
structure Completes (i : Instr) (s t : State) : Prop where
  exec : exec i s = .next t
  succeeded : Succeeded t.dev
  gcm : t.dev.gcm = (commandBody i s.dev).1.gcm
  dout : t.dev.dout = (commandBody i s.dev).1.dout
  env : KeepsEnv s t
  inputs : KeepsInputs s.dev t.dev
  keys : KeepsKeys s.dev t.dev
  authOk : t.dev.authOk = s.dev.authOk

/-- Every GCM command but GVERIFY completes without error once it is admitted. -/
theorem exists_completes {i : Instr} {s : State} (hg : isGcm i = true) (hv : ∀ n, i ≠ .gverify n) (hw : i.wf = true)
    (hp : s.dev.gcm.phase ∈ allowedPhases i) : ∃ t, Completes i s t := by
  refine ⟨_, exec_gcmCommand hg hw hp, ?_, finish_gcm _, finish_dout _, keepsEnv_withDev s _, ?_, ?_, ?_⟩
  all_goals cases i with
    | kexpE | kexpD | crypt | round | gmul => cases hg
    | gverify n => exact absurd rfl (hv n)
    | ginit | gnonce | gnonceEnd | gaad | genc | gdec | gfinish => constructor <;> rfl

theorem Completes.unique {i : Instr} {s t u : State} (h : Completes i s t) (hu : Machine.exec i s = .next u) :
    u = t := by
  cases h.exec.symm.trans hu
  rfl

/-- The LEN check of GNONCE, GAAD, GENC and GDEC (R73). -/
theorem len_le_16 {n : BitVec 5} (h : n.toNat ≤ 16) : decide (n ≤ 16) = true := decide_eq_true (BitVec.le_def.2 h)

/-- A tag command of 1 to 16 bytes is well formed (R73). -/
theorem wf_of_tagLength {n : BitVec 5} (h1 : 1 ≤ n.toNat) (h2 : n.toNat ≤ 16) :
    (Instr.gfinish n).wf = true ∧ (Instr.gverify n).wf = true := by
  simpa [Instr.wf, BitVec.le_def] using ⟨h1, h2⟩

/-! ## GINIT, GNONCE and GNONCE_END -/

/-- J0 of the fast path holds the first 12 bytes of PBUF alone (R144). -/
theorem fastJ0_congr {a b : Block} (h : ∀ j, j < 12 → byteAt a j = byteAt b j) : fastJ0 a = fastJ0 b := by
  refine block_ext fun j hj => ?_
  by_cases h12 : j < 12
  · rw [fastJ0, byteAt_append _ _ h12, h j h12, fastJ0, byteAt_append _ _ h12]
  · refine BitVec.eq_of_getLsbD_eq fun i hi => ?_
    rw [getLsbD_byteAt, getLsbD_byteAt, fastJ0, fastJ0, BitVec.getLsbD_append, BitVec.getLsbD_append, if_pos (by omega),
      if_pos (by omega)]

/-- GNONCE_END with the length of a 12-byte nonce takes the fast path (R144). -/
theorem nonceJ0_of_96 {g : Session} (h : g.nlen = 96) : nonceJ0 g = fastJ0 g.pbuf := if_pos h

theorem nonceJ0_of_ne_96 {g : Session} (h : g.nlen ≠ 96) :
    nonceJ0 g = gfMul (flushedAcc g ^^^ ((0 : Count) ++ g.nlen)) g.h := by
  rw [nonceJ0, if_neg h, hashJ0, fold_acc, flush_acc, (flush_keepsRest g).h, be64Pair]

/-- The tail after fewer than 16 bytes absorbed into an empty session. -/
theorem pbuf_absorbAll {g : Session} (hg : g.CarryInv) (hp : g.plen = 0) {bs : List Byte} (hl : bs.length < 16) :
    (absorbAll g bs).pbuf = packBytes bs := by
  obtain ⟨-, hpbuf, -⟩ := (absorbAll_absorbedAs hg hl.le).short (by rw [hp]; simpa using hl)
  rwa [tail_of_plen_eq_zero hp, List.nil_append] at hpbuf

/-- GINIT with LEN = 12 takes J0 from the first three words of DIN (R142, R144). -/
theorem sessionInit_12 (key : Block) (q : Quad) : sessionInit 12 key q.toBlock = { sessionStart key with
    phase := .init, nlen := 96
    j0 := q.w0 ++ q.w1 ++ q.w2 ++ (1 : Word), ctr := q.w0 ++ q.w1 ++ q.w2 ++ (1 : Word) } := by
  have hr := absorbAll_keepsRest (sessionStart key) (takeBytes 12 q.toBlock)
  have hbuf : (absorbAll (sessionStart key) (takeBytes 12 q.toBlock)).pbuf = packBytes (takeBytes 12 q.toBlock) :=
    pbuf_absorbAll (sessionStart_carryInv key) rfl (by simp)
  have hj0 : fastJ0 (packBytes (takeBytes 12 q.toBlock)) = q.w0 ++ q.w1 ++ q.w2 ++ (1 : Word) := by
    rw [fastJ0_congr (b := q.toBlock) fun j hj => ?_, fastJ0, Quad.toBlock, firstBytes_append]
    rw [byteAt_packBytes _ _ (by simp) (by omega), getD_takeBytes _ _ _ hj]
  rw [sessionInit, if_pos (by rfl), nonceBytes]
  generalize absorbAll (sessionStart key) (takeBytes 12 q.toBlock) = k at hr hbuf
  have hnlen : k.nlen + bitCount 12 = 96 := by rw [hr.nlen]; rfl
  simp only [nonceEnd, nonceJ0, hnlen, if_true, hbuf, hj0, hr.grk, hr.h, hr.alen, hr.clen, sessionStart]

/-- Settles O22: GINIT is admitted in every phase; with LEN = 12 the nonce's 12 bytes are the carry. -/
theorem ginitCompletes : Obligations.GinitCompletes := by
  intro s rk
  have hp : ∀ n, s.dev.gcm.phase ∈ allowedPhases (.ginit n) := fun n => by
    cases s.dev.gcm.phase <;> simp [allowedPhases]
  obtain ⟨t, ht⟩ := exists_completes (i := .ginit 0) (s := s) rfl nofun rfl (hp 0)
  obtain ⟨u, hu⟩ := exists_completes (i := .ginit 12) (s := s) rfl nofun rfl (hp 12)
  exact ⟨⟨t, ht.exec, ht.succeeded, ht.gcm, ht.env, ht.inputs, ht.keys, ht.authOk, ht.dout⟩,
    ⟨u, _, hu.exec, hu.succeeded, rfl, hu.gcm.trans (sessionInit_12 _ _), hu.env, hu.inputs, hu.keys, hu.authOk,
      hu.dout⟩⟩

/-- Settles O23: the carry's closed form, and what absorbing keeps. -/
theorem gnonceCompletes : Obligations.GnonceCompletes := by
  intro s n hn hp
  obtain ⟨t, ht⟩ := exists_completes (i := .gnonce n) (s := s) rfl nofun (len_le_16 hn) (by simp [allowedPhases, hp])
  have hr := absorbAll_keepsRest s.dev.gcm (dinBytes n s.dev)
  have hg : t.dev.gcm = nonceBytes n (dinBytes n s.dev) s.dev.gcm := ht.gcm
  refine ⟨t, ht.exec, ht.succeeded, ?_, ?_, ?_, ?_, ?_, ?_, ?_, ?_, ?_, ?_, ?_, ht.env, ht.inputs, ht.keys, ht.authOk,
    ht.dout⟩
  all_goals rw [hg]
  · exact hr.phase.trans hp
  · exact congrArg (· + bitCount n) hr.nlen
  · intro hc
    obtain ⟨hs, hf⟩ := absorbAll_absorbedAs hc (bs := dinBytes n s.dev) (by simpa using hn)
    exact ⟨hs, hf⟩
  · rintro rfl
    exact congrArg (fun c => { s.dev.gcm with nlen := c }) (BitVec.add_zero s.dev.gcm.nlen)
  · exact hr.grk
  · exact hr.h
  · exact hr.j0
  · exact hr.ctr
  · exact hr.ks
  · exact hr.alen
  · exact hr.clen

/-- Settles O24: by the two cases of NLEN. -/
theorem gnonceEndCompletes : Obligations.GnonceEndCompletes := by
  intro s hp
  obtain ⟨t, ht⟩ := exists_completes (i := .gnonceEnd 0) (s := s) rfl nofun rfl (by simp [allowedPhases, hp])
  refine ⟨t, nonceJ0 s.dev.gcm, ht.exec, ht.succeeded, fun h => ?_, nonceJ0_of_ne_96, ht.gcm, ht.env, ht.inputs,
    ht.keys, ht.authOk, ht.dout⟩
  rw [nonceJ0_of_96 h]
  exact ⟨fun j hj => byteAt_append _ _ hj, be32_append _ _⟩

/-! ## GAAD -/

/-- Settles O25: the carry's closed form, and what absorbing keeps. -/
theorem gaadCompletes : Obligations.GaadCompletes := by
  intro s n hn hp
  obtain ⟨t, ht⟩ := exists_completes (i := .gaad n) (s := s) rfl nofun (len_le_16 hn)
    (by rcases hp with hp | hp <;> simp [allowedPhases, hp])
  have hr := absorbAll_keepsRest s.dev.gcm (dinBytes n s.dev)
  have hg : t.dev.gcm = aadBytes n (dinBytes n s.dev) s.dev.gcm := ht.gcm
  refine ⟨t, ht.exec, ht.succeeded, ?_, ?_, ?_, ?_, ?_, ?_, ?_, ?_, ht.env, ht.inputs, ht.keys, ht.authOk, ht.dout⟩
  all_goals rw [hg]
  · rfl
  · exact congrArg (· + bitCount n) hr.alen
  · intro hc
    obtain ⟨hs, hf⟩ := absorbAll_absorbedAs hc (bs := dinBytes n s.dev) (by simpa using hn)
    exact ⟨hs, hf⟩
  · rintro rfl
    exact congrArg (fun c => { s.dev.gcm with phase := .aad, alen := c }) (BitVec.add_zero s.dev.gcm.alen)
  · exact ⟨hr.grk, hr.h, hr.j0, hr.nlen⟩
  · exact hr.ctr
  · exact hr.ks
  · exact hr.clen

/-! ## The keystream of one command -/

theorem leaveAad_eq_ite {g : Session} {p : Phase} (hp : p = .dataEnc ∨ p = .dataDec)
    (hg : g.phase = .init ∨ g.phase = .aad ∨ g.phase = p) : leaveAad g = if g.phase = p then g else flush g := by
  unfold leaveAad
  rcases hp with rfl | rfl <;> rcases hg with hg | hg | hg <;> simp [hg]

/-- The keystream of the next 16 bytes: the rest of KS, then the next counter's block (R146). -/
theorem stream_eq_keystreamByte (g : Session) {j : Nat} (hj : j < 16) : g.stream j = keystreamByte g j := by
  have hlt := g.plen.isLt
  have hp : g.plen = 0 ↔ g.plen.val = 0 := Fin.ext_iff
  by_cases h : g.plen = 0 ∨ 16 ≤ g.plen.val + j
  · have hb : blocksBegun g.plen (j + 1) = 1 := by unfold blocksBegun; omega
    rw [keystreamByte, if_pos h, Session.stream, hb]
    rfl
  · have hb : blocksBegun g.plen (j + 1) = 0 := by unfold blocksBegun; omega
    rw [keystreamByte, if_neg h, Session.stream, hb, Nat.mod_eq_of_lt (by omega)]
    rfl

/-- At most 16 text bytes begin one block or none (R146). -/
theorem startsBlock_iff (g : Session) {n : Nat} (hn : n ≤ 16) :
    (startsBlock g n → blocksBegun g.plen n = 1) ∧ (¬ startsBlock g n → blocksBegun g.plen n = 0) := by
  have hlt := g.plen.isLt
  rw [startsBlock, Fin.ext_iff, Fin.val_zero, blocksBegun]
  omega

theorem takeBytes_packBytes {bs : List Byte} (h : bs.length ≤ 16) : takeBytes bs.length (packBytes bs) = bs := by
  refine List.ext_getElem (length_takeBytes _ _) fun j h1 h2 => ?_
  have hb := byteAt_packBytes bs j h (by omega)
  simpa [takeBytes, h2] using hb

/-! ## Text bytes, of any number -/

/-- The session with another phase and other counts. -/
def Session.label (g : Session) (p : Phase) (a c n : Count) : Session :=
  { g with phase := p, alen := a, clen := c, nlen := n }

/-- The session from which GENC and GDEC take text bytes. -/
def textStart (p : Phase) (g : Session) : Session := { leaveAad g with phase := p }

/-- The session after text bytes under GENC or GDEC, for the phase and the byte operation of each. -/
def textString (p : Phase) (f : Session → Byte → Session × Byte) (bs : List Byte) (g : Session) : Session :=
  (mapBytes f (textStart p g) bs).1.label p g.alen (g.clen + BitVec.ofNat 64 (8 * bs.length)) g.nlen

/-- The output of those text bytes. -/
def textOutput (p : Phase) (f : Session → Byte → Session × Byte) (bs : List Byte) (g : Session) : List Byte :=
  (mapBytes f (textStart p g) bs).2

/-- Another CLEN is another label. -/
theorem withClen_eq_label {k : Session} {p : Phase} {a n : Count} (c : Count) (hp : k.phase = p) (ha : k.alen = a)
    (hn : k.nlen = n) : { k with clen := c } = k.label p a c n := by
  subst hp ha hn
  rfl

theorem textSession_eq_textString (p : Phase) {f : Session → Byte → Session × Byte} (hf : IsTextByte f) {n : BitVec 5}
    {bs : List Byte} (hl : bs.length = n.toNat) (g : Session) : textSession p f n bs g = textString p f bs g := by
  have hr := leaveAad_keepsRest g
  have hm := mapBytes_keepsText hf (textStart p g) bs
  have hclen : (mapBytes f (textStart p g) bs).1.clen = g.clen := hm.clen.trans hr.clen
  refine (withClen_eq_label _ hm.phase (hm.alen.trans hr.alen) (hm.nlen.trans hr.nlen)).trans ?_
  rw [textString, hl, ← hclen]
  rfl

/-! ## GENC and GDEC -/

/-- What GENC and GDEC, with `n` operand bytes, make of the block: the session `g`, its AAD tail flushed, goes on with
the keystream and has absorbed `bs`. -/
structure TextCommand (p : Phase) (n : BitVec 5) (bs : List Byte) (g : Session) (d e : Device) : Prop where
  phase : e.gcm.phase = p
  clen : e.gcm.clen = d.gcm.clen + BitVec.ofNat 64 (8 * n.toNat)
  dout : ∀ j, j < 16 → byteAt e.dout.toBlock j
    = if j < n.toNat then byteAt d.din.toBlock j ^^^ keystreamByte g j else 0
  absorbed : g.CarryInv → AbsorbedAs g e.gcm bs
  started : startsBlock g n.toNat → e.gcm.ctr = inc32 g.ctr ∧ e.gcm.ks = cipher g.grk (inc32 g.ctr)
  continued : ¬ startsBlock g n.toNat → e.gcm.ctr = g.ctr ∧ e.gcm.ks = g.ks
  setup : KeepsSetup d.gcm e.gcm
  alen : e.gcm.alen = d.gcm.alen

section
variable {f : Session → Byte → Session × Byte} {pick : Byte → Byte → Byte}

theorem CiphersBytes.length_textOutput (hf : CiphersBytes f pick) (p : Phase) (bs : List Byte) (g : Session) :
    (textOutput p f bs g).length = bs.length := by
  rw [textOutput, hf.mapBytes_snd, List.length_mapIdx]

/-- The session after text bytes, its bytes absorbed and its keystream moved on. -/
theorem CiphersBytes.textString_eq (hf : CiphersBytes f pick) (p : Phase) (bs : List Byte) (g : Session) :
    textString p f bs g = ((absorbAll (textStart p g) (List.zipWith pick bs (textOutput p f bs g))).advance
      (blocksBegun (leaveAad g).plen bs.length)).label p g.alen (g.clen + BitVec.ofNat 64 (8 * bs.length)) g.nlen := by
  rw [textString, hf.mapBytes_fst]
  rfl

/-- The bytes of DOUT after a text command (R149, R150). -/
theorem CiphersBytes.byteAt_textOutput (hf : CiphersBytes f pick) (p : Phase) {n : BitVec 5} (hn : n.toNat ≤ 16)
    (b : Block) (g : Session) {j : Nat} (hj : j < 16) :
    byteAt (packBytes (textOutput p f (takeBytes n.toNat b) g)) j
      = if j < n.toNat then byteAt b j ^^^ keystreamByte (leaveAad g) j else 0 := by
  have hlen : (textOutput p f (takeBytes n.toNat b) g).length = n.toNat := by
    rw [hf.length_textOutput, length_takeBytes]
  rw [byteAt_packBytes _ _ (by rwa [hlen]) hj]
  split
  · rw [List.getD_eq_getElem _ _ (by omega), ← getD_takeBytes n.toNat j b ‹_›,
      List.getD_eq_getElem (takeBytes n.toNat b) _ (by simpa)]
    simp only [textOutput, hf.mapBytes_snd, List.getElem_mapIdx, stream_eq_keystreamByte _ hj]
    rfl
  · exact List.getD_eq_default _ _ (by omega)

/-- The first LEN bytes of DOUT are the output bytes. -/
theorem CiphersBytes.takeBytes_dout (hf : CiphersBytes f pick) {p : Phase} {n : BitVec 5} (hn : n.toNat ≤ 16)
    {d e : Device} (hdout : e.dout = Quad.ofBlock (packBytes (textOutput p f (dinBytes n d) d.gcm))) :
    takeBytes n.toNat e.dout.toBlock = textOutput p f (dinBytes n d) d.gcm := by
  have hlen : (textOutput p f (dinBytes n d) d.gcm).length = n.toNat := by rw [hf.length_textOutput, length_dinBytes]
  rw [hdout, toBlock_ofBlock]
  conv_lhs => rw [← hlen]
  exact takeBytes_packBytes (hlen ▸ hn)

theorem CiphersBytes.textCommand (hf : CiphersBytes f pick) {p : Phase} {n : BitVec 5} (hn : n.toNat ≤ 16)
    {d e : Device} (hgcm : e.gcm = textSession p f n (dinBytes n d) d.gcm)
    (hdout : e.dout = Quad.ofBlock (packBytes (textOutput p f (dinBytes n d) d.gcm))) :
    TextCommand p n (List.zipWith pick (dinBytes n d) (textOutput p f (dinBytes n d) d.gcm)) (leaveAad d.gcm) d e := by
  rw [textSession_eq_textString p hf.isTextByte (length_dinBytes n d), hf.textString_eq, length_dinBytes] at hgcm
  have hlen : (List.zipWith pick (dinBytes n d) (textOutput p f (dinBytes n d) d.gcm)).length ≤ 16 := by
    rw [List.length_zipWith, length_dinBytes]
    omega
  have hr := leaveAad_keepsRest d.gcm
  have ha := absorbAll_keepsRest (textStart p d.gcm)
    (List.zipWith pick (dinBytes n d) (textOutput p f (dinBytes n d) d.gcm))
  have hblocks := startsBlock_iff (leaveAad d.gcm) hn
  exact {
    phase := hgcm ▸ rfl
    clen := hgcm ▸ rfl
    dout := fun j hj => by
      rw [hdout, toBlock_ofBlock]
      exact hf.byteAt_textOutput p hn d.din.toBlock d.gcm hj
    absorbed := fun hc => by
      obtain ⟨hshort, hfull⟩ := absorbAll_absorbedAs (g := textStart p d.gcm) hc hlen
      rw [hgcm]
      exact ⟨hshort, hfull⟩
    started := fun h => by
      rw [hgcm, hblocks.1 h]
      exact ⟨congrArg inc32 ha.ctr, congrArg₂ cipher ha.grk (congrArg inc32 ha.ctr)⟩
    continued := fun h => by
      rw [hgcm, hblocks.2 h]
      exact ⟨ha.ctr, ha.ks⟩
    setup := hgcm ▸ ⟨ha.grk.trans hr.grk, ha.h.trans hr.h, ha.j0.trans hr.j0, rfl⟩
    alen := hgcm ▸ rfl }

end

/-- The input bytes GDEC absorbs, of inputs and outputs in step. -/
theorem zipWith_left {as bs : List Byte} (h : as.length = bs.length) : List.zipWith (fun a _ => a) as bs = as := by
  rw [← List.map_uncurry_zip_eq_zipWith]
  exact List.map_fst_zip h.le

/-- The output bytes GENC absorbs. -/
theorem zipWith_right {as bs : List Byte} (h : as.length = bs.length) : List.zipWith (fun _ b => b) as bs = bs := by
  rw [← List.map_uncurry_zip_eq_zipWith]
  exact List.map_snd_zip h.ge

/-- Settles O26: what GENC absorbs is its output. -/
theorem gencCompletes : Obligations.GencCompletes := by
  intro s n hn hp
  obtain ⟨t, ht⟩ := exists_completes (i := .genc n) (s := s) rfl nofun (len_le_16 hn)
    (by simpa [allowedPhases] using hp)
  have hc := ciphersBytes_encByte.textCommand hn ht.gcm ht.dout
  have hlen := ciphersBytes_encByte.length_textOutput .dataEnc (dinBytes n s.dev) s.dev.gcm
  rw [zipWith_right hlen.symm, ← ciphersBytes_encByte.takeBytes_dout hn ht.dout] at hc
  exact ⟨t, leaveAad s.dev.gcm, ht.exec, ht.succeeded, leaveAad_eq_ite (.inl rfl) hp, hc.phase, hc.clen, hc.dout,
    fun h => hc.absorbed (leaveAad_carryInv h), hc.started, hc.continued, hc.setup, hc.alen, ht.env, ht.inputs, ht.keys,
    ht.authOk⟩

/-- Settles O27: what GDEC absorbs is its input. -/
theorem gdecCompletes : Obligations.GdecCompletes := by
  intro s n hn hp
  obtain ⟨t, ht⟩ := exists_completes (i := .gdec n) (s := s) rfl nofun (len_le_16 hn)
    (by simpa [allowedPhases] using hp)
  have hc := ciphersBytes_decByte.textCommand hn ht.gcm ht.dout
  rw [zipWith_left (ciphersBytes_decByte.length_textOutput _ _ _).symm] at hc
  exact ⟨t, leaveAad s.dev.gcm, ht.exec, ht.succeeded, leaveAad_eq_ite (.inr rfl) hp, hc.phase, hc.clen, hc.dout,
    fun h => hc.absorbed (leaveAad_carryInv h), hc.started, hc.continued, hc.setup, hc.alen, ht.env, ht.inputs, ht.keys,
    ht.authOk⟩

/-! ## GFINISH and GVERIFY -/

/-- What the final length block makes of the session `g` (R153, R155). -/
structure Finished (g k : Session) : Prop where
  phase : k.phase = .finished
  acc : k.acc = finalAcc g
  plen : k.plen = 0
  pbuf : g.CarryInv → k.pbuf = 0
  setup : KeepsSetup g k
  ctr : k.ctr = g.ctr
  ks : k.ks = g.ks
  alen : k.alen = g.alen
  clen : k.clen = g.clen

theorem finalSession_finished (g : Session) : Finished g (finalSession g) :=
  have hr := flush_keepsRest g
  ⟨rfl, finalSession_acc g, flush_plen g, flush_pbuf, ⟨hr.grk, hr.h, hr.j0, hr.nlen⟩, hr.ctr, hr.ks, hr.alen, hr.clen⟩

/-- Settles O28: DOUT is the tag cut to LEN bytes and packed. -/
theorem gfinishCompletes : Obligations.GfinishCompletes := by
  intro s n h1 h16 hp
  obtain ⟨t, ht⟩ := exists_completes (i := .gfinish n) (s := s) rfl nofun (wf_of_tagLength h1 h16).1 hp
  have hf : Finished s.dev.gcm t.dev.gcm := ht.gcm ▸ finalSession_finished s.dev.gcm
  have hdout : ∀ j, j < 16 → byteAt t.dev.dout.toBlock j
      = if j < n.toNat then byteAt (tagOf s.dev.gcm) j else 0 := fun j hj => by
    rw [ht.dout, ← fullTag_eq_tagOf]
    refine (congrArg (byteAt · j) (toBlock_ofBlock _)).trans ?_
    rw [byteCount, byteAt_packBytes _ _ (by rwa [length_takeBytes]) hj]
    split
    · exact getD_takeBytes _ _ _ ‹_›
    · exact List.getD_eq_default _ _ (by rw [length_takeBytes]; omega)
  exact ⟨t, ht.exec, ht.succeeded, hdout, hf.phase, hf.acc, hf.plen, hf.pbuf, hf.setup, hf.ctr, hf.ks, hf.alen, hf.clen,
    ht.env, ht.inputs, ht.keys, ht.authOk⟩

/-- Settles O29: by the outcome of the comparison. -/
theorem gverifyCompletes : Obligations.GverifyCompletes := by
  intro s n h1 h16 hp
  have hx := exec_gcmCommand (i := .gverify n) rfl (wf_of_tagLength h1 h16).2 hp
  have hf := finalSession_finished s.dev.gcm
  have hiff := tagsAgree_fullTag_iff n s.dev.gcm s.dev.aux.toBlock
  by_cases h : tagsAgree (byteCount n) (fullTag s.dev.gcm) s.dev.aux.toBlock = true
  · rw [commandBody, verifyBody_of_agree h] at hx
    exact ⟨_, hx, rfl, hf.phase, hf.acc, hf.plen, hf.pbuf, hf.setup, hf.ctr, hf.ks, hf.alen, hf.clen,
      fun _ => ⟨⟨rfl, rfl, rfl, rfl⟩, rfl⟩, fun ⟨j, hj, hne⟩ => absurd (hiff.1 h j hj) hne,
      keepsEnv_withDev s _, ⟨rfl, rfl, rfl, rfl, rfl, rfl⟩, ⟨rfl, rfl, rfl⟩⟩
  · rw [commandBody, verifyBody_of_differ h] at hx
    exact ⟨_, hx, rfl, hf.phase, hf.acc, hf.plen, hf.pbuf, hf.setup, hf.ctr, hf.ks, hf.alen, hf.clen,
      fun hagree => absurd (hiff.2 hagree) h, fun _ => ⟨⟨rfl, rfl, rfl, rfl⟩, rfl⟩,
      keepsEnv_withDev s _, ⟨rfl, rfl, rfl, rfl, rfl, rfl⟩, ⟨rfl, rfl, rfl⟩⟩

/-- GFINISH 16 leaves the whole tag in DOUT (R153). -/
theorem toBlock_dout_of_gfinish_16 {s t : State} (h : Completes (.gfinish 16) s t) :
    t.dev.dout.toBlock = tagOf s.dev.gcm := by
  rw [h.dout, ← fullTag_eq_tagOf]
  exact (toBlock_ofBlock _).trans (packBytes_takeBytes 16 _ le_rfl (by omega))

/-- Settles O36: with nothing absorbed, J0 and the final accumulator are products with 0. -/
theorem zeroLengthNonceTagIsSubkey : Obligations.ZeroLengthNonceTagIsSubkey := by
  intro s
  obtain ⟨a, ha⟩ := exists_completes (i := .ginit 0) (s := s) rfl nofun rfl
    (by cases s.dev.gcm.phase <;> simp [allowedPhases])
  have hga : a.dev.gcm = sessionStart s.dev.key.toBlock := ha.gcm
  obtain ⟨b, hb⟩ := exists_completes (i := .gnonceEnd 0) (s := a) rfl nofun rfl
    (by simp [allowedPhases, hga, sessionStart])
  have hgb : b.dev.gcm = nonceEnd (sessionStart s.dev.key.toBlock) := hga ▸ hb.gcm
  obtain ⟨c, hc⟩ := exists_completes (i := .gfinish 16) (s := b) rfl nofun rfl (by simp [allowedPhases, hgb, nonceEnd])
  have hj0 : nonceJ0 (sessionStart s.dev.key.toBlock) = 0 :=
    by
    rw [nonceJ0_of_ne_96 (by simp [sessionStart])]
    simp only [flushedAcc, sessionStart, if_true]
    exact zero_gfMul _
  have hacc : finalAcc (nonceEnd (sessionStart s.dev.key.toBlock)) = 0 := by
    simp only [finalAcc, flushedAcc, nonceEnd, sessionStart, if_true]
    exact zero_gfMul _
  refine ⟨a, b, c, ha.exec, hb.exec, hc.exec, hgb ▸ hj0, ?_⟩
  rw [toBlock_dout_of_gfinish_16 hc, hgb, tagOf, hacc]
  exact BitVec.xor_zero.trans (congrArg (cipher (keyExpand s.dev.key.toBlock)) hj0)

end Sys2Proof.Machine
end

section
/-! SUPPORT. The GCM commands on byte strings of any length (42_gcm.md R143, R147 to R150, R156, R158): two commands
leave what one leaves, and GDEC undoes GENC. -/

namespace Sys2Proof.Machine

/-! ## Absorbing reads and writes the hash state alone -/

/-- The hash state of a session: ACC, PBUF, PLEN and H, with everything else at reset. -/
def Session.hashPart (g : Session) : Session :=
  { Session.reset with acc := g.acc, pbuf := g.pbuf, plen := g.plen, h := g.h }

theorem hashPart_absorb (g : Session) (b : Byte) : (absorb g b).hashPart = absorb g.hashPart b := by
  by_cases h : g.plen = 15 <;> simp [absorb, fold, Session.hashPart, h]

theorem hashPart_absorbAll (g : Session) (bs : List Byte) : (absorbAll g bs).hashPart = absorbAll g.hashPart bs := by
  induction bs generalizing g with
  | nil => rfl
  | cons b bs ih => exact (ih (absorb g b)).trans (congrArg (absorbAll · bs) (hashPart_absorb g b))

theorem hashPart_flush (g : Session) : (flush g).hashPart = flush g.hashPart := by
  by_cases h : g.plen = 0 <;> simp [flush, fold, Session.hashPart, h]

theorem absorb_label (g : Session) (b : Byte) (p : Phase) (a c n : Count) :
    absorb (g.label p a c n) b = (absorb g b).label p a c n := by
  by_cases h : g.plen = 15 <;> simp [absorb, fold, Session.label, h]

theorem absorbAll_label (g : Session) (bs : List Byte) (p : Phase) (a c n : Count) :
    absorbAll (g.label p a c n) bs = (absorbAll g bs).label p a c n := by
  induction bs generalizing g with
  | nil => rfl
  | cons b bs ih => exact (congrArg (absorbAll · bs) (absorb_label g b p a c n)).trans (ih (absorb g b))

section
variable {f : Session → Byte → Session × Byte} {pick : Byte → Byte → Byte}

theorem CiphersBytes.label (hf : CiphersBytes f pick) (g : Session) (b : Byte) (p : Phase) (a c n : Count) :
    f (g.label p a c n) b = ((f g b).1.label p a c n, (f g b).2) := by
  have hk : keystreamStep (g.label p a c n) = (keystreamStep g).label p a c n := by
    rw [keystreamStep_eq_advance, keystreamStep_eq_advance]
    rfl
  rw [hf, hf, hk, absorb_label]
  rfl

theorem CiphersBytes.mapBytes_label (hf : CiphersBytes f pick) (g : Session) (bs : List Byte) (p : Phase)
    (a c n : Count) :
    mapBytes f (g.label p a c n) bs = ((mapBytes f g bs).1.label p a c n, (mapBytes f g bs).2) := by
  induction bs generalizing g with
  | nil => rfl
  | cons b bs ih => simp only [mapBytes, hf.label, ih]

end

theorem mapBytes_append (f : Session → Byte → Session × Byte) (g : Session) (as bs : List Byte) :
    mapBytes f g (as ++ bs) = ((mapBytes f (mapBytes f g as).1 bs).1,
      (mapBytes f g as).2 ++ (mapBytes f (mapBytes f g as).1 bs).2) := by
  induction as generalizing g with
  | nil => rfl
  | cons a as ih => simp only [List.cons_append, mapBytes, ih]

/-! ## Commands on byte strings -/

/-- The session after nonce bytes, of any number (R143). -/
def nonceString (bs : List Byte) (g : Session) : Session :=
  (absorbAll g bs).label g.phase g.alen g.clen (g.nlen + BitVec.ofNat 64 (8 * bs.length))

/-- The session after AAD bytes, of any number (R147). -/
def aadString (bs : List Byte) (g : Session) : Session :=
  (absorbAll g bs).label .aad (g.alen + BitVec.ofNat 64 (8 * bs.length)) g.clen g.nlen

theorem nonceBytes_eq_nonceString {n : BitVec 5} {bs : List Byte} (hl : bs.length = n.toNat) (g : Session) :
    nonceBytes n bs g = nonceString bs g := by
  have hr := absorbAll_keepsRest g bs
  rw [nonceString, hl, ← hr.phase, ← hr.alen, ← hr.clen, ← hr.nlen]
  rfl

theorem aadBytes_eq_aadString {n : BitVec 5} {bs : List Byte} (hl : bs.length = n.toNat) (g : Session) :
    aadBytes n bs g = aadString bs g := by
  have hr := absorbAll_keepsRest g bs
  rw [aadString, hl, ← hr.alen, ← hr.clen, ← hr.nlen]
  rfl

/-- Counting the bytes of two strings, in bits. -/
theorem bitLength_append (c : Count) (as bs : List Byte) :
    c + BitVec.ofNat 64 (8 * as.length) + BitVec.ofNat 64 (8 * bs.length)
      = c + BitVec.ofNat 64 (8 * (as ++ bs).length) := by
  rw [BitVec.add_assoc, ← BitVec.ofNat_add, List.length_append, Nat.mul_add]

/-- The commands `mk` of at most 16 operand bytes run as `X` does on those bytes, with the output bytes `O`, and `X` on
a string is `X` on its parts. -/
structure Streams (mk : BitVec 5 → Instr) (X : List Byte → Session → Session)
    (O : List Byte → Session → List Byte → Prop) : Prop where
  run : ∀ (s : State) (n : BitVec 5), n.toNat ≤ 16 → s.dev.gcm.phase ∈ allowedPhases (mk 0) →
    ∃ t, Completes (mk n) s t ∧ t.dev.gcm = X (dinBytes n s.dev) s.dev.gcm
      ∧ O (dinBytes n s.dev) s.dev.gcm (takeBytes n.toNat t.dev.dout.toBlock)
  allowed : ∀ bs g, g.phase ∈ allowedPhases (mk 0) → (X bs g).phase ∈ allowedPhases (mk 0)
  append : ∀ as bs g, X (as ++ bs) g = X bs (X as g)
  out_nil : ∀ g, O [] g []
  out_append : ∀ as bs g xs ys, O as g xs → O bs (X as g) ys → O (as ++ bs) g (xs ++ ys)

theorem streams_gnonce : Streams .gnonce nonceString fun _ _ _ => True where
  run s n hn hp := by
    obtain ⟨t, ht⟩ := exists_completes (i := .gnonce n) (s := s) rfl nofun (len_le_16 hn) hp
    exact ⟨t, ht, ht.gcm.trans (nonceBytes_eq_nonceString (length_dinBytes n s.dev) _), trivial⟩
  allowed _ _ hp := hp
  append as bs g := by
    simp only [nonceString, absorbAll_append, absorbAll_label, ← bitLength_append]
    rfl
  out_nil _ := trivial
  out_append _ _ _ _ _ _ _ := trivial

theorem streams_gaad : Streams .gaad aadString fun _ _ _ => True where
  run s n hn hp := by
    obtain ⟨t, ht⟩ := exists_completes (i := .gaad n) (s := s) rfl nofun (len_le_16 hn) hp
    exact ⟨t, ht, ht.gcm.trans (aadBytes_eq_aadString (length_dinBytes n s.dev) _), trivial⟩
  allowed _ _ _ := by simp [allowedPhases, aadString, Session.label]
  append as bs g := by
    simp only [aadString, absorbAll_append, absorbAll_label, ← bitLength_append]
    rfl
  out_nil _ := trivial
  out_append _ _ _ _ _ _ _ := trivial

/-- A session that has taken text bytes goes on as it is. -/
theorem textStart_of_phase {g : Session} {p : Phase} (hp : p = .dataEnc ∨ p = .dataDec) (hg : g.phase = p) :
    textStart p g = g := by
  have hstay : leaveAad g = g := if_neg (by rcases hp with rfl | rfl <;> simp [hg])
  rw [textStart, hstay, ← hg]

section
variable {f : Session → Byte → Session × Byte} {pick : Byte → Byte → Byte}

/-- Text bytes go on where the text bytes before them stopped. -/
theorem CiphersBytes.mapBytes_textString (hf : CiphersBytes f pick) {p : Phase} (hp : p = .dataEnc ∨ p = .dataDec)
    (as bs : List Byte) (g : Session) : mapBytes f (textStart p (textString p f as g)) bs
      = ((mapBytes f (mapBytes f (textStart p g) as).1 bs).1.label p g.alen
          (g.clen + BitVec.ofNat 64 (8 * as.length)) g.nlen, (mapBytes f (mapBytes f (textStart p g) as).1 bs).2) := by
  rw [textStart_of_phase hp (show (textString p f as g).phase = p from rfl)]
  exact hf.mapBytes_label _ bs _ _ _ _

theorem CiphersBytes.textString_append (hf : CiphersBytes f pick) {p : Phase} (hp : p = .dataEnc ∨ p = .dataDec)
    (as bs : List Byte) (g : Session) : textString p f (as ++ bs) g = textString p f bs (textString p f as g) := by
  rw [textString, mapBytes_append, ← bitLength_append, textString.eq_1 p f bs, hf.mapBytes_textString hp]
  rfl

theorem CiphersBytes.textOutput_append (hf : CiphersBytes f pick) {p : Phase} (hp : p = .dataEnc ∨ p = .dataDec)
    (as bs : List Byte) (g : Session) :
    textOutput p f (as ++ bs) g = textOutput p f as g ++ textOutput p f bs (textString p f as g) := by
  rw [textOutput, mapBytes_append, textOutput.eq_1 p f bs, hf.mapBytes_textString hp]
  rfl

end

theorem streams_genc : Streams .genc (textString .dataEnc encByte)
    fun bs g out => out = textOutput .dataEnc encByte bs g where
  run s n hn hp := by
    obtain ⟨t, ht⟩ := exists_completes (i := .genc n) (s := s) rfl nofun (len_le_16 hn) hp
    exact ⟨t, ht, ht.gcm.trans (textSession_eq_textString _ isTextByte_encByte (length_dinBytes n s.dev) _),
      ciphersBytes_encByte.takeBytes_dout hn ht.dout⟩
  allowed _ _ _ := by simp [allowedPhases, textString, Session.label]
  append := ciphersBytes_encByte.textString_append (.inl rfl)
  out_nil _ := rfl
  out_append as bs g xs ys hx hy := by rw [hx, hy, ciphersBytes_encByte.textOutput_append (.inl rfl)]

theorem streams_gdec : Streams .gdec (textString .dataDec decByte)
    fun bs g out => out = textOutput .dataDec decByte bs g where
  run s n hn hp := by
    obtain ⟨t, ht⟩ := exists_completes (i := .gdec n) (s := s) rfl nofun (len_le_16 hn) hp
    exact ⟨t, ht, ht.gcm.trans (textSession_eq_textString _ isTextByte_decByte (length_dinBytes n s.dev) _),
      ciphersBytes_decByte.takeBytes_dout hn ht.dout⟩
  allowed _ _ _ := by simp [allowedPhases, textString, Session.label]
  append := ciphersBytes_decByte.textString_append (.inr rfl)
  out_nil _ := rfl
  out_append as bs g xs ys hx hy := by rw [hx, hy, ciphersBytes_decByte.textOutput_append (.inr rfl)]

/-! ## Splitting a command -/

theorem dinBytes_withDin (n : BitVec 5) (b : Block) (s : State) :
    dinBytes n (s.withDin b).dev = takeBytes n.toNat b := by
  rw [dinBytes, withDin_din, toBlock_ofBlock, byteCount]

/-- The first `a + b` bytes of a block are its first `a` bytes and those of a block that holds the next `b`. -/
theorem takeBytes_add {x y : Block} {a b : Nat} (h : ∀ j, j < b → byteAt y j = byteAt x (a + j)) :
    takeBytes (a + b) x = takeBytes a x ++ takeBytes b y := by
  rw [takeBytes, List.range_add, List.map_append, List.map_map]
  congr 1
  exact List.map_congr_left fun j hj => (h j (List.mem_range.1 hj)).symm

/-- Two commands leave what one command of all their bytes leaves, and output the same bytes. -/
theorem Streams.split {mk : BitVec 5 → Instr} {X : List Byte → Session → Session}
    {O : List Byte → Session → List Byte → Prop} (h : Streams mk X O) {s t u v : State} {a b c : BitVec 5} {x y : Block}
    (hc : c.toNat = a.toNat + b.toNat) (h16 : c.toNat ≤ 16) (hp : s.dev.gcm.phase ∈ allowedPhases (mk 0))
    (hy : ∀ j, j < b.toNat → byteAt y j = byteAt x (a.toNat + j)) (ht : exec (mk c) (s.withDin x) = .next t)
    (hu : exec (mk a) (s.withDin x) = .next u) (hv : exec (mk b) (u.withDin y) = .next v) :
    v.dev.gcm = t.dev.gcm ∧ O (takeBytes c.toNat x) s.dev.gcm (takeBytes c.toNat t.dev.dout.toBlock)
      ∧ O (takeBytes c.toNat x) s.dev.gcm
          (takeBytes a.toNat u.dev.dout.toBlock ++ takeBytes b.toNat v.dev.dout.toBlock) := by
  obtain ⟨t', ht', hgt, hot⟩ := h.run (s.withDin x) c h16 hp
  obtain ⟨u', hu', hgu, hou⟩ := h.run (s.withDin x) a (by omega) hp
  cases ht'.unique ht
  cases hu'.unique hu
  rw [dinBytes_withDin, withDin_gcm] at hgt hot hgu hou
  obtain ⟨v', hv', hgv, hov⟩ := h.run (u.withDin y) b (by omega) (hgu ▸ h.allowed _ _ hp)
  cases hv'.unique hv
  rw [dinBytes_withDin, withDin_gcm, hgu] at hgv hov
  have hbytes : takeBytes c.toNat x = takeBytes a.toNat x ++ takeBytes b.toNat y := hc ▸ takeBytes_add hy
  refine ⟨?_, hot, ?_⟩
  · rw [hgv, hgt, hbytes, h.append]
  · rw [hbytes]
    exact h.out_append _ _ _ _ _ hou hov

/-- Settles O32: each of the four commands runs on a string as on its parts. -/
theorem splitCommandsAreEquivalent : Obligations.SplitCommandsAreEquivalent := by
  intro mk s t u v a b c x y hmk hc h16 hp hy ht hu hv
  rcases hmk with rfl | rfl | rfl | rfl
  · exact ⟨(streams_gnonce.split hc h16 hp hy ht hu hv).1, fun h => by rcases h with h | h <;> cases congrFun h 0⟩
  · exact ⟨(streams_gaad.split hc h16 hp hy ht hu hv).1, fun h => by rcases h with h | h <;> cases congrFun h 0⟩
  · obtain ⟨hg, hone, htwo⟩ := streams_genc.split hc h16 hp hy ht hu hv
    exact ⟨hg, fun _ => hone.trans htwo.symm⟩
  · obtain ⟨hg, hone, htwo⟩ := streams_gdec.split hc h16 hp hy ht hu hv
    exact ⟨hg, fun _ => hone.trans htwo.symm⟩

/-! ## GDEC undoes GENC -/

/-- Decrypting what encryption output, from sessions that agree but for the phase, gives back the bytes and sessions
that agree but for the phase (R156). -/
theorem mapBytes_decByte_encByte (g : Session) (bs : List Byte) (p : Phase) :
    mapBytes decByte { g with phase := p } (mapBytes encByte g bs).2
      = ({ (mapBytes encByte g bs).1 with phase := p }, bs) := by
  induction bs generalizing g with
  | nil => rfl
  | cons b bs ih => simp only [mapBytes, decByte_encByte, ih]

theorem takeBytes_eq_iff (n : Nat) (a b : Block) :
    takeBytes n a = takeBytes n b ↔ ∀ j, j < n → byteAt a j = byteAt b j := by
  simp [takeBytes]

/-- Settles O31: byte by byte, from the sessions with the AAD tail flushed. -/
theorem gdecUndoesGenc : Obligations.GdecUndoesGenc := by
  intro s r n hn hsr
  have hps : s.dev.gcm.phase ∈ allowedPhases (.genc 0) := by
    rcases hsr with ⟨h, -⟩ | ⟨h | h, -⟩ <;> simp [allowedPhases, h]
  have hpr : r.dev.gcm.phase ∈ allowedPhases (.gdec 0) := by
    rcases hsr with ⟨-, hr⟩ | ⟨h | h, hr⟩ <;> rw [hr] <;> simp [allowedPhases, *]
  have hstart : textStart .dataDec r.dev.gcm = { textStart .dataEnc s.dev.gcm with phase := .dataDec } := by
    obtain ⟨h, hr⟩ | ⟨-, hr⟩ := hsr
    · rw [textStart_of_phase (.inl rfl) h, textStart_of_phase (.inr rfl) (congrArg Session.phase hr), hr]
    · rw [hr]
      rfl
  have hcounts : r.dev.gcm.alen = s.dev.gcm.alen ∧ r.dev.gcm.clen = s.dev.gcm.clen
      ∧ r.dev.gcm.nlen = s.dev.gcm.nlen := by
    rcases hsr with ⟨-, hr⟩ | ⟨-, hr⟩ <;> rw [hr] <;> exact ⟨rfl, rfl, rfl⟩
  obtain ⟨hal, hcl, hnl⟩ := hcounts
  obtain ⟨e, he, hge, hoe⟩ := streams_genc.run s n hn hps
  refine ⟨e, he.exec, fun hdin => ?_⟩
  obtain ⟨d, hd, hgd, hod⟩ := streams_gdec.run r n hn hpr
  have hreceived : dinBytes n r.dev = textOutput .dataEnc encByte (dinBytes n s.dev) s.dev.gcm :=
    ((takeBytes_eq_iff _ _ _).2 hdin).trans hoe
  have hmap : mapBytes decByte (textStart .dataDec r.dev.gcm) (dinBytes n r.dev)
      = ({ (mapBytes encByte (textStart .dataEnc s.dev.gcm) (dinBytes n s.dev)).1 with phase := .dataDec },
          dinBytes n s.dev) := by
    rw [hstart, hreceived]
    exact mapBytes_decByte_encByte _ _ _
  have hsession : d.dev.gcm = { e.dev.gcm with phase := .dataDec } := by
    rw [hgd, hge, textString, hmap, hal, hcl, hnl, textString, length_dinBytes, length_dinBytes]
    rfl
  exact ⟨d, hd.exec, (takeBytes_eq_iff _ _ _).1 (hod.trans (congrArg Prod.snd hmap)), by rw [hge]; rfl, hsession,
    by rw [hsession]; rfl⟩

end Sys2Proof.Machine
end

section
/-! SUPPORT. Whole GCM sessions (42_gcm.md R148 to R157): pieces sent one command each leave what their string leaves,
the tag is the GCM tag of the whole strings, and J0 is that of the whole nonce. -/

namespace Sys2Proof.Machine

/-! ## Strings sent in pieces -/

/-- What pieces sent one command each leave: `X` of their string, but that no piece at all leaves `X []` still to be
made. -/
structure Sent (mk : BitVec 5 → Instr) (X : List Byte → Session → Session) (O : List Byte → Session → List Byte → Prop)
    (cs : List (BitVec 5 × Block)) (s t : State) (out : List Byte) : Prop where
  sent : sendChunks mk cs s = some (t, out)
  allowed : t.dev.gcm.phase ∈ allowedPhases (mk 0)
  session : X [] t.dev.gcm = X (chunkBytes cs) s.dev.gcm
  output : O (chunkBytes cs) s.dev.gcm out
  aux : t.dev.aux = s.dev.aux
  authOk : t.dev.authOk = s.dev.authOk

theorem Streams.exists_sent {mk : BitVec 5 → Instr} {X : List Byte → Session → Session}
    {O : List Byte → Session → List Byte → Prop} (h : Streams mk X O) {cs : List (BitVec 5 × Block)} {s : State}
    (hcs : ∀ c ∈ cs, c.1.toNat ≤ 16) (hp : s.dev.gcm.phase ∈ allowedPhases (mk 0)) :
    ∃ t out, Sent mk X O cs s t out := by
  induction cs generalizing s with
  | nil => exact ⟨s, [], rfl, hp, rfl, h.out_nil _, rfl, rfl⟩
  | cons c cs ih =>
    obtain ⟨n, b⟩ := c
    obtain ⟨u, hu, hgu, hou⟩ := h.run (s.withDin b) n (hcs (n, b) List.mem_cons_self) hp
    rw [dinBytes_withDin, withDin_gcm] at hgu hou
    obtain ⟨t, out, ht⟩ := ih (s := u) (fun c hc => hcs c (List.mem_cons_of_mem _ hc)) (hgu ▸ h.allowed _ _ hp)
    exact ⟨t, takeBytes n.toNat u.dev.dout.toBlock ++ out, {
      sent := by simp only [sendChunks, hu.exec, ht.sent, Option.map_some]
      allowed := ht.allowed
      session := by rw [ht.session, hgu, ← h.append]; rfl
      output := h.out_append _ _ _ _ _ hou (hgu ▸ ht.output)
      aux := ht.aux.trans hu.inputs.aux
      authOk := ht.authOk.trans hu.authOk }⟩

/-! ## GHASH of a session -/

/-- A session with nothing absorbed hashes a string to its GHASH (R148, 41_ghash.md R136). -/
theorem flushedAcc_absorbAll_eq_ghash {g : Session} (hg : g.hashPart = { Session.reset with h := g.h })
    (m : List Byte) : flushedAcc (absorbAll g m) = ghash g.h m := by
  rw [ghash, flush_acc, ← hg, ← hashPart_absorbAll]
  rfl

/-- Zero bytes after a string do not change the block it packs to. -/
theorem packBytes_append_zeros {bs : List Byte} {n : Nat} (h : bs.length + n ≤ 16) :
    packBytes (bs ++ List.replicate n 0) = packBytes bs := by
  refine block_ext fun j hj => ?_
  rw [byteAt_packBytes _ _ (by simpa using h) hj, byteAt_packBytes _ _ (by omega) hj]
  by_cases hb : j < bs.length
  · rw [List.getD_append _ _ _ _ hb]
  · rw [List.getD_append_right _ _ _ _ (by omega), List.getD_eq_default bs _ (by omega), List.getD_eq_getElem?_getD,
      List.getElem?_getD_replicate_default_eq]

/-- Absorbing the zero bytes that fill the carry is Flush (R135). -/
theorem hashPart_absorbAll_zeros {g : Session} (hg : g.CarryInv) :
    (absorbAll g (List.replicate ((16 - g.plen.val) % 16) 0)).hashPart = (flush g).hashPart := by
  have hlt := g.plen.isLt
  by_cases hp : g.plen = 0
  · rw [flush, if_pos hp, hp]
    rfl
  have hpos : g.plen.val ≠ 0 := fun h => hp (Fin.ext h)
  have hlen : g.plen.val + (List.replicate ((16 - g.plen.val) % 16) (0 : Byte)).length = 16 := by
    rw [List.length_replicate]
    omega
  obtain ⟨hacc, hpbuf, hplen⟩ := (absorbAll_absorbedAs hg (by omega)).full hlen.ge
  have htail : (g.tail ++ List.replicate ((16 - g.plen.val) % 16) (0 : Byte)).length = 16 := by
    rw [List.length_append, length_tail, hlen]
  rw [List.take_of_length_le htail.le, packBytes_append_zeros (by rw [length_tail]; omega), hg.packBytes_tail] at hacc
  rw [List.drop_of_length_le htail.le] at hpbuf
  have hflush : (flush g).acc = gfMul (g.acc ^^^ g.pbuf) g.h := by rw [flush_acc, flushedAcc, if_neg hp]
  rw [Session.hashPart, hacc, hpbuf, show (absorbAll g _).plen = 0 from Fin.ext (by rw [hplen, hlen]; rfl),
    (absorbAll_keepsRest g _).h, Session.hashPart, hflush, flush_pbuf hg, flush_plen, (flush_keepsRest g).h]
  rfl

theorem flushedAcc_hashPart (g : Session) : flushedAcc g.hashPart = flushedAcc g := rfl

/-- Absorbing a string padded to whole blocks is absorbing it and flushing (42_gcm.md R152). -/
theorem hashPart_absorbAll_pad16 {g : Session} (hg : g.CarryInv) (hp : g.plen = 0) (m : List Byte) :
    (absorbAll g (pad16 m)).hashPart = (flush (absorbAll g m)).hashPart := by
  have hplen : (absorbAll g m).plen.val = m.length % 16 := by rw [absorbAll_plen, hp, Fin.val_zero, Nat.zero_add]
  rw [pad16, absorbAll_append, ← hplen]
  exact hashPart_absorbAll_zeros (absorbAll_carryInv hg m)

/-- The GHASH of the padded AAD, the padded ciphertext and the lengths (R152): two flushed strings, then the length
block. -/
theorem ghash_hashedString (h : Block) (a c : List Byte) : ghash h (hashedString a c)
    = gfMul (flushedAcc (absorbAll (flush (absorbAll { Session.reset with h := h } a)) c)
        ^^^ (BitVec.ofNat 64 (8 * a.length) ++ BitVec.ofNat 64 (8 * c.length))) h := by
  have hE : Session.CarryInv { Session.reset with h := h } := fun j _ _ => byteAt_zero j
  generalize hF : flush (absorbAll { Session.reset with h := h } a) = F
  have hFh : F.h = h := by rw [← hF, (flush_keepsRest _).h, (absorbAll_keepsRest _ a).h]
  have ha : (absorbAll { Session.reset with h := h } (pad16 a)).hashPart = F.hashPart :=
    hF ▸ hashPart_absorbAll_pad16 hE rfl a
  have hc : (absorbAll F (pad16 c)).hashPart = (flush (absorbAll F c)).hashPart :=
    hashPart_absorbAll_pad16 (hF ▸ flush_carryInv (absorbAll_carryInv hE a)) (hF ▸ flush_plen _) c
  generalize hL : be64Pair (BitVec.ofNat 64 (8 * a.length)) (BitVec.ofNat 64 (8 * c.length)) = L
  have hparts : (absorbAll { Session.reset with h := h } (hashedString a c)).hashPart
      = (absorbAll (flush (absorbAll F c)) (takeBytes 16 L)).hashPart := by
    rw [hashedString, hL, absorbAll_append, absorbAll_append, hashPart_absorbAll, hashPart_absorbAll, ha,
      ← hashPart_absorbAll, hc, ← hashPart_absorbAll]
  obtain ⟨hacc, hplen⟩ := absorbAll_block (flush_plen (absorbAll F c)) (length_takeBytes 16 L)
  rw [ghash, flush_acc, ← flushedAcc_hashPart, hparts, flushedAcc_hashPart, flushedAcc, if_pos hplen, hacc, flush_acc,
    packBytes_takeBytes 16 L le_rfl (by omega), (flush_keepsRest _).h, (absorbAll_keepsRest F c).h, hFh, ← hL, be64Pair]

/-! ## The tag of a session -/

theorem flushedAcc_leaveAad (g : Session) : flushedAcc (leaveAad g) = flushedAcc g := by
  unfold leaveAad
  split
  · rw [flushedAcc, if_pos (flush_plen g), flush_acc]
  · rfl

section
variable {f : Session → Byte → Session × Byte} {pick : Byte → Byte → Byte} {p : Phase} {g t u : Session}
  {a c : List Byte}

/-- The tag of a session does not change when its AAD tail is flushed for no text byte at all. -/
theorem tagOf_textString_nil (p : Phase) (f : Session → Byte → Session × Byte) (g : Session) :
    tagOf (textString p f [] g) = tagOf g := by
  have hr := leaveAad_keepsRest g
  have hacc : flushedAcc (textString p f [] g) = flushedAcc g := flushedAcc_leaveAad g
  have hclen : (textString p f [] g).clen = g.clen := BitVec.add_zero _
  rw [tagOf, finalAcc, hacc, hclen, tagOf, finalAcc, ← hr.grk, ← hr.j0, ← hr.h]
  rfl

/-- GAAD of no byte changes the phase alone, so text goes on as without it. -/
theorem textStart_aadString_nil (hg : g.phase = .init ∨ g.phase = .aad) :
    textStart p (aadString [] g) = textStart p g := by
  have haad : aadString [] g = { g with phase := .aad } :=
    congrArg (fun n => { g with phase := .aad, alen := n }) (BitVec.add_zero g.alen)
  rw [haad, textStart, textStart, leaveAad, leaveAad, if_pos (.inr rfl), if_pos hg]
  by_cases h : g.plen = 0 <;> simp [flush, fold, h]

theorem textOutput_aadString_nil (hg : g.phase = .init ∨ g.phase = .aad) :
    textOutput p f c (aadString [] g) = textOutput p f c g := by
  rw [textOutput, textStart_aadString_nil hg, textOutput]

theorem textString_aadString_nil (hg : g.phase = .init ∨ g.phase = .aad) :
    textString p f c (aadString [] g) = textString p f c g := by
  have halen : (aadString [] g).alen = g.alen := BitVec.add_zero _
  rw [textString, textStart_aadString_nil hg, halen, textString]
  rfl

/-- The tag after AAD bytes and text bytes, from a session with nothing absorbed, is the GCM tag (R152, R153). -/
theorem CiphersBytes.tagOf_textString (hf : CiphersBytes f pick) (hg : g.hashPart = { Session.reset with h := g.h })
    (halen : g.alen = 0) (hclen : g.clen = 0) : tagOf (textString p f c (aadString a g)) = cipher g.grk g.j0
      ^^^ ghash g.h (hashedString a (List.zipWith pick c (textOutput p f c (aadString a g)))) := by
  generalize hC : List.zipWith pick c (textOutput p f c (aadString a g)) = C
  have hlen : C.length = c.length := by rw [← hC, List.length_zipWith, hf.length_textOutput, Nat.min_self]
  have hs := absorbAll_keepsRest g a
  have hr := leaveAad_keepsRest (aadString a g)
  have hm := absorbAll_keepsRest (textStart p (aadString a g)) C
  have hstart : (textStart p (aadString a g)).hashPart = flush (absorbAll { Session.reset with h := g.h } a) := by
    rw [← hg, ← hashPart_absorbAll, ← hashPart_flush]
    show (leaveAad (aadString a g)).hashPart = _
    rw [leaveAad, if_pos (.inr rfl), hashPart_flush, hashPart_flush]
    rfl
  have hgrk : (absorbAll (textStart p (aadString a g)) C).grk = g.grk := hm.grk.trans (hr.grk.trans hs.grk)
  have hj0 : (absorbAll (textStart p (aadString a g)) C).j0 = g.j0 := hm.j0.trans (hr.j0.trans hs.j0)
  have hh : (absorbAll (textStart p (aadString a g)) C).h = g.h := hm.h.trans (hr.h.trans hs.h)
  have halen' : (aadString a g).alen = BitVec.ofNat 64 (8 * a.length) := by
    rw [aadString, Session.label, halen]
    exact BitVec.zero_add _
  have hclen' : (aadString a g).clen + BitVec.ofNat 64 (8 * c.length) = BitVec.ofNat 64 (8 * c.length) := by
    rw [aadString, Session.label, hclen]
    exact BitVec.zero_add _
  rw [hf.textString_eq, hC, hclen', halen', ghash_hashedString, ← hstart, ← hashPart_absorbAll, flushedAcc_hashPart,
    hlen, ← hgrk, ← hj0, ← hh]
  rfl

/-- The tag of a session that took AAD pieces, then text pieces. -/
theorem CiphersBytes.tagOf_of_pieces (hf : CiphersBytes f pick) (hg : g.phase = .init) (hi : g.PhaseInv)
    (ht : aadString [] t = aadString a g) (htp : t.phase = .init ∨ t.phase = .aad)
    (hu : textString p f [] u = textString p f c t) :
    tagOf u = cipher g.grk g.j0 ^^^ ghash g.h (hashedString a (List.zipWith pick c (textOutput p f c t))) := by
  obtain ⟨hplen, hpbuf, hacc, -, -, halen, hclen⟩ := hi.init hg
  have hempty : g.hashPart = { Session.reset with h := g.h } := by
    rw [Session.hashPart, hplen, hpbuf, hacc]
    rfl
  rw [← tagOf_textString_nil p f u, hu, ← textString_aadString_nil htp, ← textOutput_aadString_nil htp, ht]
  exact hf.tagOf_textString hempty halen hclen

end

/-- The phases that GAAD leaves allow GENC and GDEC. -/
theorem phase_of_allowed_gaad {p : Phase} (h : p ∈ allowedPhases (.gaad 0)) :
    (p = .init ∨ p = .aad) ∧ p ∈ allowedPhases (.genc 0) ∧ p ∈ allowedPhases (.gdec 0) := by
  have hp : p = .init ∨ p = .aad := by simpa [allowedPhases] using h
  rcases hp with rfl | rfl <;> decide

/-- The phases that allow text allow the tag commands. -/
theorem allowed_gfinish_of_text {p : Phase} (h : p ∈ allowedPhases (.genc 0) ∨ p ∈ allowedPhases (.gdec 0)) :
    p ∈ allowedPhases (.gfinish 16) := by
  cases p <;> simp [allowedPhases] at h ⊢

/-- Settles O34: the session of the whole strings, whose ciphertext is GENC's output. -/
theorem sessionTagIsGcm : Obligations.SessionTagIsGcm := by
  intro s aad text hp hi haad htext
  obtain ⟨t, x, ht⟩ := streams_gaad.exists_sent haad (s := s) (by simp [allowedPhases, hp])
  obtain ⟨htp, hgenc, -⟩ := phase_of_allowed_gaad ht.allowed
  obtain ⟨u, ct, hu⟩ := streams_genc.exists_sent htext hgenc
  obtain ⟨v, hv⟩ := exists_completes (i := .gfinish 16) rfl nofun rfl (allowed_gfinish_of_text (.inl hu.allowed))
  have htag := ciphersBytes_encByte.tagOf_of_pieces hp hi ht.session htp hu.session
  rw [zipWith_right (ciphersBytes_encByte.length_textOutput _ _ _).symm, ← hu.output] at htag
  exact ⟨t, u, v, x, ct, ht.sent, hu.sent, hv.exec, (toBlock_dout_of_gfinish_16 hv).trans htag⟩

/-- Settles O35: the session of the whole strings, whose ciphertext is GDEC's input. -/
theorem verificationAcceptsOnlyTheTag : Obligations.VerificationAcceptsOnlyTheTag := by
  intro s aad text hp hi hauth haad htext
  obtain ⟨t, x, ht⟩ := streams_gaad.exists_sent haad (s := s) (by simp [allowedPhases, hp])
  obtain ⟨htp, -, hgdec⟩ := phase_of_allowed_gaad ht.allowed
  obtain ⟨u, pt, hu⟩ := streams_gdec.exists_sent htext hgdec
  have htag := ciphersBytes_decByte.tagOf_of_pieces hp hi ht.session htp hu.session
  rw [zipWith_left (ciphersBytes_decByte.length_textOutput _ _ _).symm] at htag
  obtain ⟨v, hv, -, -, -, -, -, -, -, -, -, -, hagree, hdiffer, -⟩ :=
    gverifyCompletes u 16 (by decide) (by decide) (allowed_gfinish_of_text (.inr hu.allowed))
  refine ⟨t, u, v, x, pt, ht.sent, hu.sent, hv, ?_⟩
  rw [← htag, ← ht.aux, ← hu.aux]
  constructor
  · intro hok
    refine block_ext fun j hj => ?_
    by_contra hne
    have hstays := (hdiffer ⟨j, hj, Ne.symm hne⟩).2
    rw [hok, hu.authOk, ht.authOk, hauth] at hstays
    cases hstays
  · intro heq
    exact (hagree fun j _ => by rw [heq]).2

/-! ## A nonce sent in pieces -/

/-- The fast path appends 00 00 00 01 to a nonce of 12 bytes (R144). -/
theorem fastJ0_packBytes {bs : List Byte} (h : bs.length = 12) :
    fastJ0 (packBytes bs) = packBytes (bs ++ [0, 0, 0, 1]) := by
  have hlen : (bs ++ [(0 : Byte), 0, 0, 1]).length ≤ 16 := by simp [h]
  refine block_ext fun j hj => ?_
  rw [byteAt_packBytes _ _ hlen hj]
  by_cases h12 : j < 12
  · rw [fastJ0, byteAt_append _ _ h12, byteAt_packBytes _ _ (by omega) hj, List.getD_append _ _ _ _ (by omega)]
  · obtain ⟨k, hk, rfl⟩ : ∃ k, k < 4 ∧ j = 4 * 3 + k := ⟨j - 12, by omega, by omega⟩
    rw [byteAt_eq_byte_of_be32 _ (by decide) hk, fastJ0, be32_append, List.getD_append_right _ _ _ _ (by omega), h,
      Nat.add_sub_cancel_left]
    interval_cases k <;> rfl

theorem nonceString_nil (g : Session) : nonceString [] g = g :=
  congrArg (fun n => { g with nlen := n }) (BitVec.add_zero g.nlen)

/-- Settles O33: the session of the whole nonce, by the two cases of its length. -/
theorem streamedNonceGivesJ0 : Obligations.StreamedNonceGivesJ0 := by
  intro s p q u cs out hcs hp hq hu
  obtain ⟨p', hp'⟩ := exists_completes (i := .ginit 0) (s := s) rfl nofun rfl
    (by cases s.dev.gcm.phase <;> simp [allowedPhases])
  cases hp'.unique hp
  have hg : p.dev.gcm = sessionStart s.dev.key.toBlock := hp'.gcm
  obtain ⟨q', out', hq'⟩ := streams_gnonce.exists_sent hcs (s := p) (by simp [allowedPhases, hg, sessionStart])
  cases hq'.sent.symm.trans hq
  obtain ⟨u', hu'⟩ := exists_completes (i := .gnonceEnd 0) rfl nofun rfl hq'.allowed
  cases hu'.unique hu
  have hsession : q.dev.gcm = nonceString (chunkBytes cs) p.dev.gcm := (nonceString_nil _).symm.trans hq'.session
  have hnlen : q.dev.gcm.nlen = BitVec.ofNat 64 (8 * (chunkBytes cs).length) := by
    rw [hsession, hg]
    exact BitVec.zero_add _
  have hj0 : u.dev.gcm.j0 = nonceJ0 q.dev.gcm := congrArg Session.j0 hu'.gcm
  rw [hj0]
  constructor
  · intro h12
    rw [nonceJ0_of_96 (by rw [hnlen, h12]; rfl), ← fastJ0_packBytes h12, hsession, hg]
    exact congrArg fastJ0 (pbuf_absorbAll (sessionStart_carryInv _) rfl (by omega))
  · intro hne
    have h96 : q.dev.gcm.nlen ≠ 96 := fun h => hne (by
      have := congrArg BitVec.toNat (hnlen.symm.trans h)
      simpa using this)
    have hempty : p.dev.gcm.hashPart = { Session.reset with h := p.dev.gcm.h } := by rw [hg]; rfl
    rw [nonceJ0_of_ne_96 h96, hnlen, ← flushedAcc_absorbAll_eq_ghash hempty, hsession]
    show gfMul _ (absorbAll p.dev.gcm (chunkBytes cs)).h = _
    rw [(absorbAll_keepsRest _ _).h]
    rfl

end Sys2Proof.Machine
end

section
/-! SUPPORT. The exceptions of 60_exceptions.md: which check rejects a command (R204 to R208), how the engine's step ends
(R201, R205, R209), acceptance (R200) and the interrupt (R211). -/

namespace Sys2Proof.Machine

/-! ## The checks of a decoded command -/

/-- The commands that reach the key check and need a key: CRYPT with LEN = 0, in every phase. -/
theorem admitted_needsKey_iff (i : Instr) (p : Phase) :
    (legalLen i = true ∧ phaseAllows i p = true ∧ needsKey i = true) ↔ i = .crypt 0 := by
  constructor
  · rintro ⟨hl, -, hk⟩
    obtain ⟨n, rfl⟩ := (needsKey_iff i).1 hk
    rw [show n = 0 by simpa [Instr.wf] using (wf_eq_legalLen (.crypt n)).trans hl]
  · rintro rfl
    exact ⟨rfl, rfl, rfl⟩

/-- Which error the checks raise, in the spec's tables of R73 and R141; each excludes the ones after it (R204). -/
theorem admissionError_eq_some_iff (i : Instr) (d : Device) (code : ErrCode) : admissionError i d = some code ↔
    (code = .invalidLength ∧ i.wf = false)
    ∨ (code = .sequence ∧ i.wf = true ∧ d.gcm.phase ∉ allowedPhases i)
    ∨ (code = .noKey ∧ i = .crypt 0 ∧ d.keyValid = false) := by
  rw [← phaseAllows_iff, wf_eq_legalLen, ← admitted_needsKey_iff i d.gcm.phase, admissionError]
  cases legalLen i with
  | false => simp [eq_comm (a := code)]
  | true =>
    cases phaseAllows i d.gcm.phase with
    | false => simp [eq_comm (a := code)]
    | true => simp [eq_comm (a := code), and_comm]

/-- A rejected command changes the completion fields alone (R203). -/
theorem onlyCompletion_raiseCmdError (s : State) (code : ErrCode) :
    OnlyCompletion s { s with dev := raiseCmdError code s.dev } where
  env := keepsEnv_withDev s _
  inputs := ⟨rfl, rfl, rfl, rfl, rfl, rfl⟩
  keys := ⟨rfl, rfl, rfl⟩
  authOk := rfl
  dout := rfl
  gcm := rfl

theorem raised_raiseCmdError (code : ErrCode) (d : Device) : Raised code (raiseCmdError code d) := ⟨rfl, rfl, rfl, rfl⟩

/-- Every command answers a next state; a check that fails gives its error and the frame of R203. -/
theorem exists_exec_next (i : Instr) (s : State) : ∃ t, exec i s = .next t
    ∧ ∀ code, admissionError i s.dev = some code → OnlyCompletion s t ∧ Raised code t.dev := by
  obtain ⟨c, hc, hx⟩ | ⟨hc, hx⟩ := exec_cases i s
  · refine ⟨_, hx, fun code h => ?_⟩
    cases hc.symm.trans h
    exact ⟨onlyCompletion_raiseCmdError s c, raised_raiseCmdError c s.dev⟩
  · exact ⟨_, hx, fun code h => nomatch hc.symm.trans h⟩

/-- An error other than AUTH_FAIL is raised by a check and by nothing else. -/
theorem errCode_eq_iff_admissionError {i : Instr} {s t : State} {code : ErrCode} (h : exec i s = .next t)
    (hn : code ≠ .none) (ha : code ≠ .authFail) : t.dev.errCode = code ↔ admissionError i s.dev = some code := by
  obtain ⟨c, hc, hx⟩ | ⟨hc, hx⟩ := exec_cases i s <;> rw [hx] at h <;> cases h <;> rw [hc]
  · exact Option.some_inj.symm
  · refine iff_of_false ?_ nofun
    obtain ⟨_, -, -, he⟩ | ⟨_, -, he⟩ | ⟨-, he, -⟩ := finish_commandBody_cases i s.dev <;> simp only [he]
    · exact hn.symm
    · exact ha.symm
    · exact hn.symm

/-- Settles O6: INVALID_LENGTH is the first check. -/
theorem invalidLengthRaised : Obligations.InvalidLengthRaised := by
  intro i s
  obtain ⟨t, ht, hraise⟩ := exists_exec_next i s
  have hiff : admissionError i s.dev = some .invalidLength ↔ i.wf = false := by simp [admissionError_eq_some_iff]
  exact ⟨t, ht, (errCode_eq_iff_admissionError ht (by decide) (by decide)).trans hiff, fun hw => hraise _ (hiff.2 hw)⟩

/-- Settles O7: SEQUENCE is the check after the length's. -/
theorem sequenceRaised : Obligations.SequenceRaised := by
  intro i s
  obtain ⟨t, ht, hraise⟩ := exists_exec_next i s
  have hiff : admissionError i s.dev = some .sequence ↔ i.wf = true ∧ s.dev.gcm.phase ∉ allowedPhases i := by
    simp [admissionError_eq_some_iff]
  exact ⟨t, ht, (errCode_eq_iff_admissionError ht (by decide) (by decide)).trans hiff, fun hw hp => hraise _ (hiff.2 ⟨hw, hp⟩)⟩

/-- Settles O8: NO_KEY is the last check, which CRYPT alone can fail. -/
theorem noKeyRaised : Obligations.NoKeyRaised := by
  intro i s
  obtain ⟨t, ht, hraise⟩ := exists_exec_next i s
  have hcode := errCode_eq_iff_admissionError (code := .noKey) ht (by decide) (by decide)
  exact ⟨t, ht, hcode.trans (by simp [admissionError_eq_some_iff]), fun h => hraise _ (hcode.1 h)⟩

/-! ## AUTH_FAIL -/

/-- GVERIFY is admitted exactly with a legal LEN, in a phase that allows it. -/
theorem admissionError_gverify_eq_none_iff (n : BitVec 5) (d : Device) : admissionError (.gverify n) d = none ↔
    (Instr.gverify n).wf = true ∧ d.gcm.phase ∈ allowedPhases (.gverify n) := by
  rw [admissionError_eq_none_iff, wf_eq_legalLen, phaseAllows_iff]
  simp [needsKey]

/-- AUTH_FAIL is the error of GVERIFY's body, when a compared byte differs (R157). -/
theorem finish_errCode_eq_authFail_iff (i : Instr) (d : Device) : (finish (commandBody i d)).errCode = .authFail ↔
    ∃ n, i = .gverify n ∧ ∃ j, j < n.toNat ∧ byteAt (tagOf d.gcm) j ≠ byteAt d.aux.toBlock j := by
  cases i with
  | gverify n =>
    have hiff := tagsAgree_fullTag_iff n d.gcm d.aux.toBlock
    rw [commandBody]
    by_cases h : tagsAgree (byteCount n) (fullTag d.gcm) d.aux.toBlock = true
    · rw [verifyBody_of_agree h]
      refine iff_of_false nofun ?_
      rintro ⟨_, ⟨⟩, j, hj, hne⟩
      exact hne (hiff.1 h j hj)
    · rw [verifyBody_of_differ h]
      rw [hiff] at h
      push Not at h
      exact iff_of_true rfl ⟨n, rfl, h⟩
  | _ => exact iff_of_false nofun nofun

/-- What stands after AUTH_FAIL (R209). -/
theorem finish_of_authFail {i : Instr} {d : Device} (h : (finish (commandBody i d)).errCode = .authFail) :
    finish (commandBody i d) = raiseCmdError .authFail { d with gcm := finalSession d.gcm, dout := Quad.zero } := by
  obtain ⟨_, -, -, he⟩ | ⟨_, -, he⟩ | ⟨-, he, -⟩ := finish_commandBody_cases i d
  · cases (congrArg Device.errCode he).symm.trans h
  · exact he
  · cases (congrArg Device.errCode he).symm.trans h

/-- Settles O9: no check raises AUTH_FAIL, and the body of an admitted GVERIFY raises it. -/
theorem authFailRaised : Obligations.AuthFailRaised := by
  intro i s t h
  obtain ⟨code, hc, hx⟩ | ⟨hc, hx⟩ := exec_cases i s <;> rw [hx] at h <;> cases h
  · have hne : code ≠ .authFail := by obtain rfl | rfl | rfl := admissionError_codes hc <;> decide
    refine ⟨iff_of_false hne ?_, fun he => absurd he hne⟩
    rintro ⟨n, rfl, hw, hp, -⟩
    rw [(admissionError_gverify_eq_none_iff n s.dev).2 ⟨hw, hp⟩] at hc
    cases hc
  · refine ⟨(finish_errCode_eq_authFail_iff i s.dev).trans ⟨?_, fun ⟨n, hi, _, _, hj⟩ => ⟨n, hi, hj⟩⟩, fun he => ?_⟩
    · rintro ⟨n, rfl, hj⟩
      obtain ⟨hw, hp⟩ := (admissionError_gverify_eq_none_iff n s.dev).1 hc
      exact ⟨n, rfl, hw, hp, hj⟩
    · simp only [finish_of_authFail he]
      exact ⟨rfl, rfl, rfl, raised_raiseCmdError _ _⟩

/-! ## Illegal words -/

theorem rsvField_eq_zero_iff (w : Word) : rsvField w = 0 ↔ w >>> 13 = 0 := by
  have hw := w.isLt
  simp only [← BitVec.toNat_inj, rsvField, BitVec.extractLsb'_toNat, BitVec.toNat_ushiftRight, BitVec.ofNat_eq_ofNat,
    BitVec.toNat_ofNat, Nat.shiftRight_eq_div_pow]
  omega

theorem toNat_opField (w : Word) : (opField w).toNat = w.toNat % 256 := by
  rw [opField, BitVec.extractLsb'_toNat, Nat.shiftRight_zero]

/-- The OP values that select a command (R72). -/
theorem exists_commandOf_iff (op : Byte) (n : BitVec 5) : (∃ i, commandOf op n = some i) ↔
    (1 ≤ op.toNat ∧ op.toNat ≤ 5) ∨ (0x10 ≤ op.toNat ∧ op.toNat ≤ 0x17) := by
  constructor
  · rintro ⟨i, h⟩
    obtain ⟨rfl, -⟩ := (commandOf_eq_some_iff op n i).1 h
    cases i <;> simp [opcode]
  · rintro (⟨h1, h2⟩ | ⟨h1, h2⟩) <;> unfold commandOf <;> interval_cases op.toNat <;> exact ⟨_, rfl⟩

/-- The words that select a command (R75). -/
theorem exists_decode_iff (w : Word) : (∃ i, decode w = .ok i) ↔ w >>> 13 = 0
    ∧ ((1 ≤ w.toNat % 256 ∧ w.toNat % 256 ≤ 5) ∨ (0x10 ≤ w.toNat % 256 ∧ w.toNat % 256 ≤ 0x17)) := by
  rw [← rsvField_eq_zero_iff, ← toNat_opField, ← exists_commandOf_iff _ (lenField w)]
  simp only [decode_eq_ok_iff, commandOf_eq_some_iff, exists_and_left]

/-- Settles O5: a word that decodes raises no ILLEGAL_CMD, and every other word does. -/
theorem illegalCommandRaised : Obligations.IllegalCommandRaised := by
  intro s r t hn h
  obtain ⟨hs, hd⟩ := step_of_engineNext hn
  rw [hs] at h
  have hword := exists_decode_iff s.dev.pcmd
  rw [← hd] at hword ⊢
  obtain ⟨i, hi, hx⟩ | ⟨e, he, hx⟩ := engineStep_cases r <;> rw [hx] at h
  · have hne : t.dev.errCode ≠ .illegalCmd := by
      simp [errCode_eq_iff_admissionError h, admissionError_eq_some_iff]
    obtain ⟨hrsv, hop⟩ := hword.1 ⟨i, hi⟩
    exact ⟨iff_of_false hne (by rintro (h | h); exacts [h hrsv, h hop]), fun h => absurd h hne⟩
  · cases h
    have hill : ¬ ∃ i, decode r.dev.pcmd = .ok i := by simp [he]
    rw [hword, not_and_or] at hill
    exact ⟨iff_of_true rfl hill, fun _ => ⟨onlyCompletion_raiseCmdError r _, raised_raiseCmdError _ _⟩⟩

/-! ## Completion -/

/-- What every completion does to the block, with or without an error (R201, R29). -/
structure Ends (d e : Device) : Prop where
  busy : e.busy = false
  done : e.done = true
  err_iff : e.err = true ↔ e.errCode ≠ .none
  inputs : KeepsInputs d e

theorem ends_raiseCmdError {code : ErrCode} (h : code ≠ .none) (d : Device) : Ends d (raiseCmdError code d) :=
  ⟨rfl, rfl, iff_of_true rfl h, rfl, rfl, rfl, rfl, rfl, rfl⟩

theorem finish_commandBody_err_iff (i : Instr) (d : Device) :
    (finish (commandBody i d)).err = true ↔ (finish (commandBody i d)).errCode ≠ .none := by
  obtain ⟨_, -, -, he⟩ | ⟨_, -, he⟩ | ⟨-, he, -⟩ := finish_commandBody_cases i d <;> simp [he]

theorem finish_commandBody_keepsInputs (i : Instr) (d : Device) : KeepsInputs d (finish (commandBody i d)) :=
  have h := commandBody_keepsInputs i d
  ⟨(finish_irqEn _).trans h.irqEn, (finish_overrun _).trans h.overrun, (finish_key _).trans h.key,
    (finish_din _).trans h.din, (finish_aux _).trans h.aux, (finish_pcmd _).trans h.pcmd⟩

/-- The engine's step is a completion, and touches the block alone. -/
theorem exists_engineStep_ends (r : State) : ∃ d, engineStep r = .next { r with dev := d } ∧ Ends r.dev d := by
  obtain ⟨i, -, h⟩ | ⟨e, -, h⟩ := engineStep_cases r
  · obtain ⟨code, hc, hx⟩ | ⟨-, hx⟩ := exec_cases i r
    · exact ⟨_, h.trans hx, ends_raiseCmdError (ne_none_of_admissionError hc) _⟩
    · exact ⟨_, h.trans hx, finish_busy _, finish_done _, finish_commandBody_err_iff i _,
        finish_commandBody_keepsInputs i _⟩
  · exact ⟨_, h, ends_raiseCmdError (by decide) _⟩

/-- Settles O4: the engine's turn runs its step, which completes. -/
theorem everyAcceptedCommandCompletes : Obligations.EveryAcceptedCommandCompletes := by
  intro s r hn
  obtain ⟨hs, hd⟩ := step_of_engineNext hn
  obtain ⟨d, hx, hend⟩ := exists_engineStep_ends r
  exact ⟨_, hs.trans hx, hend.busy, hend.done, hend.err_iff, keepsEnv_withDev r d, hd ▸ hend.inputs⟩

/-- Settles O3: the engine's step decodes the latched word and executes the command. -/
theorem stepRunsTheDecodedCommand : Obligations.StepRunsTheDecodedCommand := fun _ _ _ h => (step_of_ran h).1

/-! ## Acceptance and the interrupt -/

theorem step_writeStatus (s : State) (v : Word) :
    step (s.before (writeTurn 0x008 v)) = .next { s with dev := writeStatus v s.dev } :=
  step_writeTurn s 0x008 v (by decide) (by decide)

theorem step_writeCmd (s : State) (v : Word) :
    step (s.before (writeTurn 0x00C v)) = .next { s with dev := whenIdle s.dev (accept v s.dev) } :=
  step_writeTurn s 0x00C v (by decide) (by decide)

/-- Settles O45: a CMD write is acceptance while BUSY = 0 and dropped while BUSY = 1. -/
theorem cmdWriteIsAccepted : Obligations.CmdWriteIsAccepted := by
  intro s v
  rw [step_writeCmd]
  exact ⟨fun hb => by rw [whenIdle_of_idle hb, accept], fun hb => by rw [whenIdle_of_busy hb, setOverrun]⟩

/-- Settles O50: a completion sets DONE and keeps IRQ_EN; a STATUS write with bit 1 set and acceptance clear DONE. -/
theorem completionRaisesTheInterrupt : Obligations.CompletionRaisesTheInterrupt := by
  intro s t h
  refine ⟨device_irq t.dev, fun r hn => ?_, ?_, ?_⟩
  · obtain ⟨u, hu, -, hdone, -, -, hin⟩ := everyAcceptedCommandCompletes s r hn
    cases hu.symm.trans h
    exact ⟨hdone, by rw [device_irq, hdone, hin.irqEn, Bool.and_true]⟩
  · rintro r v rfl hv
    cases (step_writeStatus r v).symm.trans h
    rw [device_irq, writeStatus_done, hv, Bool.not_true, Bool.and_false, Bool.and_false]
  · rintro r v rfl hb
    cases (step_writeCmd r v).symm.trans h
    rw [before_dev] at hb
    rw [whenIdle_of_idle hb, device_irq, accept_done, Bool.and_false]

end Sys2Proof.Machine
end

section
/-! SUPPORT. Reset and hazards (70_reset_and_hazards.md): writes and reads while BUSY = 1 (R234, R235), and the state
after reset (R230, R231). -/

namespace Sys2Proof.Machine

/-- The machine with BUSY replaced. -/
def State.withBusy (b : Bool) (s : State) : State := { s with dev := { s.dev with busy := b } }

theorem withBusy_true_withBusy {s : State} (hb : s.dev.busy = true) (b : Bool) :
    (s.withBusy b).withBusy true = s := by
  rw [← hb]
  rfl

/-! ## Writes while BUSY = 1 -/

/-- A write to CTRL or STATUS does not depend on BUSY and leaves it. -/
theorem regWrite_withBusy {off : Nat} (h : off = 0x004 ∨ off = 0x008) (v : Word) (b : Bool) (s : State) :
    regWrite off v (s.withBusy b) = (regWrite off v s).withBusy b := by
  obtain rfl | rfl := h <;> rfl

/-- While BUSY = 1 a write to CMD, KEY, DIN or AUX has no other effect than to be dropped. -/
theorem writeReg_of_busy {off : Nat} (h4 : off % 4 = 0) (h1 : 0x00C ≤ off) (h2 : off ≤ 0x03C) (v : Word) {d : Device}
    (hb : d.busy = true) : writeReg (regAt off) v d = setOverrun d := by
  have he := writeEffect_writeReg h4 v d
  generalize writeReg (regAt off) v d = e at he ⊢
  cases he with
  | dropped => rfl
  | accepted _ hi | stored _ _ _ _ _ hi => rw [hb] at hi; cases hi
  | ignored | ctrl | status => omega

/-- Settles O46: an operand write is dropped, and a write to CTRL or STATUS commutes with replacing BUSY. -/
theorem busyWritesAreDropped : Obligations.BusyWritesAreDropped := by
  intro s off v hb h4
  refine ⟨fun ⟨h1, h2⟩ => ?_, fun hoff => ?_⟩
  · rw [step_writeTurn s off v (by omega) h4, regWrite, writeReg_of_busy h4 h1 h2 v hb, setOverrun]
  · refine ⟨_, _, step_writeTurn s off v (by omega) h4, step_writeTurn (s.withBusy false) off v (by omega) h4, ?_⟩
    calc regWrite off v s
      _ = regWrite off v ((s.withBusy false).withBusy true) := by rw [withBusy_true_withBusy hb]
      _ = (regWrite off v (s.withBusy false)).withBusy true := regWrite_withBusy hoff v true _

/-! ## Reads while BUSY = 1 -/

/-- DOUT, ALEN and CLEN are the registers that are unspecified as a whole while BUSY = 1. -/
theorem unspecifiedWhenBusy_of_offset {off : Nat} (h4 : off % 4 = 0) (h1 : 0x040 ≤ off) (h2 : off ≤ 0x05C) :
    unspecifiedWhenBusy (regAt off) = true := by
  obtain h | rfl | rfl | rfl | rfl : off ≤ 0x040 + 0x00C ∨ off = 0x050 ∨ off = 0x054 ∨ off = 0x058 ∨ off = 0x05C := by
    omega
  · obtain ⟨k, hk, rfl⟩ := exists_word_of_offset (by decide) h4 h1 h
    rw [regAt_dout hk, unspecifiedWhenBusy]
  all_goals rfl

/-- A read of a register that is unspecified while BUSY = 1 is one free draw. -/
theorem regRead_of_unspecified {off : Nat} {s : State} (hb : s.dev.busy = true)
    (hu : unspecifiedWhenBusy (regAt off) = true) :
    lastRead (regRead off s) = Config.freeRead s.freeCount ∧ (regRead off s).freeCount = s.freeCount + 1 := by
  rw [lastRead_regRead, regRead_freeCount, readValue, if_pos hb, if_pos hu, drawsFree, hb, hu]
  exact ⟨rfl, rfl⟩

/-- Only STATUS shows BUSY. -/
theorem trueValue_withBusy {r : Reg} (hr : r ≠ .status) (b : Bool) (s : State) :
    trueValue r (s.withBusy b).dev = trueValue r s.dev := by
  cases r with
  | status => exact absurd rfl hr
  | _ => rfl

/-- A read that draws no free value while BUSY = 1 returns what it would return while BUSY = 0. -/
theorem lastRead_regRead_of_not_drawsFree {off : Nat} {s : State} (hb : s.dev.busy = true)
    (h : drawsFree (regAt off) s.dev = false) :
    lastRead (regRead off s) = lastRead (regRead off (s.withBusy false)) := by
  have hr : regAt off ≠ .status := by
    rintro hr
    simp [drawsFree, hr, hb] at h
  rw [lastRead_regRead, lastRead_regRead, readValue_of_not_drawsFree h,
    readValue_of_idle (d := (s.withBusy false).dev) rfl, trueValue_withBusy hr]

/-- STATUS's bits while BUSY = 1 (R235): the free draw under its mask, OVERRUN at bit 6 and a 1 at bit 0. -/
theorem getLsbD_busyStatusWord (o : Bool) (free : Word) {i : Nat} (hi : i < 32) : (busyStatusWord o free).getLsbD i
    = ((free.getLsbD i && busyFreeMask.getLsbD i) || (decide (i = 6) && o) || decide (i = 0)) := by
  have h6 : ((BitVec.ofBool o).setWidth 32 <<< 6).getLsbD i = (decide (i = 6) && o) := by
    rw [BitVec.getLsbD_shiftLeft, BitVec.getLsbD_setWidth, BitVec.getLsbD_ofBool]
    obtain h | rfl | h := Nat.lt_trichotomy i 6
    · simp [h, h.ne]
    · simp
    · simp [h.ne', show i - 6 ≠ 0 by omega]
  rw [busyStatusWord, BitVec.getLsbD_or, BitVec.getLsbD_or, BitVec.getLsbD_and, h6]
  congr 1
  simp [BitVec.getLsbD_one]

/-- A bit of STATUS outside the mask, OVERRUN and BUSY reads 0 while BUSY = 1. -/
theorem getLsbD_busyStatusWord_of_fixed (o : Bool) (free : Word) {i : Nat} (hi : i < 32)
    (h : busyFreeMask.getLsbD i = false ∧ i ≠ 6 ∧ i ≠ 0) : (busyStatusWord o free).getLsbD i = false := by
  obtain ⟨hm, h6, h0⟩ := h
  simp [getLsbD_busyStatusWord o free hi, hm, h6, h0]

/-- A field of such bits reads 0. -/
theorem extractLsb'_busyStatusWord_of_fixed (o : Bool) (free : Word) {start len : Nat} (hlen : start + len ≤ 32)
    (h : ∀ i < len, busyFreeMask.getLsbD (start + i) = false ∧ start + i ≠ 6 ∧ start + i ≠ 0) :
    (busyStatusWord o free).extractLsb' start len = 0 := by
  refine BitVec.eq_of_getLsbD_eq fun i hi => ?_
  rw [BitVec.getLsbD_extractLsb', getLsbD_busyStatusWord_of_fixed o free (by omega) (h i hi), Bool.and_false]
  exact BitVec.getLsbD_zero.symm

/-- A bit of STATUS under the mask is the free draw's while BUSY = 1. -/
theorem getLsbD_busyStatusWord_of_free (o : Bool) (free : Word) {i : Nat} (hi : i < 32)
    (h : busyFreeMask.getLsbD i = true ∧ i ≠ 6 ∧ i ≠ 0) : (busyStatusWord o free).getLsbD i = free.getLsbD i := by
  obtain ⟨hm, h6, h0⟩ := h
  simp [getLsbD_busyStatusWord o free hi, hm, h6, h0]

/-- STATUS while BUSY = 1, bit by bit (R235, R23). -/
theorem busyStatusWord_layout (o : Bool) (free : Word) : (busyStatusWord o free).getLsbD 0 = true
    ∧ (busyStatusWord o free).getLsbD 1 = false ∧ (busyStatusWord o free).getLsbD 6 = o
    ∧ (busyStatusWord o free).getLsbD 7 = false ∧ (busyStatusWord o free).extractLsb' 12 4 = 0
    ∧ (busyStatusWord o free).extractLsb' 19 13 = 0
    ∧ ∀ b ∈ [2, 3, 4, 5, 8, 9, 10, 11, 16, 17, 18], (busyStatusWord o free).getLsbD b = free.getLsbD b := by
  refine ⟨?busy, getLsbD_busyStatusWord_of_fixed o free (by decide) (by decide), ?overrun,
    getLsbD_busyStatusWord_of_fixed o free (by decide) (by decide),
    extractLsb'_busyStatusWord_of_fixed o free (by decide) (by decide),
    extractLsb'_busyStatusWord_of_fixed o free (by decide) (by decide), fun b hb => ?free⟩
  case busy => rw [getLsbD_busyStatusWord o free (by decide), decide_eq_true rfl, Bool.or_true]
  case overrun =>
    rw [getLsbD_busyStatusWord o free (by decide)]
    simp [busyFreeMask]
  case free =>
    have hmask : ∀ b ∈ [2, 3, 4, 5, 8, 9, 10, 11, 16, 17, 18],
      b < 32 ∧ busyFreeMask.getLsbD b = true ∧ b ≠ 6 ∧ b ≠ 0 := by decide
    exact getLsbD_busyStatusWord_of_free o free (hmask b hb).1 (hmask b hb).2

/-- A read of STATUS while BUSY = 1 is its masked word, and one free draw. -/
theorem regRead_status_of_busy {s : State} (hb : s.dev.busy = true) :
    lastRead (regRead 0x008 s) = busyStatusWord s.dev.overrun (Config.freeRead s.freeCount)
      ∧ (regRead 0x008 s).freeCount = s.freeCount + 1 := by
  rw [regRead_freeCount, drawsFree, hb]
  exact ⟨if_pos hb, rfl⟩

/-- Settles O47: DOUT, ALEN and CLEN are one free draw, STATUS is its masked word, and every other register draws
nothing and reads as O41 says of BUSY = 0. -/
theorem busyReadsAreFreeDraws : Obligations.BusyReadsAreFreeDraws := by
  intro s off hb h4 hlt
  have hother (h : off ≠ 0x008 ∧ (off < 0x040 ∨ 0x060 ≤ off)) :
      lastRead (regRead off s) = lastRead (regRead off (s.withBusy false))
        ∧ (regRead off s).freeCount = s.freeCount := by
    have hdraw := drawsFree_of_offset h4 h.1 h.2 s.dev
    exact ⟨lastRead_regRead_of_not_drawsFree hb hdraw, by rw [regRead_freeCount, hdraw, if_neg Bool.false_ne_true]⟩
  obtain ⟨t, ht, hid, hctrl, hcmdkey, hdin, haux, -, -, -, -, -, hreserved⟩ :=
    idleReadsFollowTheRegisterMap (s.withBusy false) off rfl h4 hlt
  cases (step_readTurn _ off hlt h4).symm.trans ht
  refine ⟨_, step_readTurn s off hlt h4, regRead_dev off s, ?_, ?_, ?_, ?_, ?_, ?_, ?_, ?_, ?_⟩
  · exact fun ⟨h1, h2⟩ => regRead_of_unspecified hb (unspecifiedWhenBusy_of_offset h4 h1 h2)
  · exact fun h => ⟨(hother (by omega)).1.trans (hreserved h), (hother (by omega)).2⟩
  · rintro rfl
    obtain ⟨hread, hcount⟩ := regRead_status_of_busy hb
    obtain ⟨hbusy, hdone, hoverrun, h7, hlow, hhigh, hfree⟩ :=
      busyStatusWord_layout s.dev.overrun (Config.freeRead s.freeCount)
    rw [hread]
    exact ⟨hbusy, hdone, hoverrun, h7, hlow, hhigh, hfree, hcount⟩
  · exact fun hs h => (hother ⟨hs, .inl h⟩).2
  · exact fun h => (hother (by omega)).1.trans (hid h)
  · exact fun h => (hother (by omega)).1.trans (hctrl h)
  · exact fun h => (hother (by omega)).1.trans (hcmdkey h)
  · exact fun h => (hother (by omega)).1.trans (hdin h)
  · exact fun h => (hother (by omega)).1.trans (haux h)

/-! ## Reset -/

@[simp] theorem toBlock_zero : Quad.zero.toBlock = 0 := by decide

theorem getElem_roundKeys_zero {i : Nat} (h : i < 32) : RoundKeys.zero[i] = 0 := Vector.getElem_replicate h

/-- Settles O49: reset puts `Device.reset` in the block's place, and every field of that is its reset value. -/
theorem resetClearsEveryField : Obligations.ResetClearsEveryField := by
  intro s
  obtain ⟨u, hu, hid, -⟩ := idleReadsFollowTheRegisterMap (platformReset s) 0x000 rfl rfl (by decide)
  exact ⟨_, step_before_reset s, keepsEnv_withDev s Device.reset, rfl, rfl, rfl, rfl, rfl, rfl, rfl, rfl, rfl,
    toBlock_zero, toBlock_zero, toBlock_zero, toBlock_zero,
    fun _ h => ⟨getElem_roundKeys_zero h, getElem_roundKeys_zero h⟩,
    rfl, rfl, rfl, rfl, rfl, rfl, rfl, rfl, rfl, rfl, rfl, rfl, rfl, u, hu, hid rfl⟩

theorem carryInv_reset : Session.reset.CarryInv := fun j _ _ => byteAt_zero j

theorem statusInv_reset : Device.reset.StatusInv where
  err_iff := by decide
  busy h := absurd h Bool.false_ne_true
  authOk h := absurd h Bool.false_ne_true
  noKey _ := ⟨rfl, rfl⟩

/-- Settles O60, by one lemma for each invariant. -/
theorem resetMeetsTheInvariants : Obligations.ResetMeetsTheInvariants :=
  ⟨carryInv_reset, statusInv_reset, phaseInv_reset, counterInv_of_beforeText rfl rfl⟩

end Sys2Proof.Machine
end
